-- ==== Sys2Proof/Word.lean ====
section
/-!
DEFINITION. The word types of the spec: bytes, the 16-bit coordinates of a request, 24-bit colours, 7-bit device
addresses (00_scope.md R6, R7). Byte order and bit fields stand in Decode.lean and Machine/Operands.lean.
-/
namespace Sys2Proof

/-- One byte of a request, a response or a bus transaction (R8). -/
abbrev Byte := BitVec 8

/-- A u16 argument of a request or a window register (R18, R66). -/
abbrev Half := BitVec 16

/-- A colour: `[23:16]` R, `[15:8]` G, `[7:0]` B (R20). -/
abbrev Colour := BitVec 24

/-- A tag-bus device address, 0..127 (R40). -/
abbrev DevAddr := BitVec 7

end Sys2Proof
end

