-- ==== Sys2Proof/Config.lean ====
section
/-!
DEFINITION. The parameters of 00_scope.md R6, as one record of plain data, and the free values of the choices the spec
leaves open. A parameter is an ARGUMENT of the model (R6, R29): the record stands in State as the field `cfg`, no step
changes it, and every statement is about every configuration (DESIGN CHOICE, notes/assumptions/1.md).
-/
namespace Sys2Proof

/-- Order in which DSTR draws characters (R99). -/
inductive StringOrder where
  | forward
  | reversed
deriving DecidableEq, Repr

/-- Whether the pixel transactions of one fill may be merged (R63). -/
inductive FillFraming where
  | perPixel
  | coalesced
deriving DecidableEq, Repr

/-- What an empty tag read does to the stored tag (R111). -/
inductive EmptyReadPolicy where
  | hold
  | clear
deriving DecidableEq, Repr

/-- The parameters of R6 that are not fixed numbers. -/
structure Config where
  /-- `CMD_SWRESET`, the software-reset command (OPEN). -/
  cmdSwreset : Byte
  /-- `CMD_CASET`, column-address-set (OPEN). -/
  cmdCaset : Byte
  /-- `CMD_PASET`, page-address-set (OPEN). -/
  cmdPaset : Byte
  /-- `CMD_RAMWR`, memory-write (OPEN). -/
  cmdRamwr : Byte
  /-- `INIT_TABLE`, the contents of INIT_ROM (R27; OPEN). -/
  initTable : List Byte
  /-- `GLYPH_ROM`, codepoint to eight row bytes, top row first; a codepoint not listed has no entry (R28; OPEN). -/
  glyphRom : List (Byte × List Byte)
  /-- `BG_RESET`, the background colour after reset (R20). -/
  bgReset : Colour
  /-- `STRING_ORDER` (R99). -/
  stringOrder : StringOrder
  /-- `FILL_FRAMING` (R63). -/
  fillFraming : FillFraming
  /-- `MAX_DATA_LEN`, the longest DDATA payload (OPEN). -/
  maxDataLen : Nat
  /-- `MAX_TEXT_LEN`, the longest DSTR text (OPEN). -/
  maxTextLen : Nat
  /-- `RFID_ADDR`, the tag reader's bus address (OPEN). -/
  rfidAddr : DevAddr
  /-- `TAG_BLOCK_REG`, the register phase of the tag block read, if any (R76). -/
  tagBlockReg : Option Byte
  /-- `REG_PRESENCE`, the presence register (OPEN). -/
  regPresence : Byte
  /-- `CLEAR_REQ`, the request byte of the buffer clear (OPEN). -/
  clearReq : Byte
  /-- `DRAIN_LEN`, the bytes the drain read asks for (OPEN). -/
  drainLen : Nat
  /-- `READER_INIT_SEQ`, the (register, value) pairs of RINIT (OPEN). -/
  readerInitSeq : List (Byte × Byte)
  /-- `EMPTY_READ_POLICY` (R111). -/
  emptyReadPolicy : EmptyReadPolicy
deriving DecidableEq, Repr

/-- `PANEL_W`, columns (R6). -/
def panelW : Nat := 240

/-- `PANEL_H`, rows (R6). -/
def panelH : Nat := 320

/-- `T_SWRESET_MS`, the settle delay after the software reset (R6). -/
def tSwresetMs : Nat := 150

/-- `T_ENTRY_MS`, the delay after a table entry with its delay flag (R6). -/
def tEntryMs : Nat := 150

/-- `TAG_BLOCK_LEN`, six tag bytes and four timestamp bytes (R6, R77). -/
def tagBlockLen : Nat := 10

/-- `SCAN_FIRST` (R6, R105). -/
def scanFirst : Nat := 1

/-- `SCAN_LAST` (R6, R105). -/
def scanLast : Nat := 126

/-- FREE VALUE: how the `k`-th group of a COALESCED fill is sized (R63 fixes no grouping; notes/assumptions/9.md).
Nothing is known of it. -/
opaque Config.groupChoice : Nat → Nat

/-- FREE VALUE: which held request is accepted at the `k`-th choice (R125, R149 admit every order;
notes/assumptions/8.md). Nothing is known of it. -/
opaque Config.heldChoice : Nat → Nat

end Sys2Proof
end

