-- ==== Sys2Proof/Syntax.lean ====
section
/-!
DEFINITION. The instructions: one constructor per row of spec/opcode_table.json, the fourteen host requests (R66) and
the two forms of a bring-up table entry (R69–R71).
-/
namespace Sys2Proof

/-- What the block decodes: a host request (30_encoding.md R64–R66), or an entry of the bring-up table in INIT_ROM
(R69–R71). A counted argument (`n` and its bytes) is the list alone: its length is `n`. -/
inductive Instr where
  /-- 0x01 `DINIT` (R87). -/
  | dinit
  /-- 0x02 `DCMD b` (R85). -/
  | dcmd (b : Byte)
  /-- 0x03 `DDATA s` (R86). -/
  | ddata (s : List Byte)
  /-- 0x04 `DWIN x, y, w, h` (R90). -/
  | dwin (x y w h : Half)
  /-- 0x05 `DFILL (r, g, b)` (R92). -/
  | dfill (r g b : Byte)
  /-- 0x06 `DBGSET (r, g, b)` (R101). -/
  | dbgset (r g b : Byte)
  /-- 0x07 `DCHAR x, y, cp, scale, (r, g, b)` (R98). -/
  | dchar (x y : Half) (cp scale r g b : Byte)
  /-- 0x08 `DSTR x, y, scale, (r, g, b), text` (R100). -/
  | dstr (x y : Half) (scale r g b : Byte) (text : List Byte)
  /-- 0x10 `RINIT` (R107). -/
  | rinit
  /-- 0x11 `RPOLL` (R113). -/
  | rpoll
  /-- 0x12 `RPRES` (R106). -/
  | rpres
  /-- 0x13 `RREAD addr, reg` (R103). -/
  | rread (addr : DevAddr) (reg : Byte)
  /-- 0x14 `RWRITE addr, reg, val` (R104). -/
  | rwrite (addr : DevAddr) (reg val : Byte)
  /-- 0x15 `RSCAN` (R105). -/
  | rscan
  /-- A table entry `[cmd][len_byte][args...]` (R69, R70). -/
  | initEntry (cmd : Byte) (delay : Bool) (args : List Byte)
  /-- The table's terminator, the byte 0x00 in command position (R71). -/
  | initEnd
deriving DecidableEq, Repr

/-- The two units, each with its own bus (R2). -/
inductive UnitId where
  | dsq
  | tpc
deriving DecidableEq, Repr

/-- The unit that performs an instruction (R65, R66; table entries are DINIT's, hence DSQ's). -/
def Instr.unit : Instr → UnitId
  | .dinit | .dcmd _ | .ddata _ | .dwin .. | .dfill .. | .dbgset .. | .dchar .. | .dstr .. => .dsq
  | .rinit | .rpoll | .rpres | .rread .. | .rwrite .. | .rscan => .tpc
  | .initEntry .. | .initEnd => .dsq

/-- Whether an instruction is a host request (R66), not a table entry (R69–R71). -/
def Instr.isRequest : Instr → Bool
  | .initEntry .. | .initEnd => false
  | .dinit | .dcmd _ | .ddata _ | .dwin .. | .dfill .. | .dbgset .. | .dchar .. | .dstr ..
  | .rinit | .rpoll | .rpres | .rread .. | .rwrite .. | .rscan => true

end Sys2Proof
end

