-- ==== Sys2Proof/WellFormed.lean ====
section
/-!
DEFINITION. When an instruction is well formed: its counted arguments fit their length fields (R66, R70), a table entry's
command is not the terminator (R71), and a request respects the limits of R68. Whether a configuration is well formed
(R6, R83) stands in Machine/Table.lean, beside the table parser it uses.
-/
namespace Sys2Proof

/-- The instruction has an encoding: `n` fits its field (u16 of DDATA, u8 of DSTR, 7 bits of a table entry), and a table
command is not 0x00 (R66, R70, R71). -/
def Instr.encodable : Instr → Bool
  | .ddata s => decide (s.length < 65536)
  | .dstr _ _ _ _ _ _ text => decide (text.length < 256)
  | .initEntry cmd _ args => decide (cmd ≠ 0x00#8) && decide (args.length < 128)
  | .dinit | .dcmd _ | .dwin .. | .dfill .. | .dbgset .. | .dchar .. | .rinit | .rpoll | .rpres
  | .rread .. | .rwrite .. | .rscan | .initEnd => true

/-- The instruction is within the limits of R68: `n ≤ MAX_DATA_LEN` for DDATA, `n ≤ MAX_TEXT_LEN` for DSTR. -/
def Instr.withinLimits (c : Config) : Instr → Bool
  | .ddata s => decide (s.length ≤ c.maxDataLen)
  | .dstr _ _ _ _ _ _ text => decide (text.length ≤ c.maxTextLen)
  | .dinit | .dcmd _ | .dwin .. | .dfill .. | .dbgset .. | .dchar .. | .rinit | .rpoll | .rpres
  | .rread .. | .rwrite .. | .rscan | .initEntry .. | .initEnd => true

/-- A well-formed instruction under a configuration. -/
def Instr.wellFormed (c : Config) (i : Instr) : Bool :=
  i.encodable && i.withinLimits c

end Sys2Proof
end

