-- ==== Sys2Proof/Decode.lean ====
section
/-!
DEFINITION. Decoding and encoding (30_encoding.md): host requests (R64–R66, R68) and bring-up table entries (R69–R72),
both total on any bytes and rejecting by name; then the encoder, from the same tables of the spec.
-/
namespace Sys2Proof

/-! ### Byte order (R7, R8, R47, R64) -/

/-- `hi(v) = v[15:8]` (R8). -/
def hi (v : Half) : Byte := v.extractLsb' 8 8

/-- `lo(v) = v[7:0]` (R8). -/
def lo (v : Half) : Byte := v.extractLsb' 0 8

/-- `be16(a, b) = a·256 + b` (R8). -/
def be16 (a b : Byte) : Half := a ++ b

/-- `be32(a, b, c, d)` (R8). -/
def be32 (a b c d : Byte) : BitVec 32 := a ++ b ++ c ++ d

/-! ### Host requests -/

/-- Why bytes are not a request or not a table entry. -/
inductive Reject where
  /-- No byte at all. -/
  | empty
  /-- An unassigned operation code (R68). -/
  | badOp (op : Byte)
  /-- The length differs from the one R66 gives the operation (R68). -/
  | badLength (op : Byte)
  /-- RREAD or RWRITE with `addr > 0x7F` (R68). -/
  | badAddr (addr : Byte)
  /-- A table entry runs past the end of INIT_ROM (R83). -/
  | pastRomEnd
deriving DecidableEq, Repr

/-- The operations of R66. -/
inductive Op where
  | dinit | dcmd | ddata | dwin | dfill | dbgset | dchar | dstr
  | rinit | rpoll | rpres | rread | rwrite | rscan
deriving DecidableEq, Repr

/-- The operation code of R66: `op[7:4]` the unit, `op[3:0]` the function (R65). -/
def Op.code : Op → Byte
  | .dinit => 0x01#8
  | .dcmd => 0x02#8
  | .ddata => 0x03#8
  | .dwin => 0x04#8
  | .dfill => 0x05#8
  | .dbgset => 0x06#8
  | .dchar => 0x07#8
  | .dstr => 0x08#8
  | .rinit => 0x10#8
  | .rpoll => 0x11#8
  | .rpres => 0x12#8
  | .rread => 0x13#8
  | .rwrite => 0x14#8
  | .rscan => 0x15#8

/-- Every assigned operation, in the table's order. -/
def Op.all : List Op :=
  [.dinit, .dcmd, .ddata, .dwin, .dfill, .dbgset, .dchar, .dstr, .rinit, .rpoll, .rpres, .rread, .rwrite, .rscan]

/-- The operation a first byte names, matched whole (mask 0xFF, R65); every other code is unassigned (R68). -/
def Op.ofByte (b : Byte) : Option Op :=
  Op.all.find? fun o => decide (o.code = b)

/-- A 7-bit device address out of its byte; larger values are refused (R66, R68). -/
def devAddr (a : Byte) : Option DevAddr :=
  if a.toNat < 128 then some (a.setWidth 7) else none

/-- A request without arguments: any further byte makes its length wrong (R68). -/
def decodeBare (i : Instr) (op : Byte) : List Byte → Except Reject Instr
  | [] => .ok i
  | _ :: _ => .error (.badLength op)

/-- The arguments of one operation, bytes 1.. of the request, in R66's layout. Any other length is refused (R68). -/
def decodeArgs (o : Op) (args : List Byte) : Except Reject Instr :=
  match o with
  | .dinit => decodeBare .dinit o.code args
  | .dcmd =>
    match args with
    | [b] => .ok (.dcmd b)
    | _ => .error (.badLength o.code)
  | .ddata =>
    match args with
    | n1 :: n0 :: s => if s.length = (be16 n1 n0).toNat then .ok (.ddata s) else .error (.badLength o.code)
    | _ => .error (.badLength o.code)
  | .dwin =>
    match args with
    | [x1, x0, y1, y0, w1, w0, h1, h0] => .ok (.dwin (be16 x1 x0) (be16 y1 y0) (be16 w1 w0) (be16 h1 h0))
    | _ => .error (.badLength o.code)
  | .dfill =>
    match args with
    | [r, g, b] => .ok (.dfill r g b)
    | _ => .error (.badLength o.code)
  | .dbgset =>
    match args with
    | [r, g, b] => .ok (.dbgset r g b)
    | _ => .error (.badLength o.code)
  | .dchar =>
    match args with
    | [x1, x0, y1, y0, cp, scale, r, g, b] => .ok (.dchar (be16 x1 x0) (be16 y1 y0) cp scale r g b)
    | _ => .error (.badLength o.code)
  | .dstr =>
    match args with
    | x1 :: x0 :: y1 :: y0 :: scale :: r :: g :: b :: n :: text =>
      if text.length = n.toNat then .ok (.dstr (be16 x1 x0) (be16 y1 y0) scale r g b text)
      else .error (.badLength o.code)
    | _ => .error (.badLength o.code)
  | .rinit => decodeBare .rinit o.code args
  | .rpoll => decodeBare .rpoll o.code args
  | .rpres => decodeBare .rpres o.code args
  | .rread =>
    match args with
    | [a, reg] =>
      match devAddr a with
      | some addr => .ok (.rread addr reg)
      | none => .error (.badAddr a)
    | _ => .error (.badLength o.code)
  | .rwrite =>
    match args with
    | [a, reg, val] =>
      match devAddr a with
      | some addr => .ok (.rwrite addr reg val)
      | none => .error (.badAddr a)
    | _ => .error (.badLength o.code)
  | .rscan => decodeBare .rscan o.code args

/-- A host request out of its bytes (R64–R66), or why it is refused (R68). The limits MAX_DATA_LEN and MAX_TEXT_LEN are
the configuration's and are checked where the request is accepted (`Instr.wellFormed`, Machine/Ops.lean). -/
def decodeRequest : List Byte → Except Reject Instr
  | [] => .error .empty
  | op :: args =>
    match Op.ofByte op with
    | some o => decodeArgs o args
    | none => .error (.badOp op)

/-! ### Bring-up table entries -/

/-- `n = len_byte[6:0]` (R70). -/
def argCount (lenByte : Byte) : Nat := (lenByte.extractLsb' 0 7).toNat

/-- `delay = len_byte[7]` (R70). -/
def delayFlag (lenByte : Byte) : Bool := lenByte.getLsbD 7

/-- The entry at the head of the table's bytes, and the bytes after it (R69–R72). The terminator consumes no length
byte (R71); an entry that does not lie wholly inside the bytes is rejected (R83). -/
def decodeEntry : List Byte → Except Reject (Instr × List Byte)
  | [] => .error .pastRomEnd
  | cmd :: rest =>
    if cmd = 0x00#8 then .ok (.initEnd, rest)
    else
      match rest with
      | [] => .error .pastRomEnd
      | lb :: tail =>
        if tail.length < argCount lb then .error .pastRomEnd
        else .ok (.initEntry cmd (delayFlag lb) (tail.take (argCount lb)), tail.drop (argCount lb))

/-! ### The encoder -/

/-- A u16 field, high byte first (R64). -/
def u16Bytes (v : Half) : List Byte := [hi v, lo v]

/-- `len_byte`: bit 7 the delay flag, bits 6..0 the argument count (R70). -/
def lenByte (delay : Bool) (n : Nat) : Byte := BitVec.ofBool delay ++ BitVec.ofNat 7 n

/-- The bytes of an instruction: a host request in R66's layout, or a table entry in R69's. -/
def encode : Instr → List Byte
  | .dinit => [0x01#8]
  | .dcmd b => [0x02#8, b]
  | .ddata s => 0x03#8 :: (u16Bytes (BitVec.ofNat 16 s.length) ++ s)
  | .dwin x y w h => 0x04#8 :: (u16Bytes x ++ u16Bytes y ++ u16Bytes w ++ u16Bytes h)
  | .dfill r g b => [0x05#8, r, g, b]
  | .dbgset r g b => [0x06#8, r, g, b]
  | .dchar x y cp scale r g b => 0x07#8 :: (u16Bytes x ++ u16Bytes y ++ [cp, scale, r, g, b])
  | .dstr x y scale r g b text =>
    0x08#8 :: (u16Bytes x ++ u16Bytes y ++ [scale, r, g, b, BitVec.ofNat 8 text.length] ++ text)
  | .rinit => [0x10#8]
  | .rpoll => [0x11#8]
  | .rpres => [0x12#8]
  | .rread addr reg => [0x13#8, addr.setWidth 8, reg]
  | .rwrite addr reg val => [0x14#8, addr.setWidth 8, reg, val]
  | .rscan => [0x15#8]
  | .initEntry cmd delay args => cmd :: lenByte delay args.length :: args
  | .initEnd => [0x00#8]

/-! ### An instruction given as one number

The number lays the bytes out lowest first, as spec/opcode_table.json numbers bits. The two encoding spaces overlap
(a first byte 0x01 is DINIT in a request and an ordinary command in INIT_ROM), and a number names no space: a first byte
the request space assigns is read there, every other in INIT_ROM (DESIGN CHOICE, notes/assumptions/7.md). -/

/-- The `n` lowest bytes of `w`, lowest first. -/
def wordBytes : Nat → Nat → List Byte
  | 0, _ => []
  | n + 1, w => BitVec.ofNat 8 (w % 256) :: wordBytes n (w / 256)

/-- The length R66 gives a request whose bytes begin so, fields that are not there read as zero. -/
def requestLength (bs : List Byte) : Nat :=
  match Op.ofByte (bs.getD 0 0#8) with
  | none => 1
  | some .dinit | some .rinit | some .rpoll | some .rpres | some .rscan => 1
  | some .dcmd => 2
  | some .ddata => 3 + (be16 (bs.getD 1 0#8) (bs.getD 2 0#8)).toNat
  | some .dwin => 9
  | some .dfill | some .dbgset | some .rwrite => 4
  | some .dchar => 10
  | some .dstr => 10 + (bs.getD 9 0#8).toNat
  | some .rread => 3

/-- The length R72 gives the table entry whose bytes begin so, a length byte that is not there read as zero. -/
def entryLength (bs : List Byte) : Nat :=
  if bs.getD 0 0#8 = 0x00#8 then 1 else 2 + argCount (bs.getD 1 0#8)

/-- Whether the number is read in the request space. -/
def wordIsRequest (nbits w : Nat) : Bool :=
  (Op.ofByte ((wordBytes (nbits / 8) w).getD 0 0#8)).isSome

/-- The bytes of the instruction: those the number gives, then zeros up to the instruction's length. -/
def wordInstrBytes (nbits w : Nat) : List Byte :=
  let bs := wordBytes (nbits / 8) w
  let len := if wordIsRequest nbits w then requestLength bs else entryLength bs
  bs ++ List.replicate (len - bs.length) 0#8

/-- The instruction the decoder reads from an instruction whose bits are `w`. -/
def decodeTableWord (nbits w : Nat) : Option Instr :=
  if wordIsRequest nbits w then
    match decodeRequest (wordInstrBytes nbits w) with
    | .ok i => some i
    | .error _ => none
  else
    match decodeEntry (wordInstrBytes nbits w) with
    | .ok (i, []) => some i
    | .ok (_, _ :: _) => none
    | .error _ => none

end Sys2Proof
end

