-- ==== Sys2Proof/Machine/Params.lean ====
section
/-!
DEFINITION. The configuration State.reset carries: the spec's decided defaults (00_scope.md R6) and, for the OPEN
parameters, the example values of 95_test_vectors.md (DESIGN CHOICE, unsafe, notes/assumptions/1.md). The spec claims
none of the examples for a real part, and no statement rests on one: statements are about every configuration.
-/
namespace Sys2Proof.Machine

/-- The example glyph of 95: `GLYPH_ROM[0x41] = 18 24 42 7E 42 42 00 00`, no other entry. Row 0 is the source's (R28),
rows 1–7 are invented by the spec for its examples. -/
def exampleGlyphs : List (Byte × List Byte) :=
  [(0x41#8, [0x18#8, 0x24#8, 0x42#8, 0x7E#8, 0x42#8, 0x42#8, 0x00#8, 0x00#8])]

/-- The example bring-up table of 95 program P1: 0x3A with one argument, 0x11 and 0x29 with their delay flags. -/
def exampleInitTable : List Byte :=
  [0x3A#8, 0x01#8, 0x66#8, 0x11#8, 0x80#8, 0x29#8, 0x80#8, 0x00#8]

/-- The configuration State.reset carries. Decided defaults: R6, D13, D16, D22, D24, D28. Example values: 95's header
(G4, G5) and P1. The two length limits are the largest a request can encode, so that none is refused for its length. -/
def exampleConfig : Config where
  cmdSwreset := 0x01#8
  cmdCaset := 0x2A#8
  cmdPaset := 0x2B#8
  cmdRamwr := 0x2C#8
  initTable := exampleInitTable
  glyphRom := exampleGlyphs
  bgReset := 0xFFFFFF#24
  stringOrder := .forward
  fillFraming := .perPixel
  maxDataLen := 65535
  maxTextLen := 255
  rfidAddr := 0x28#7
  tagBlockReg := none
  regPresence := 0x04#8
  clearReq := 0x01#8
  drainLen := 1
  readerInitSeq := []
  emptyReadPolicy := .hold

end Sys2Proof.Machine
end

