-- ==== Sys2Proof/Machine/State.lean ====
section
/-!
DEFINITION. The state of the machine as plain data: the registers of 10_state.md R13, the position of a running operation
(R30), the two bus traces and the responses (R10, R67, R151), the configuration (R6, R29), and what the outside world has
given and will give (R41). Nothing here says what an operation does.
-/
namespace Sys2Proof.Machine

/-! ### Status codes and the answers of the environment -/

/-- The status codes of R117. -/
inductive Status where
  | ok
  | errDbus
  | errRbus
  | decodeEmpty
  | errRange
  | errNoWindow
  | errBadop
deriving DecidableEq, Repr

/-- The environment's answer to a display-bus transaction (R42). -/
inductive DispAnswer where
  | ok
  | fail
deriving DecidableEq, Repr

/-- The environment's answer to a tag-bus write (R44). -/
inductive WriteAnswer where
  | ack
  | nack
deriving DecidableEq, Repr

/-- The environment's answer to a tag-bus read (R45). -/
inductive ReadAnswer where
  | ok (bytes : List Byte)
  | fail
deriving DecidableEq, Repr

/-! ### Bus traces -/

/-- One item of the display-bus trace: `C(b)`, `D(s)` with its answer, or `W(n)` (R42, R43). -/
inductive DispItem where
  | cmd (b : Byte) (answer : DispAnswer)
  | data (s : List Byte) (answer : DispAnswer)
  | wait (ms : Nat)
deriving DecidableEq, Repr

/-- One item of the tag-bus trace: `TW(a, s, stop)` or `TR(a, n)` with its answer (R44, R45). -/
inductive TagItem where
  | write (addr : DevAddr) (s : List Byte) (stop : Bool) (answer : WriteAnswer)
  | read (addr : DevAddr) (n : Nat) (answer : ReadAnswer)
deriving DecidableEq, Repr

/-! ### What a running operation has still to do

An operation is the list of its pseudocode's lines, the loops written out. What is left of the list while the unit waits
for an answer is the operation's position (R30; DESIGN CHOICE, notes/assumptions/22.md). -/

/-- One line of a DSQ operation's pseudocode. -/
inductive DAct where
  /-- `DSQ.WIN_VALID <- 0` (R85–R87, R89, R91). -/
  | clearWinValid
  /-- `DSQ.PANEL_OK <- v` (R87). -/
  | setPanelOk (v : Bool)
  /-- `DSQ.BG_COLOR <- c` (R101). -/
  | setBg (c : Colour)
  /-- `raise Err(code)` where the pseudocode's condition fails on the operands alone (R89). -/
  | reject (e : Status)
  /-- `if DSQ.WIN_VALID = 0: raise Err(ERR_NO_WINDOW)` (R91). -/
  | needWindow
  /-- `if dcmd(b) = FAIL: raise Err(ERR_DBUS)`. -/
  | cmd (b : Byte)
  /-- `if ddata(s) = FAIL: raise Err(ERR_DBUS)`. -/
  | data (s : List Byte)
  /-- `wait_ms(n)` (R43). -/
  | wait (ms : Nat)
  /-- The window registers and `WIN_VALID <- 1`, after the five transactions of R89. -/
  | openWindow (x y w h : Nat)
  /-- The pixel loop of R91, its count taken from the window registers when the loop is entered. -/
  | fill (c : Colour)
  /-- The pixel loop of R91 with `left` pixels still to send: the pixel counter of R15. -/
  | pixels (left : Nat) (c : Colour)
  /-- The loop of DINIT at the offset `p` into INIT_ROM (R15, R87). -/
  | table (p : Nat)
deriving DecidableEq, Repr

/-- One line of a TPC operation's pseudocode. -/
inductive TAct where
  /-- `if twrite(a, s, stop) = NACK: raise Err(ERR_RBUS)`. -/
  | write (addr : DevAddr) (s : List Byte) (stop : Bool)
  /-- `if twrite(a, [], true) = ACK: V[a] <- 1` (R105). -/
  | probe (addr : DevAddr)
  /-- `tread(a, 1)`; FAIL or no byte raises ERR_RBUS, else the byte is the value (R102). -/
  | readReg (addr : DevAddr)
  /-- `tread(RFID_ADDR, 10)`; FAIL raises ERR_RBUS, else decode, de-duplicate, store, fix the event (R113). -/
  | readBlock
  /-- `tread(RFID_ADDR, DRAIN_LEN)`; FAIL raises ERR_RBUS, the bytes are discarded (R112). -/
  | drain
deriving DecidableEq, Repr

/-- What one line of pseudocode does in a unit: go on, raise an error, or wait (with what is left of the line) for an
answer the environment has not given. -/
inductive ActResult (σ α : Type) where
  | done (s : σ)
  | raise (e : Status) (s : σ)
  | pause (s : σ) (a : α)
deriving DecidableEq, Repr

/-! ### The units -/

/-- DSQ: its registers, its bus and its responses. -/
structure Dsq where
  /-- `DSQ.BUSY` (R16). -/
  busy : Bool
  /-- `DSQ.STATUS` (R17). -/
  status : Byte
  /-- `DSQ.WIN_X0` (R18). -/
  winX0 : Half
  /-- `DSQ.WIN_Y0` (R18). -/
  winY0 : Half
  /-- `DSQ.WIN_X1` (R18). -/
  winX1 : Half
  /-- `DSQ.WIN_Y1` (R18). -/
  winY1 : Half
  /-- `DSQ.WIN_VALID` (R19). -/
  winValid : Bool
  /-- `DSQ.BG_COLOR` (R20). -/
  bgColor : Colour
  /-- `DSQ.PANEL_OK` (R21). -/
  panelOk : Bool
  /-- The running operation's position: what it has still to do; empty when idle (R30). -/
  run : List DAct
  /-- The display-bus trace, oldest first (R42, R43). -/
  trace : List DispItem
  /-- Answers the display environment has given and no transaction has used yet, oldest first (R41). -/
  answers : List DispAnswer
  /-- The responses of DSQ operations, oldest first (R67, R151). -/
  responses : List (List Byte)
  /-- The model's own counter of drawn group sizes (free value, R63). -/
  groupDraws : Nat
deriving DecidableEq, Repr

/-- A TagRecord as the block outputs it (R78). -/
structure TagRecord where
  tagId : List Byte
  timestamp : BitVec 32
deriving DecidableEq, Repr

/-- How a TPC operation's response is laid out (R67). -/
inductive TpcResult where
  /-- `[status]` (RINIT, RWRITE). -/
  | plain
  /-- `[status, value]` (RREAD). -/
  | value
  /-- `[status, bit]` (RPRES). -/
  | presence
  /-- `[status] ‖ ack vector` (RSCAN). -/
  | scan
  /-- `[status, flag] ‖ tag id ‖ timestamp` (RPOLL). -/
  | poll
deriving DecidableEq, Repr

/-- The values a running TPC operation holds; discarded when it ends (R30). -/
structure TpcWork where
  /-- How the response is laid out. -/
  result : TpcResult
  /-- The register value read (R102). -/
  value : Byte
  /-- The scan vector `V` (R79, R105). -/
  acks : BitVec 128
  /-- The poll's candidate tag id and timestamp, once its block is decoded (R113). -/
  candidate : Option TagRecord
  /-- The poll's pending event (R113). -/
  event : Option TagRecord
deriving DecidableEq, Repr

/-- What the idle unit holds of an operation: nothing. -/
def TpcWork.idle : TpcWork := { result := .plain, value := 0, acks := 0, candidate := none, event := none }

/-- TPC: its registers, its bus and its responses. -/
structure Tpc where
  /-- `TPC.BUSY` (R22). -/
  busy : Bool
  /-- `TPC.STATUS` (R23). -/
  status : Byte
  /-- `TPC.LAST_LEN`, 0 or 12 (R24). -/
  lastLen : BitVec 4
  /-- `TPC.LAST_TAG_ID`, twelve bytes (R24). -/
  lastTagId : List Byte
  /-- The running operation's position; empty when idle (R30). -/
  run : List TAct
  /-- The running operation's values (R30). -/
  work : TpcWork
  /-- The tag-bus trace, oldest first (R44, R45). -/
  trace : List TagItem
  /-- Answers to tag-bus writes that no transaction has used yet, oldest first (R41, R44). -/
  writeAnswers : List WriteAnswer
  /-- Answers to tag-bus reads that no transaction has used yet, oldest first (R41, R45). -/
  readAnswers : List ReadAnswer
  /-- The responses of TPC operations, oldest first (R67, R151). -/
  responses : List (List Byte)
deriving DecidableEq, Repr

/-! ### The machine -/

/-- What the outside world does next (R41, R133, R137, R138). -/
inductive Input where
  /-- The host presents a request (R64). -/
  | request (bytes : List Byte)
  /-- The display environment answers (R42). -/
  | dispAnswer (a : DispAnswer)
  /-- The tag environment answers a write (R44). -/
  | tagWriteAnswer (a : WriteAnswer)
  /-- The tag environment answers a read (R45). -/
  | tagReadAnswer (a : ReadAnswer)
  /-- The host reads the state port (R31). -/
  | portRead (offset : BitVec 32)
  /-- Power-on (R138). -/
  | powerOn
deriving DecidableEq, Repr

/-- Everything the spec gives the machine, the configuration it is built with, and the outside world's inputs. -/
structure State where
  /-- The parameters (R6, R29); no step changes them. -/
  cfg : Config
  /-- The display unit. -/
  dsq : Dsq
  /-- The tag unit. -/
  tpc : Tpc
  /-- Well-formed requests waiting for their unit (R30, R149). -/
  held : List Instr
  /-- The request port's own answers to refused requests, oldest first (R123). -/
  portResponses : List (List Byte)
  /-- What the host has read at the state port: offset and word, oldest first (R31). -/
  portReads : List (BitVec 32 × BitVec 32)
  /-- What the outside world does next, in order (R41, R133). -/
  inputs : List Input
  /-- The model's own counter of choices among held requests (free value, R125). -/
  holdDraws : Nat
deriving DecidableEq, Repr

/-- Why the machine stops with a fault. -/
inductive Fault where
  /-- Raised by the step when DSQ's table offset reads past the end of INIT_ROM, a read R37 gives no value. It is safe:
  no run of a well-formed configuration reaches it (notes/assumptions/11.md). -/
  | initRomOverrun
deriving DecidableEq, Repr

/-- Why an instruction has no meaning here. -/
inductive Refusal where
  /-- Raised by an arm of exec whose instruction has no meaning yet; safe. -/
  | notModelled (mnemonic : String)
  /-- Raised by the step, and by DINIT, under a configuration R6 and R83 do not admit: such a configuration "is refused"
  and "no DINIT runs with it". Safe (notes/assumptions/10.md). -/
  | illFormedConfig
  /-- Raised by INIT_ENTRY and INIT_END executed while DSQ is not at a table position: the spec gives a table entry no
  effect outside DINIT's replay (R71, R87). Safe (notes/assumptions/6.md). -/
  | notReplaying
deriving DecidableEq, Repr

/-! ### Reset (R32, R138) -/

/-- DSQ right after reset, under a configuration. -/
def Dsq.reset (c : Config) : Dsq where
  busy := false
  status := 0x00#8
  winX0 := 0x0000#16
  winY0 := 0x0000#16
  winX1 := 0x0000#16
  winY1 := 0x0000#16
  winValid := false
  bgColor := c.bgReset
  panelOk := false
  run := []
  trace := []
  answers := []
  responses := []
  groupDraws := 0

/-- TPC right after reset. -/
def Tpc.reset : Tpc where
  busy := false
  status := 0x00#8
  lastLen := 0#4
  lastTagId := List.replicate 12 0x00#8
  run := []
  work := TpcWork.idle
  trace := []
  writeAnswers := []
  readAnswers := []
  responses := []

/-- The machine right after reset, built with the configuration `c`. -/
def State.resetWith (c : Config) : State where
  cfg := c
  dsq := Dsq.reset c
  tpc := Tpc.reset
  held := []
  portResponses := []
  portReads := []
  inputs := []
  holdDraws := 0

/-- The machine right after reset (R32, R138), with the spec's example configuration (notes/assumptions/1.md). -/
def State.reset : State := State.resetWith exampleConfig

end Sys2Proof.Machine
end

