-- ==== Sys2Proof/Machine/Operands.lean ====
section
/-!
DEFINITION. Operand forms and pure functions of the spec: colours and pixels, window arithmetic, glyph lookup and bit
order, hex digits, the tag block, de-duplication, the stored tag id as a string, the scan vector.
-/
namespace Sys2Proof.Machine

/-! ### Colours (R20, R49, R101) -/

/-- `(r << 16) | (g << 8) | b` (R101). -/
def rgb (r g b : Byte) : Colour := r ++ g ++ b

/-- The three bytes of a pixel, R, G, B (R49). -/
def pixelBytes (c : Colour) : List Byte := [c.extractLsb' 16 8, c.extractLsb' 8 8, c.extractLsb' 0 8]

/-- `n` pixels of one colour back to back (R75). -/
def pixelRun (n : Nat) (c : Colour) : List Byte := (List.replicate n (pixelBytes c)).flatten

/-! ### Windows (R88) -/

/-- `window_ok(x, y, w, h)`, on exact integers. -/
def windowOk (x y w h : Nat) : Bool :=
  decide (1 ≤ w) && decide (1 ≤ h) && decide (x + w ≤ panelW) && decide (y + h ≤ panelH)

/-- `[hi(a), lo(a), hi(b), lo(b)]` for an inclusive range (R74). -/
def rangeArgs (a b : Nat) : List Byte :=
  u16Bytes (BitVec.ofNat 16 a) ++ u16Bytes (BitVec.ofNat 16 b)

/-- `caset_args(x, w)`. -/
def casetArgs (x w : Nat) : List Byte := rangeArgs x (x + w - 1)

/-- `paset_args(y, h)`. -/
def pasetArgs (y h : Nat) : List Byte := rangeArgs y (y + h - 1)

/-- The extent `last − first + 1` of an inclusive range; 0 where it would not be positive
(notes/assumptions/16.md). -/
def extent (first last : Half) : Nat := last.toNat + 1 - first.toNat

/-! ### Glyphs (R94–R96) -/

/-- `rev8(b)[i] = b[7 − i]` (R94). -/
def rev8 (b : Byte) : Byte := b.reverse

/-- `glyph(cp, r)`: the stored row byte, 0x00 where the codepoint has no entry (R95). -/
def glyph (c : Config) (cp : Byte) (r : Nat) : Byte :=
  match c.glyphRom.find? (fun e => e.1 == cp) with
  | some e => e.2.getD r 0x00#8
  | none => 0x00#8

/-- `paint(cp, r, col) = rev8(glyph(cp, r))[7 − col]` (R96). -/
def paint (c : Config) (cp : Byte) (r col : Nat) : Bool := (rev8 (glyph c cp r)).getLsbD (7 - col)

/-- The set pixels of a glyph as (row, column), in the order R97 draws them. -/
def paintedCells (c : Config) (cp : Byte) : List (Nat × Nat) :=
  ((List.range 8).flatMap fun row => (List.range 8).map fun col => (row, col)).filter
    fun rc => paint c cp rc.1 rc.2

/-! ### The tag block (R108–R110) -/

/-- `hexdigit(v)` for `v ≤ 15`, an ASCII code (R108). -/
def hexdigit (v : Nat) : Byte :=
  if v ≤ 9 then BitVec.ofNat 8 (0x30 + v) else BitVec.ofNat 8 (0x41 + (v - 10))

/-- Two uppercase digits per byte, high nibble first (R109). -/
def hexBytes (bs : List Byte) : List Byte :=
  bs.flatMap fun b => [hexdigit (b.extractLsb' 4 4).toNat, hexdigit (b.extractLsb' 0 4).toNat]

/-- `decode(s)`: a full block gives its tag id and timestamp, anything shorter the empty id (R110). -/
def decodeBlock (s : List Byte) : TagRecord :=
  if s.length = tagBlockLen then
    { tagId := hexBytes (s.take 6)
      timestamp := be32 (s.getD 6 0#8) (s.getD 7 0#8) (s.getD 8 0#8) (s.getD 9 0#8) }
  else { tagId := [], timestamp := 0 }

/-- `dedup(last, cand)`: the new stored id, and whether an event is emitted (R111). -/
def dedup (policy : EmptyReadPolicy) (last cand : List Byte) : List Byte × Bool :=
  if cand ≠ [] ∧ cand ≠ last then (cand, true)
  else if cand = last then (last, false)
  else
    match policy with
    | .hold => (last, false)
    | .clear => ([], false)

/-- The string value of `LAST_LEN` and `LAST_TAG_ID` (R24). -/
def Tpc.tagString (t : Tpc) : List Byte := if t.lastLen = 0#4 then [] else t.lastTagId

/-- `TPC.LAST_TAG_ID as string <- id` (R111): `""` clears length and bytes, a tag sets the length to 12. -/
def Tpc.storeTag (id : List Byte) (t : Tpc) : Tpc :=
  { t with
    lastLen := if id = [] then 0#4 else 12#4
    lastTagId := if id = [] then List.replicate 12 0x00#8 else id }

/-! ### Scan vector and read answers -/

/-- `V[a] <- 1` (R105). -/
def setAck (v : BitVec 128) (a : DevAddr) : BitVec 128 := v ||| (1#128 <<< a.toNat)

/-- The sixteen bytes of the vector: byte `k`, bit `j` is address `8k + j` (R67). -/
def scanBytes (v : BitVec 128) : List Byte := (List.range 16).map fun k => v.extractLsb' (8 * k) 8

/-- A read of up to `n` bytes returns at most `n` (R45; notes/assumptions/3.md). -/
def ReadAnswer.cut (n : Nat) : ReadAnswer → ReadAnswer
  | .ok bytes => .ok (bytes.take n)
  | .fail => .fail

end Sys2Proof.Machine
end

