-- ==== Sys2Proof/Machine/Flags.lean ====
section
/-!
DEFINITION. Status codes and flags. The block has no condition codes (R26): its flags are the 1-bit registers, the derived
TAG_PRESENT (R25), and the status code every operation ends with (R117).
-/
namespace Sys2Proof.Machine

/-- The status byte of a code (R117). -/
def Status.code : Status → Byte
  | .ok => 0x00#8
  | .errDbus => 0x01#8
  | .errRbus => 0x02#8
  | .decodeEmpty => 0x03#8
  | .errRange => 0x04#8
  | .errNoWindow => 0x05#8
  | .errBadop => 0x06#8

/-- `TAG_PRESENT`: `LAST_LEN = 12` (R25, R26). -/
def Tpc.tagPresent (t : Tpc) : Bool := decide (t.lastLen = 12#4)

/-- The registers a DSQ error changes before it ends the operation: ERR_DBUS clears `WIN_VALID` and `PANEL_OK`, every
other code changes nothing (R120). -/
def Dsq.onError (e : Status) (d : Dsq) : Dsq :=
  match e with
  | .errDbus => { d with winValid := false, panelOk := false }
  | .ok | .errRbus | .decodeEmpty | .errRange | .errNoWindow | .errBadop => d

/-- The status a TPC operation ends with when no error was raised: a poll whose block was short ends DECODE_EMPTY
(R113), everything else OK. -/
def TpcWork.status (w : TpcWork) : Status :=
  match w.candidate with
  | some r => if r.tagId = [] then .decodeEmpty else .ok
  | none => .ok

/-- The event part of RPOLL's response: flag, tag id, timestamp; all zero without an event (R67). -/
def eventBytes : Option TagRecord → List Byte
  | some r =>
    0x01#8 :: (r.tagId ++ [r.timestamp.extractLsb' 24 8, r.timestamp.extractLsb' 16 8,
      r.timestamp.extractLsb' 8 8, r.timestamp.extractLsb' 0 8])
  | none => List.replicate 17 0x00#8

/-- The response of a TPC operation ending with a status (R67). Data fields are 0x00 unless the status is OK (R119), but
RPOLL's event stands whatever the status (R121). -/
def TpcWork.response (e : Status) (w : TpcWork) : List Byte :=
  e.code ::
    match w.result with
    | .plain => []
    | .value => [if e = .ok then w.value else 0x00#8]
    | .presence => [if e = .ok then w.value &&& 0x01#8 else 0x00#8]
    | .scan => if e = .ok then scanBytes w.acks else List.replicate 16 0x00#8
    | .poll => eventBytes w.event

end Sys2Proof.Machine
end

