-- ==== Sys2Proof/Machine/Table.lean ====
section
/-!
DEFINITION. The bring-up table as a whole: the parser of 40_display_link.md R84 over the entry decoder, the
well-formedness of R83, and with it which configurations the model is built for (R6, R83).
-/
namespace Sys2Proof.Machine

/-- The source's InitTableEntry `{cmd, args, delay}` (R12, R84). -/
structure TableEntry where
  cmd : Byte
  args : List Byte
  delay : Bool
deriving DecidableEq, Repr

/-- The walk of R72 and R84 over the bytes `bs` that stand at offset `p`, at most `fuel` entries. -/
def parseFrom : Nat → Nat → List Byte → Option (List TableEntry × Nat)
  | 0, _, _ => none
  | fuel + 1, p, bs =>
    match decodeEntry bs with
    | .error _ => none
    | .ok (i, rest) =>
      match i with
      | .initEntry cmd delay args =>
        match parseFrom fuel (p + 2 + args.length) rest with
        | some (entries, q) => some ({ cmd, args, delay } :: entries, q)
        | none => none
      | _ => some ([], p)

/-- `parse(T)`: the entries in table order and the offset of the terminator (R84); nothing when the table is not well
formed (R83). An entry takes at least two bytes, so as many entries as bytes are enough. -/
def parse (table : List Byte) : Option (List TableEntry × Nat) := parseFrom table.length 0 table

/-- Well-formedness of INIT_TABLE: the walk reaches a terminator inside the ROM (R83). -/
def tableWellFormed (table : List Byte) : Bool := (parse table).isSome

/-- GLYPH_ROM maps each codepoint 0..127 to at most one bitmap of eight rows (R28). -/
def glyphRomWellFormed (rom : List (Byte × List Byte)) : Bool :=
  rom.all (fun e => decide (e.1.toNat < 128) && decide (e.2.length = 8)) &&
    decide (rom.map Prod.fst).Nodup

/-- The configurations the model is built for: R83's table check, and the ranges R6 and R28 give the other parameters
(notes/assumptions/10.md). -/
def configOk (c : Config) : Bool :=
  tableWellFormed c.initTable && glyphRomWellFormed c.glyphRom && decide (1 ≤ c.maxDataLen) &&
    decide (c.maxTextLen ≤ 255) && decide (1 ≤ c.drainLen) && decide (c.drainLen ≤ 255)

end Sys2Proof.Machine
end

