-- ==== Sys2Proof/Machine/Ops.lean ====
section
/-!
DEFINITION. The named operations every meaning is built from: the bus primitives (R10, R42–R45), the end of an operation
and `raise Err` (R119–R121), the execution of an operation's lines until it ends or waits for the environment, and what
the request port does with a request (R68, R123, R149).
-/
namespace Sys2Proof.Machine

/-! ### Bus primitives

Each issues one transaction and takes the environment's next answer; `none` says that the environment has not answered
(R41, R136; notes/assumptions/2.md). A transaction enters the trace when it completes (R10). -/

/-- A display-bus transaction, given its trace item (R42). -/
def Dsq.transact (item : DispAnswer → DispItem) (d : Dsq) : Option (DispAnswer × Dsq) :=
  match d.answers with
  | [] => none
  | a :: rest => some (a, { d with answers := rest, trace := d.trace ++ [item a] })

/-- `wait_ms(n)` (R43). -/
def Dsq.waitMs (ms : Nat) (d : Dsq) : Dsq := { d with trace := d.trace ++ [.wait ms] }

/-- `twrite(a, s, stop)` (R44). -/
def Tpc.twrite (addr : DevAddr) (s : List Byte) (stop : Bool) (t : Tpc) : Option (WriteAnswer × Tpc) :=
  match t.writeAnswers with
  | [] => none
  | a :: rest => some (a, { t with writeAnswers := rest, trace := t.trace ++ [.write addr s stop a] })

/-- `tread(a, n)` (R45). -/
def Tpc.tread (addr : DevAddr) (n : Nat) (t : Tpc) : Option (ReadAnswer × Tpc) :=
  match t.readAnswers with
  | [] => none
  | a :: rest => some (a.cut n, { t with readAnswers := rest, trace := t.trace ++ [.read addr n (a.cut n)] })

/-! ### The end of an operation, and errors -/

/-- Steps (4)–(6) of R119 in DSQ: the status, the unit idle, the response; the position is discarded (R30). -/
def Dsq.finish (e : Status) (d : Dsq) : Dsq :=
  { d with status := e.code, busy := false, run := [], responses := d.responses ++ [[e.code]] }

/-- `raise Err(code)` in DSQ (R119, R120). -/
def Dsq.raise (e : Status) (d : Dsq) : Dsq := (d.onError e).finish e

/-- Steps (4)–(6) of R119 in TPC; the operation's values are discarded (R30). -/
def Tpc.finish (e : Status) (t : Tpc) : Tpc :=
  { t with
    status := e.code, busy := false, run := [], work := TpcWork.idle
    responses := t.responses ++ [t.work.response e] }

/-- `raise Err(code)` in TPC: nothing else changes, and RPOLL's event stays in the response (R119, R121). -/
def Tpc.raise (e : Status) (t : Tpc) : Tpc := t.finish e

/-! ### The lines of a DSQ operation -/

/-- How many pixels the next transaction of a fill carries, of `left` still to send: one (PER_PIXEL), or a free number of
them (COALESCED, R63; notes/assumptions/9.md). -/
def groupSize (f : FillFraming) (draw left : Nat) : Nat :=
  match f with
  | .perPixel => 1
  | .coalesced => Config.groupChoice draw % left + 1

/-- The counter of group sizes after one more transaction of a fill. -/
def nextDraw (f : FillFraming) (draw : Nat) : Nat :=
  match f with
  | .perPixel => draw
  | .coalesced => draw + 1

/-- The pixel loop of R91 with `left` pixels to send and the given answers: one data transaction per group. -/
def Dsq.sendPixels (f : FillFraming) (c : Colour) : List DispAnswer → Nat → Dsq → ActResult Dsq DAct
  | answers, 0, d => .done { d with answers := answers }
  | [], left + 1, d => .pause { d with answers := [] } (.pixels (left + 1) c)
  | a :: rest, left + 1, d =>
    let n := groupSize f d.groupDraws (left + 1)
    let d' := { d with
      answers := rest
      groupDraws := nextDraw f d.groupDraws
      trace := d.trace ++ [.data (pixelRun n c) a] }
    match a with
    | .ok => Dsq.sendPixels f c rest (left + 1 - n) d'
    | .fail => .raise .errDbus d'

/-- One display-bus transaction as a line of pseudocode: FAIL raises ERR_DBUS. -/
def Dsq.transactLine (item : DispAnswer → DispItem) (line : DAct) (d : Dsq) : ActResult Dsq DAct :=
  match d.transact item with
  | none => .pause d line
  | some (.ok, d') => .done d'
  | some (.fail, d') => .raise .errDbus d'

/-- One line of a DSQ operation. -/
def Dsq.act (c : Config) (line : DAct) (d : Dsq) : ActResult Dsq DAct :=
  match line with
  | .clearWinValid => .done { d with winValid := false }
  | .setPanelOk v => .done { d with panelOk := v }
  | .setBg v => .done { d with bgColor := v }
  | .reject e => .raise e d
  | .needWindow => if d.winValid then .done d else .raise .errNoWindow d
  | .cmd b => d.transactLine (.cmd b) line
  | .data s => d.transactLine (.data s) line
  | .wait ms => .done (d.waitMs ms)
  | .openWindow x y w h =>
    .done { d with
      winX0 := BitVec.ofNat 16 x
      winY0 := BitVec.ofNat 16 y
      winX1 := BitVec.ofNat 16 (x + w - 1)
      winY1 := BitVec.ofNat 16 (y + h - 1)
      winValid := true }
  | .fill v => Dsq.sendPixels c.fillFraming v d.answers (extent d.winX0 d.winX1 * extent d.winY0 d.winY1) d
  | .pixels left v => Dsq.sendPixels c.fillFraming v d.answers left d
  | .table p => .pause d (.table p)

/-- The lines of a DSQ operation in order (R57), until it ends, raises an error, waits for an answer, or stands at a
table offset. After the last line the operation responds OK. -/
def Dsq.go (c : Config) : List DAct → Dsq → Dsq
  | [], d => d.finish .ok
  | line :: rest, d =>
    match d.act c line with
    | .done d' => Dsq.go c rest d'
    | .raise e d' => d'.raise e
    | .pause d' line' => { d' with run := line' :: rest }

/-- DSQ accepts an operation (R16) and performs it. -/
def Dsq.start (c : Config) (lines : List DAct) (d : Dsq) : Dsq := Dsq.go c lines { d with busy := true }

/-- A waiting DSQ goes on from its position; an idle one stays as it is. -/
def Dsq.resume (c : Config) (d : Dsq) : Dsq :=
  match d.run with
  | [] => d
  | line :: rest => Dsq.go c (line :: rest) d

/-! ### The lines of a TPC operation -/

/-- The block of a poll arrived: decode, de-duplicate, store, fix the event (R113 steps 2–5). -/
def Tpc.takeBlock (c : Config) (bytes : List Byte) (t : Tpc) : Tpc :=
  let cand := decodeBlock bytes
  let r := dedup c.emptyReadPolicy t.tagString cand.tagId
  let t' := t.storeTag r.1
  { t' with work := { t'.work with candidate := some cand, event := if r.2 then some cand else none } }

/-- One line of a TPC operation. -/
def Tpc.act (c : Config) (line : TAct) (t : Tpc) : ActResult Tpc TAct :=
  match line with
  | .write addr s stop =>
    match t.twrite addr s stop with
    | none => .pause t line
    | some (.ack, t') => .done t'
    | some (.nack, t') => .raise .errRbus t'
  | .probe addr =>
    match t.twrite addr [] true with
    | none => .pause t line
    | some (.ack, t') => .done { t' with work := { t'.work with acks := setAck t'.work.acks addr } }
    | some (.nack, t') => .done t'
  | .readReg addr =>
    match t.tread addr 1 with
    | none => .pause t line
    | some (.ok (v :: _), t') => .done { t' with work := { t'.work with value := v } }
    | some (.ok [], t') => .raise .errRbus t'
    | some (.fail, t') => .raise .errRbus t'
  | .readBlock =>
    match t.tread c.rfidAddr tagBlockLen with
    | none => .pause t line
    | some (.ok bytes, t') => .done (t'.takeBlock c bytes)
    | some (.fail, t') => .raise .errRbus t'
  | .drain =>
    match t.tread c.rfidAddr c.drainLen with
    | none => .pause t line
    | some (.ok _, t') => .done t'
    | some (.fail, t') => .raise .errRbus t'

/-- The lines of a TPC operation in order (R57), until it ends, raises an error or waits for an answer. After the last
line the operation responds with its status and result. -/
def Tpc.go (c : Config) : List TAct → Tpc → Tpc
  | [], t => t.finish t.work.status
  | line :: rest, t =>
    match t.act c line with
    | .done t' => Tpc.go c rest t'
    | .raise e t' => t'.raise e
    | .pause t' line' => { t' with run := line' :: rest }

/-- TPC accepts an operation (R22) and performs it. -/
def Tpc.start (c : Config) (result : TpcResult) (lines : List TAct) (t : Tpc) : Tpc :=
  Tpc.go c lines { t with busy := true, work := { TpcWork.idle with result := result } }

/-- A waiting TPC goes on from its position; an idle one stays as it is. -/
def Tpc.resume (c : Config) (t : Tpc) : Tpc :=
  match t.run with
  | [] => t
  | line :: rest => Tpc.go c (line :: rest) t

/-! ### The request port -/

/-- A refused request: the port answers `[0x06]` at once and nothing else changes (R68, R123). -/
def State.refuse (s : State) : State :=
  { s with portResponses := s.portResponses ++ [[Status.errBadop.code]] }

/-- A well-formed request to a busy unit is held (R149). -/
def State.hold (i : Instr) (s : State) : State := { s with held := s.held ++ [i] }

/-- `UNIT.BUSY`. -/
def State.unitBusy (s : State) : UnitId → Bool
  | .dsq => s.dsq.busy
  | .tpc => s.tpc.busy

/-- What the port does with a request: refuse an ill-formed one whatever the unit does (R123), hold a well-formed one for
a busy unit (R149), else let the unit perform it. -/
def State.request (i : Instr) (perform : State → State) (s : State) : Host.Outcome State Fault Refusal :=
  if i.wellFormed s.cfg then
    if s.unitBusy i.unit then .next (s.hold i) else .next (perform s)
  else .next s.refuse

/-- A request whose operation is these lines of DSQ. -/
def State.dsqRequest (i : Instr) (lines : List DAct) (s : State) : Host.Outcome State Fault Refusal :=
  s.request i fun s => { s with dsq := s.dsq.start s.cfg lines }

/-- A request whose operation is these lines of TPC. -/
def State.tpcRequest (i : Instr) (result : TpcResult) (lines : List TAct) (s : State) :
    Host.Outcome State Fault Refusal :=
  s.request i fun s => { s with tpc := s.tpc.start s.cfg result lines }

end Sys2Proof.Machine
end

