-- ==== Sys2Proof/Machine/DisplayLink.lean ====
section
/-!
DEFINITION. DisplayLink (40_display_link.md): DCMD, DDATA, DINIT, and the two forms of a bring-up table entry that DINIT
replays.
-/
namespace Sys2Proof.Machine

/-- `DCMD b` (R85). -/
def execDcmd (b : Byte) (s : State) : Host.Outcome State Fault Refusal :=
  s.dsqRequest (.dcmd b) [.clearWinValid, .cmd b]

/-- The lines of DDATA: no transaction for `n = 0` (R86). -/
def ddataLines : List Byte → List DAct
  | [] => [.clearWinValid]
  | b :: bs => [.clearWinValid, .data (b :: bs)]

/-- `DDATA s` (R86). -/
def execDdata (bytes : List Byte) (s : State) : Host.Outcome State Fault Refusal :=
  s.dsqRequest (.ddata bytes) (ddataLines bytes)

/-- The lines of DINIT up to its loop (R87); the loop is the table position `p = 0`. -/
def dinitLines (c : Config) : List DAct :=
  [.clearWinValid, .setPanelOk false, .cmd c.cmdSwreset, .wait tSwresetMs, .table 0]

/-- The lines of one table entry: its command, its arguments as one data transaction if there are any, its delay (R87). -/
def entryLines (cmd : Byte) (delay : Bool) (args : List Byte) : List DAct :=
  .cmd cmd :: ((if args = [] then [] else [.data args]) ++ (if delay then [.wait tEntryMs] else []))

/-- INIT_ENTRY at the offset `p`: the entry's lines, then the loop again at `p + 2 + n` (R72, R87). -/
def Dsq.tableEntry (c : Config) (p : Nat) (rest : List DAct) (cmd : Byte) (delay : Bool) (args : List Byte)
    (d : Dsq) : Dsq :=
  Dsq.go c (entryLines cmd delay args ++ .table (p + 2 + args.length) :: rest) d

/-- INIT_END: the loop exits, `PANEL_OK <- 1`, and DINIT responds (R71, R87). -/
def Dsq.tableEnd (c : Config) (rest : List DAct) (d : Dsq) : Dsq :=
  Dsq.go c (.setPanelOk true :: rest) d

/-- DINIT's loop: while DSQ stands at a table offset, the entry there is read and performed, at most `fuel` entries. -/
def Dsq.replay (c : Config) : Nat → Dsq → Dsq
  | 0, d => d
  | fuel + 1, d =>
    match d.run with
    | .table p :: rest =>
      match decodeEntry (c.initTable.drop p) with
      | .ok (.initEntry cmd delay args, _) => Dsq.replay c fuel (d.tableEntry c p rest cmd delay args)
      | .ok (.initEnd, _) => d.tableEnd c rest
      | _ => d
    | _ => d

/-- `DINIT` (R87): the software reset and its settle delay, then the whole table as far as the environment answers. Under
a configuration R83 refuses, "no `DINIT` runs with it". -/
def execDinit (s : State) : Host.Outcome State Fault Refusal :=
  if configOk s.cfg then
    s.request .dinit fun s =>
      { s with dsq := Dsq.replay s.cfg s.cfg.initTable.length (s.dsq.start s.cfg (dinitLines s.cfg)) }
  else .refused .illFormedConfig

/-- `INIT_ENTRY` (R69, R70, R87), performed where DSQ stands at a table offset. -/
def execInitEntry (cmd : Byte) (delay : Bool) (args : List Byte) (s : State) : Host.Outcome State Fault Refusal :=
  match s.dsq.run with
  | .table p :: rest =>
    if (Instr.initEntry cmd delay args).encodable then
      .next { s with dsq := s.dsq.tableEntry s.cfg p rest cmd delay args }
    else .refused .notReplaying
  | _ => .refused .notReplaying

/-- `INIT_END` (R71, R84, R87), performed where DSQ stands at a table offset. -/
def execInitEnd (s : State) : Host.Outcome State Fault Refusal :=
  match s.dsq.run with
  | .table _ :: rest => .next { s with dsq := s.dsq.tableEnd s.cfg rest }
  | _ => .refused .notReplaying

end Sys2Proof.Machine
end

