-- ==== Sys2Proof/Machine/FrameEncoder.lean ====
section
/-!
DEFINITION. FrameEncoder (41_frame_encoder.md): the steps do_win and do_fill, and the operations DWIN and DFILL.
-/
namespace Sys2Proof.Machine

/-- The step `do_win(x, y, w, h)` (R89). Whether the window fits depends on the operands alone, so the check is made
where the lines are written out. -/
def doWin (c : Config) (x y w h : Nat) : List DAct :=
  if windowOk x y w h then
    [.clearWinValid, .cmd c.cmdCaset, .data (casetArgs x w), .cmd c.cmdPaset, .data (pasetArgs y h),
      .cmd c.cmdRamwr, .openWindow x y w h]
  else [.reject .errRange]

/-- The step `do_fill(c)` (R91). -/
def doFill (v : Colour) : List DAct := [.needWindow, .clearWinValid, .fill v]

/-- `DWIN x, y, w, h` (R90). -/
def execDwin (x y w h : Half) (s : State) : Host.Outcome State Fault Refusal :=
  s.dsqRequest (.dwin x y w h) (doWin s.cfg x.toNat y.toNat w.toNat h.toNat)

/-- `DFILL (r, g, b)` (R92). -/
def execDfill (r g b : Byte) (s : State) : Host.Outcome State Fault Refusal :=
  s.dsqRequest (.dfill r g b) (doFill (rgb r g b))

end Sys2Proof.Machine
end

