-- ==== Sys2Proof/Machine/GlyphRenderer.lean ====
section
/-!
DEFINITION. GlyphRenderer (42_glyph_renderer.md): the step do_char, and the operations DCHAR, DSTR and DBGSET.
-/
namespace Sys2Proof.Machine

/-- The step `do_char(x, y, cp, s, fg)` with the background colour `bg` of DSQ.BG_COLOR (R97): nothing for `cp > 127`;
else the box in the background colour, then one block per set pixel, rows top to bottom, columns left to right. -/
def doChar (c : Config) (bg : Colour) (x y : Nat) (cp : Byte) (scale : Nat) (fg : Colour) : List DAct :=
  if cp.toNat ≤ 127 then
    doWin c x y (8 * scale) (8 * scale) ++ doFill bg ++
      (paintedCells c cp).flatMap fun rc =>
        doWin c (x + rc.2 * scale) (y + rc.1 * scale) scale scale ++ doFill fg
  else []

/-- `DCHAR x, y, cp, scale, (r, g, b)` (R98). -/
def execDchar (x y : Half) (cp scale r g b : Byte) (s : State) : Host.Outcome State Fault Refusal :=
  s.dsqRequest (.dchar x y cp scale r g b)
    (doChar s.cfg s.dsq.bgColor x.toNat y.toNat cp scale.toNat (rgb r g b))

/-- The characters in the order the slots show them: `text[k(i)]` for `i = 0, 1, ...` (R99). -/
def slotChars (order : StringOrder) (text : List Byte) : List Byte :=
  match order with
  | .forward => text
  | .reversed => text.reverse

/-- The lines of DSTR (R100): slot `i` at `x + i·8·scale`, drawn from slot 0 upward. -/
def dstrLines (c : Config) (bg : Colour) (x y scale : Nat) (fg : Colour) (text : List Byte) : List DAct :=
  (slotChars c.stringOrder text).zipIdx.flatMap fun ki => doChar c bg (x + ki.2 * 8 * scale) y ki.1 scale fg

/-- `DSTR x, y, scale, (r, g, b), text` (R100). -/
def execDstr (x y : Half) (scale r g b : Byte) (text : List Byte) (s : State) : Host.Outcome State Fault Refusal :=
  s.dsqRequest (.dstr x y scale r g b text)
    (dstrLines s.cfg s.dsq.bgColor x.toNat y.toNat scale.toNat (rgb r g b) text)

/-- `DBGSET (r, g, b)` (R101). -/
def execDbgset (r g b : Byte) (s : State) : Host.Outcome State Fault Refusal :=
  s.dsqRequest (.dbgset r g b) [.setBg (rgb r g b)]

end Sys2Proof.Machine
end

