-- ==== Sys2Proof/Machine/RfidLink.lean ====
section
/-!
DEFINITION. RfidLink (43_rfid_link.md): the two-phase register read, and the operations RREAD, RWRITE, RSCAN, RPRES and
RINIT.
-/
namespace Sys2Proof.Machine

/-- The step `do_rread(a, reg)`: the register address without a stop, then one byte (R46, R102). -/
def doRread (addr : DevAddr) (reg : Byte) : List TAct := [.write addr [reg] false, .readReg addr]

/-- `RREAD addr, reg` (R103). -/
def execRread (addr : DevAddr) (reg : Byte) (s : State) : Host.Outcome State Fault Refusal :=
  s.tpcRequest (.rread addr reg) .value (doRread addr reg)

/-- `RWRITE addr, reg, val` (R104). -/
def execRwrite (addr : DevAddr) (reg val : Byte) (s : State) : Host.Outcome State Fault Refusal :=
  s.tpcRequest (.rwrite addr reg val) .plain [.write addr [reg, val] true]

/-- The probed addresses SCAN_FIRST..SCAN_LAST, ascending (R105). -/
def scanAddrs : List DevAddr :=
  (List.range (scanLast + 1 - scanFirst)).map fun k => BitVec.ofNat 7 (scanFirst + k)

/-- `RSCAN` (R105). -/
def execRscan (s : State) : Host.Outcome State Fault Refusal :=
  s.tpcRequest .rscan .scan (scanAddrs.map .probe)

/-- `RPRES` (R106). -/
def execRpres (s : State) : Host.Outcome State Fault Refusal :=
  s.tpcRequest .rpres .presence (doRread s.cfg.rfidAddr s.cfg.regPresence)

/-- `RINIT` (R107). -/
def execRinit (s : State) : Host.Outcome State Fault Refusal :=
  s.tpcRequest .rinit .plain (s.cfg.readerInitSeq.map fun rv => .write s.cfg.rfidAddr [rv.1, rv.2] true)

end Sys2Proof.Machine
end

