-- ==== Sys2Proof/Machine/TagPoller.lean ====
section
/-!
DEFINITION. TagPoller (44_tag_poller.md): the buffer clear and the operation RPOLL. The decoder and the de-duplication
are pure functions in Machine/Operands.lean.
-/
namespace Sys2Proof.Machine

/-- The step `do_clear()` (R112). -/
def doClear (c : Config) : List TAct := [.write c.rfidAddr [c.clearReq] true, .drain]

/-- The lines of RPOLL: the optional register phase, the block read with decode and de-duplication, the clear (R113). -/
def rpollLines (c : Config) : List TAct :=
  (match c.tagBlockReg with
    | some r => [.write c.rfidAddr [r] false]
    | none => []) ++ .readBlock :: doClear c

/-- `RPOLL` (R113). -/
def execRpoll (s : State) : Host.Outcome State Fault Refusal :=
  s.tpcRequest .rpoll .poll (rpollLines s.cfg)

end Sys2Proof.Machine
end

