-- ==== Sys2Proof/Machine/Dispatch.lean ====
section
/-!
DEFINITION. exec: one arm per instruction, each one direct call of its meaning.
-/
namespace Sys2Proof.Machine

/-- The meaning of one instruction. -/
def exec (i : Instr) (s : State) : Host.Outcome State Fault Refusal :=
  match i with
  | .dinit => Sys2Proof.Machine.execDinit s
  | .dcmd b => Sys2Proof.Machine.execDcmd b s
  | .ddata bytes => Sys2Proof.Machine.execDdata bytes s
  | .dwin x y w h => Sys2Proof.Machine.execDwin x y w h s
  | .dfill r g b => Sys2Proof.Machine.execDfill r g b s
  | .dbgset r g b => Sys2Proof.Machine.execDbgset r g b s
  | .dchar x y cp scale r g b => Sys2Proof.Machine.execDchar x y cp scale r g b s
  | .dstr x y scale r g b text => Sys2Proof.Machine.execDstr x y scale r g b text s
  | .rinit => Sys2Proof.Machine.execRinit s
  | .rpoll => Sys2Proof.Machine.execRpoll s
  | .rpres => Sys2Proof.Machine.execRpres s
  | .rread addr reg => Sys2Proof.Machine.execRread addr reg s
  | .rwrite addr reg val => Sys2Proof.Machine.execRwrite addr reg val s
  | .rscan => Sys2Proof.Machine.execRscan s
  | .initEntry cmd delay args => Sys2Proof.Machine.execInitEntry cmd delay args s
  | .initEnd => Sys2Proof.Machine.execInitEnd s

end Sys2Proof.Machine
end

