-- ==== Sys2Proof/Machine/Port.lean ====
section
/-!
DEFINITION. The host's side: the read-only state port (R31), power-on (R138), which request a unit accepts next (R125,
R149), and what the machine does next (`State.fetch`). The step only calls `State.fetch`.
-/
namespace Sys2Proof.Machine

/-! ### The state port (R31) -/

/-- 0x00 `DSQ_STAT`. -/
def Dsq.statWord (d : Dsq) : BitVec 32 :=
  0#16 ++ d.status ++ 0#5 ++ BitVec.ofBool d.panelOk ++ BitVec.ofBool d.winValid ++ BitVec.ofBool d.busy

/-- 0x10 `TPC_STAT`. -/
def Tpc.statWord (t : Tpc) : BitVec 32 :=
  0#16 ++ t.status ++ 0#6 ++ BitVec.ofBool t.tagPresent ++ BitVec.ofBool t.busy

/-- `LAST_TAG_ID[k..k+3]`, the first in bits 31:24. -/
def Tpc.tagWord (k : Nat) (t : Tpc) : BitVec 32 :=
  be32 (t.lastTagId.getD k 0#8) (t.lastTagId.getD (k + 1) 0#8) (t.lastTagId.getD (k + 2) 0#8)
    (t.lastTagId.getD (k + 3) 0#8)

/-- The word at an offset; unlisted offsets and bits read 0. -/
def State.portWord (offset : BitVec 32) (s : State) : BitVec 32 :=
  if offset = 0x00#32 then s.dsq.statWord
  else if offset = 0x04#32 then s.dsq.winX1 ++ s.dsq.winX0
  else if offset = 0x08#32 then s.dsq.winY1 ++ s.dsq.winY0
  else if offset = 0x0C#32 then 0#8 ++ s.dsq.bgColor
  else if offset = 0x10#32 then s.tpc.statWord
  else if offset = 0x14#32 then s.tpc.tagWord 0
  else if offset = 0x18#32 then s.tpc.tagWord 4
  else if offset = 0x1C#32 then s.tpc.tagWord 8
  else 0#32

/-- The host reads the port: the machine does not change, the host keeps the word (R31, R137). -/
def State.portRead (offset : BitVec 32) (s : State) : State :=
  { s with portReads := s.portReads ++ [(offset, s.portWord offset)] }

/-! ### Power-on (R32, R138) -/

/-- DSQ at power-on: registers at their reset values, the running operation abandoned without a response. What lies
outside the block (the trace, the responses given, the environment's answers) stays (notes/assumptions/12.md). -/
def Dsq.powerOn (c : Config) (d : Dsq) : Dsq :=
  { Dsq.reset c with
    trace := d.trace, answers := d.answers, responses := d.responses, groupDraws := d.groupDraws }

/-- TPC at power-on. -/
def Tpc.powerOn (t : Tpc) : Tpc :=
  { Tpc.reset with
    trace := t.trace, writeAnswers := t.writeAnswers, readAnswers := t.readAnswers, responses := t.responses }

/-- The block at power-on: both units idle, nothing held; it "waits for its first request". -/
def State.powerOn (s : State) : State :=
  { s with dsq := s.dsq.powerOn s.cfg, tpc := s.tpc.powerOn, held := [] }

/-! ### What happens next -/

/-- The held requests whose unit is idle. -/
def State.eligible (s : State) : List Instr := s.held.filter fun i => !s.unitBusy i.unit

/-- An idle unit accepts one of the requests held for it, any one (R125, R149; free value, notes/assumptions/8.md). -/
def State.acceptHeld (s : State) : Option (Instr × State) :=
  match s.eligible with
  | [] => none
  | first :: others =>
    let i := (first :: others).getD (Config.heldChoice s.holdDraws % (others.length + 1)) first
    some (i, { s with held := s.held.erase i, holdDraws := s.holdDraws + 1 })

/-- What the machine does next. -/
inductive Fetched where
  /-- It performs an instruction in a state. -/
  | run (i : Instr) (s : State)
  /-- It moves without an instruction. -/
  | moved (s : State)
  /-- It stops with a fault. -/
  | stop (f : Fault)
  /-- It is refused. -/
  | reject (r : Refusal)
deriving DecidableEq, Repr

/-- One input of the outside world, already taken off the list. A request is decoded and performed, or refused (R68);
an answer lets a waiting unit go on (R41). -/
def State.receive (input : Input) (s : State) : Fetched :=
  match input with
  | .request bytes =>
    match decodeRequest bytes with
    | .ok i => .run i s
    | .error _ => .moved s.refuse
  | .dispAnswer a => .moved { s with dsq := Dsq.resume s.cfg { s.dsq with answers := s.dsq.answers ++ [a] } }
  | .tagWriteAnswer a =>
    .moved { s with tpc := Tpc.resume s.cfg { s.tpc with writeAnswers := s.tpc.writeAnswers ++ [a] } }
  | .tagReadAnswer a =>
    .moved { s with tpc := Tpc.resume s.cfg { s.tpc with readAnswers := s.tpc.readAnswers ++ [a] } }
  | .portRead offset => .moved (s.portRead offset)
  | .powerOn => .moved s.powerOn

/-- What the machine does next, in this order: nothing under a configuration that is refused (R83); the table entry DSQ
stands at (R87); a held request whose unit is idle (R149); the outside world's next input; with no input left it waits
(R136, R138; notes/assumptions/13.md). -/
def State.fetch (s : State) : Fetched :=
  if configOk s.cfg then
    match s.dsq.run with
    | .table p :: _ =>
      match decodeEntry (s.cfg.initTable.drop p) with
      | .ok (i, _) => .run i s
      | .error _ => .stop .initRomOverrun
    | _ =>
      match s.acceptHeld with
      | some (i, s') => .run i s'
      | none =>
        match s.inputs with
        | [] => .moved s
        | input :: rest => State.receive input { s with inputs := rest }
  else .reject .illFormedConfig

/-! ### Placing one instruction as the next (notes/assumptions/7.md) -/

/-- The request with these bytes is the next thing that happens: both units idle, nothing held, the request first. -/
def State.placeRequest (bytes : List Byte) (s : State) : State :=
  { s with
    dsq := { s.dsq with busy := false, run := [] }
    tpc := { s.tpc with busy := false, run := [], work := TpcWork.idle }
    held := []
    inputs := .request bytes :: s.inputs }

/-- The table entry with these bytes is the next thing that happens: INIT_ROM holds it, then a terminator, and DSQ stands
at offset 0. -/
def State.placeEntry (bytes : List Byte) (s : State) : State :=
  { s with
    cfg := { s.cfg with initTable := bytes ++ [0x00#8] }
    dsq := { s.dsq with busy := true, run := [.table 0] } }

/-- The instruction whose bits are `w` is the next thing that happens. -/
def State.placeWord (nbits w : Nat) (s : State) : State :=
  if wordIsRequest nbits w then s.placeRequest (wordInstrBytes nbits w) else s.placeEntry (wordInstrBytes nbits w)

end Sys2Proof.Machine
end

