-- ==== Sys2Proof/Machine/Step.lean ====
section
/-!
DEFINITION. One step of the machine, and the host's way to place an instruction where the step takes its next one.
-/
namespace Sys2Proof.Machine

/-- One step: what `State.fetch` says happens next; an instruction is performed by `exec`. -/
def step (s : State) : Host.Outcome State Fault Refusal :=
  match s.fetch with
  | .run i s' => exec i s'
  | .moved s' => .next s'
  | .stop f => .fault f
  | .reject r => .refused r

/-- The state with the instruction whose bits are `w` placed where the step takes its next instruction. -/
def State.withFetchWord (s : State) (nbits w : Nat) : State := s.placeWord nbits w

end Sys2Proof.Machine
end

