-- ==== Sys2Proof/Machine/Panel.lean ====
section
/-!
DEFINITION. The reference panel model of 60_exceptions.md R131: what the panel shows, computed from the display-bus
trace. It is "used by the observation" and "not part of the block", so it is a function of the trace and no field of
State. A cell's number is `y·240 + x`. GRAM is a list of (cell, colour), cells strictly rising; a cell that is not listed
is `unspecified` (notes/assumptions/14.md).
-/
namespace Sys2Proof.Machine

/-- What the panel does with the next data bytes. -/
inductive PanelMode where
  /-- Data here is outside a stream or address-set (R131 (d)). -/
  | idle
  /-- After `C(CMD_CASET)`. -/
  | caset
  /-- After `C(CMD_PASET)`. -/
  | paset
  /-- After `C(CMD_RAMWR)`: the next pixel's index, and the bytes of it that have arrived. -/
  | stream (k : Nat) (part : List Byte)
deriving DecidableEq, Repr

/-- The panel. -/
structure Panel where
  gram : List (Nat × Colour)
  cols : Option (Nat × Nat)
  pages : Option (Nat × Nat)
  mode : PanelMode
deriving DecidableEq, Repr

/-- At power-up every cell is unspecified (R131 (a)). -/
def Panel.powerUp : Panel := { gram := [], cols := none, pages := none, mode := .idle }

/-- GRAM's canonical form: cells strictly rising. -/
abbrev gramWf (gram : List (Nat × Colour)) : Prop := (gram.map Prod.fst).Pairwise (· < ·)

/-- One cell written, the rest as it was. -/
def gramWrite (cell : Nat) (v : Colour) : List (Nat × Colour) → List (Nat × Colour)
  | [] => [(cell, v)]
  | (k, w) :: rest =>
    if cell < k then (cell, v) :: (k, w) :: rest
    else if cell = k then (cell, v) :: rest
    else (k, w) :: gramWrite cell v rest

/-- One cell made unspecified, the rest as it was. -/
def gramErase (cell : Nat) (gram : List (Nat × Colour)) : List (Nat × Colour) :=
  gram.filter fun e => decide (e.1 ≠ cell)

/-- What a cell shows: nothing when it is unspecified. -/
def gramRead (cell : Nat) (gram : List (Nat × Colour)) : Option Colour :=
  (gram.find? fun e => decide (e.1 = cell)).map Prod.snd

/-- Every cell unspecified, the ranges and the mode kept. -/
def Panel.blur (p : Panel) : Panel := { p with gram := [] }

/-- The cell number of pixel `k` of the stream, if it falls inside the window and on the panel (R131 (c), (d)).
DESIGN CHOICE (safe, notes/assumptions/14.md): R131's formula is read for ranges with `cs ≤ ce + 1` and `ps ≤ pe + 1`. A
width or height that would be negative counts as 0, so after a reversed range, and after two of them too, where R131's
product would be positive, no pixel has a cell. -/
def Panel.pixelCell (p : Panel) (k : Nat) : Option Nat :=
  match p.cols, p.pages with
  | some (cs, ce), some (ps, pe) =>
    let w := ce + 1 - cs
    let x := cs + k % w
    let y := ps + k / w
    if k < w * (pe + 1 - ps) ∧ x < panelW ∧ y < panelH then some (y * panelW + x) else none
  | _, _ => none

/-- A complete pixel of the stream. One that falls nowhere known makes every cell unspecified. -/
def Panel.pixel (k : Nat) (v : Colour) (p : Panel) : Panel :=
  match p.pixelCell k with
  | some cell => { p with gram := gramWrite cell v p.gram }
  | none => p.blur

/-- A pixel of the stream whose bytes have not all arrived: what its cell shows is not known, and if it has no cell,
every cell is unspecified. -/
def Panel.spoil (k : Nat) (p : Panel) : Panel :=
  match p.pixelCell k with
  | some cell => { p with gram := gramErase cell p.gram }
  | none => p.blur

/-- The bytes of a stream: every third completes a pixel. DESIGN CHOICE (safe, notes/assumptions/14.md): R131 does not say
what a cell shows while its pixel is incomplete, or after a command cut the stream off inside it (R86 admits any number
of bytes); from the first byte of a pixel until its third, its cell is unspecified here, and a pixel past the window
makes every cell unspecified from its first byte on. -/
def Panel.streamBytes : List Byte → Nat → List Byte → Panel → Panel
  | [], k, [], p => { p with mode := .stream k [] }
  | [], k, b :: part, p => { p.spoil k with mode := .stream k (b :: part) }
  | b :: bs, k, [r, g], p => Panel.streamBytes bs (k + 1) [] (p.pixel k (rgb r g b))
  | b :: bs, k, part, p => Panel.streamBytes bs k (part ++ [b]) p

/-- The range an address-set carries. -/
def rangeOf (a b c d : Byte) : Nat × Nat := ((be16 a b).toNat, (be16 c d).toNat)

/-- A command the environment took (R131 (b), (c), (e)). -/
def Panel.command (c : Config) (b : Byte) (p : Panel) : Panel :=
  if b = c.cmdSwreset then { p.blur with mode := .idle }
  else if b = c.cmdCaset then { p with mode := .caset }
  else if b = c.cmdPaset then { p with mode := .paset }
  else if b = c.cmdRamwr then { p with mode := .stream 0 [] }
  else { p.blur with mode := .idle }

/-- Data the environment took (R131 (b), (c), (d)). -/
def Panel.takeData (s : List Byte) (p : Panel) : Panel :=
  match p.mode, s with
  | .caset, [a, b, c, d] => { p with cols := some (rangeOf a b c d), mode := .idle }
  | .paset, [a, b, c, d] => { p with pages := some (rangeOf a b c d), mode := .idle }
  | .stream k part, s => Panel.streamBytes s k part p
  | _, _ => { p.blur with mode := .idle }

/-- One item of the display-bus trace. After a FAIL nothing is known of the panel (R131 (a)). -/
def Panel.item (c : Config) (p : Panel) : DispItem → Panel
  | .cmd b .ok => p.command c b
  | .data s .ok => p.takeData s
  | .cmd _ .fail => Panel.powerUp
  | .data _ .fail => Panel.powerUp
  | .wait _ => p

/-- What the panel shows after a display-bus trace that began at power-up. -/
def panelAfter (c : Config) (trace : List DispItem) : Panel := trace.foldl (Panel.item c) Panel.powerUp

/-- `GRAM[x][y]`: nothing when it is unspecified or off the panel. -/
def Panel.cell (x y : Nat) (p : Panel) : Option Colour :=
  if x < panelW ∧ y < panelH then gramRead (y * panelW + x) p.gram else none

end Sys2Proof.Machine
end

