-- ==== Sys2Proof/Safety.lean ====
section
/-!
DEFINITION. The terms claims use: when a run has ended and when a step is safe, the invariant of the machine, and the bus
traffic the spec's rules give a completed or failed operation, written from the rules and not from the machine's lines.
-/
namespace Sys2Proof.Machine

/-! ### Runs -/

/-- A run has ended: the outside world has nothing more to do, both units are idle and nothing is held (R151).
DESIGN CHOICE (unsafe for a claim that rests on it; none here does; notes/assumptions/23.md): R151 asks that no further
request is to come and does not say whether an answer, a read of the port or a power-on still to come keeps the run open;
here an input of any kind does. -/
abbrev State.runEnded (s : State) : Prop :=
  s.inputs = [] ∧ s.dsq.busy = false ∧ s.tpc.busy = false ∧ s.held = []

/-- The machine does not stop in this state. -/
def State.goesOn (s : State) : Prop := ∃ t, step s = .next t

/-- `n` steps of the machine, as long as it does not stop. -/
def State.steps : Nat → State → Host.Outcome State Fault Refusal
  | 0, s => .next s
  | n + 1, s =>
    match step s with
    | .next t => State.steps n t
    | .fault f => .fault f
    | .refused r => .refused r

/-- DSQ stands at a table offset: the step's next instruction comes from INIT_ROM (R15, R87). -/
def Dsq.atTable (d : Dsq) : Bool :=
  match d.run with
  | .table _ :: _ => true
  | _ => false

/-! ### The invariant -/

/-- A byte that is one of the ASCII codes of R24: `'0'`–`'9'` or `'A'`–`'F'`. -/
def isHexDigit (b : Byte) : Bool :=
  decide (0x30 ≤ b.toNat ∧ b.toNat ≤ 0x39) || decide (0x41 ≤ b.toNat ∧ b.toNat ≤ 0x46)

/-- A tag id as the block stores and outputs it: twelve uppercase hex digits (R24, R78). -/
abbrev isTagId (id : List Byte) : Prop := id.length = 12 ∧ id.all isHexDigit = true

/-- A line a running DSQ operation may hold: data transactions carry bytes (R42), an opened window fits the panel (R18),
the table offset is one the walk of R83 reaches, and a rejection is ERR_RANGE. -/
def DAct.legal (c : Config) : DAct → Bool
  | .data s => decide (s ≠ [])
  | .openWindow x y w h => windowOk x y w h
  | .table p => tableWellFormed (c.initTable.drop p)
  | .reject e => decide (e = .errRange)
  | .clearWinValid | .setPanelOk _ | .setBg _ | .needWindow | .cmd _ | .wait _ | .fill _ | .pixels .. => true

/-- Every data transaction of the display-bus trace carries at least one byte (R42). -/
def DispItem.legal : DispItem → Bool
  | .data s _ => decide (s ≠ [])
  | .cmd .. | .wait _ => true

/-- A read of the tag-bus trace returned at most the bytes asked for (R45). -/
def TagItem.legal : TagItem → Bool
  | .read _ n (.ok bytes) => decide (bytes.length ≤ n)
  | .read _ _ .fail | .write .. => true

/-- The window registers hold a window inside the panel (R18). -/
abbrev Dsq.windowLegal (d : Dsq) : Prop :=
  d.winX0.toNat ≤ d.winX1.toNat ∧ d.winX1.toNat < panelW ∧ d.winY0.toNat ≤ d.winY1.toNat ∧ d.winY1.toNat < panelH

/-- What every step keeps of DSQ: a legal window (R18), a legal status (R17), `BUSY = 0` exactly when nothing is left to do
(R16, R30), legal lines, a legal trace (R42). -/
abbrev Dsq.Inv (c : Config) (d : Dsq) : Prop :=
  d.windowLegal ∧ d.status ∈ [0x00#8, 0x01#8, 0x04#8, 0x05#8] ∧ (d.busy = false ↔ d.run = []) ∧
    d.run.all (DAct.legal c) = true ∧ d.trace.all DispItem.legal = true

/-- `LAST_LEN` and `LAST_TAG_ID` are in one of the two forms of R24. -/
abbrev Tpc.tagLegal (t : Tpc) : Prop :=
  (t.lastLen = 0#4 ∧ t.lastTagId = List.replicate 12 0x00#8) ∨ (t.lastLen = 12#4 ∧ isTagId t.lastTagId)

/-- What every step keeps of TPC: a legal stored tag (R24), a legal status (R23), `BUSY = 0` exactly when nothing is left
to do (R22, R30), no value of an operation kept after it (R30), a pending event with a tag id (R78), a legal trace
(R45). -/
abbrev Tpc.Inv (t : Tpc) : Prop :=
  t.tagLegal ∧ t.status ∈ [0x00#8, 0x02#8, 0x03#8] ∧ (t.busy = false ↔ t.run = []) ∧
    (t.busy = false → t.work = TpcWork.idle) ∧ (∀ r ∈ t.work.event, isTagId r.tagId) ∧
    t.trace.all TagItem.legal = true

/-- What every step keeps of the machine: a configuration the spec admits (R83), both units' invariants, and only
well-formed requests held (R149). -/
abbrev State.Inv (s : State) : Prop :=
  configOk s.cfg = true ∧ s.dsq.Inv s.cfg ∧ s.tpc.Inv ∧
    s.held.all (fun i => i.isRequest && i.wellFormed s.cfg) = true

/-! ### Display-bus traffic of the rules -/

/-- The five transactions of a window sequence, all answered OK (R89). -/
def winItems (c : Config) (x y w h : Nat) : List DispItem :=
  [.cmd c.cmdCaset .ok, .data (casetArgs x w) .ok, .cmd c.cmdPaset .ok, .data (pasetArgs y h) .ok, .cmd c.cmdRamwr .ok]

/-- `n` pixels of one colour, one transaction each, all answered OK (R91, PER_PIXEL). -/
def fillItems (n : Nat) (v : Colour) : List DispItem := List.replicate n (.data (pixelBytes v) .ok)

/-- A square block of one colour: a window and its fill (R97). -/
structure Block where
  x : Nat
  y : Nat
  side : Nat
  colour : Colour
deriving DecidableEq, Repr

/-- The traffic of one fill of `n` pixels, all answered OK: data transactions of whole pixels of the colour, at least one
each, `n` together; exactly one each under PER_PIXEL (R63, R91; notes/assumptions/9.md). -/
def isFillTraffic (f : FillFraming) (n : Nat) (v : Colour) (items : List DispItem) : Prop :=
  ∃ groups : List Nat, groups.sum = n ∧ (∀ g ∈ groups, 1 ≤ g) ∧ (f = .perPixel → ∀ g ∈ groups, g = 1) ∧
    items = groups.map fun g => .data (pixelRun g v) .ok

/-- The traffic of one block. -/
def Block.items (c : Config) (b : Block) : List DispItem :=
  winItems c b.x b.y b.side b.side ++ fillItems (b.side * b.side) b.colour

/-- The block fits the panel (R88). -/
def Block.fits (b : Block) : Bool := windowOk b.x b.y b.side b.side

/-- The blocks of one character, in drawing order: the box in the background colour, then one per set pixel; none for
`cp > 127` (R97). -/
def charBlocks (c : Config) (bg : Colour) (x y : Nat) (cp : Byte) (scale : Nat) (fg : Colour) : List Block :=
  if cp.toNat ≤ 127 then
    { x, y, side := 8 * scale, colour := bg } ::
      (paintedCells c cp).map fun rc => { x := x + rc.2 * scale, y := y + rc.1 * scale, side := scale, colour := fg }
  else []

/-- The blocks of a string: slot `i` at `x + i·8·scale` (R99, R100). -/
def stringBlocks (c : Config) (bg : Colour) (x y scale : Nat) (fg : Colour) (text : List Byte) : List Block :=
  (slotChars c.stringOrder text).zipIdx.flatMap fun ki => charBlocks c bg (x + ki.2 * 8 * scale) y ki.1 scale fg

/-- The traffic of a list of blocks. -/
def blocksItems (c : Config) (bs : List Block) : List DispItem := bs.flatMap (Block.items c)

/-- Blocks with the traffic of their fills: each block's window sequence, then its fill. -/
def drawnItems (c : Config) (drawn : List (Block × List DispItem)) : List DispItem :=
  drawn.flatMap fun bf => winItems c bf.1.x bf.1.y bf.1.side bf.1.side ++ bf.2

/-- These are the blocks in order, each with traffic its fill may have in the configured framing (R63, R97). -/
def isDrawing (c : Config) (blocks : List Block) (drawn : List (Block × List DispItem)) : Prop :=
  drawn.map Prod.fst = blocks ∧
    ∀ bf ∈ drawn, isFillTraffic c.fillFraming (bf.1.side * bf.1.side) bf.1.colour bf.2

/-- The blocks whose window sequence the first `k` transactions complete: those that write the window registers (R89,
R119 (3)). -/
def windowsOpened : Nat → List (Block × List DispItem) → List Block
  | _, [] => []
  | k, (b, fill) :: rest => if k < 5 then [] else b :: windowsOpened (k - 5 - fill.length) rest

/-- The window registers after the window of a block (R18). -/
def Dsq.setWindow (x y w h : Nat) (d : Dsq) : Dsq :=
  { d with
    winX0 := BitVec.ofNat 16 x, winY0 := BitVec.ofNat 16 y
    winX1 := BitVec.ofNat 16 (x + w - 1), winY1 := BitVec.ofNat 16 (y + h - 1) }

/-- The window registers after a list of blocks, each with its own window and fill: the last block's window, and
`WIN_VALID = 0`; no block leaves both as they were. -/
def Dsq.afterBlocks (bs : List Block) (d : Dsq) : Dsq :=
  match bs.getLast? with
  | some b => { d.setWindow b.x b.y b.side b.side with winValid := false }
  | none => d

/-- The traffic of one table entry, answered OK (R87). -/
def TableEntry.items (e : TableEntry) : List DispItem :=
  .cmd e.cmd .ok :: ((if e.args = [] then [] else [.data e.args .ok]) ++ (if e.delay then [.wait tEntryMs] else []))

/-- The traffic of DINIT, answered OK throughout: software reset, settle delay, the entries in table order (R87). -/
def dinitItems (c : Config) (entries : List TableEntry) : List DispItem :=
  [.cmd c.cmdSwreset .ok, .wait tSwresetMs] ++ entries.flatMap TableEntry.items

/-- How many of the items are transactions: the delays are not (R43). -/
def transactions : List DispItem → Nat
  | [] => 0
  | .cmd .. :: rest => transactions rest + 1
  | .data .. :: rest => transactions rest + 1
  | .wait _ :: rest => transactions rest

/-- The traffic up to and including the transaction after the first `k`, which the environment answers FAIL: nothing of
the operation comes after it (R119, R126). -/
def failAfter : Nat → List DispItem → List DispItem
  | _, [] => []
  | k, .wait ms :: rest => .wait ms :: failAfter k rest
  | 0, .cmd b _ :: _ => [.cmd b .fail]
  | 0, .data s _ :: _ => [.data s .fail]
  | k + 1, item :: rest => item :: failAfter k rest

/-- The data bytes of a stretch of display-bus trace, in order. -/
def dataBytes : List DispItem → List Byte
  | [] => []
  | .data s _ :: rest => s ++ dataBytes rest
  | .cmd .. :: rest => dataBytes rest
  | .wait _ :: rest => dataBytes rest

/-- The item is a data transaction answered OK. -/
def DispItem.isOkData : DispItem → Bool
  | .data _ .ok => true
  | .data _ .fail | .cmd .. | .wait _ => false

/-- DSQ after an operation that ended with this status. -/
def Dsq.ended (e : Status) (d : Dsq) : Dsq :=
  { d with status := e.code, busy := false, run := [], responses := d.responses ++ [[e.code]] }

/-- DSQ after a display-bus failure: as R120 says, the operation ended with ERR_DBUS. -/
def Dsq.endedFailed (d : Dsq) : Dsq := { d with winValid := false, panelOk := false }.ended .errDbus

/-- DSQ with further traffic on its bus, and the answers left after it. -/
def Dsq.traffic (items : List DispItem) (as : List DispAnswer) (d : Dsq) : Dsq :=
  { d with trace := d.trace ++ items, answers := as }

/-- DSQ after drawing these blocks, every transaction answered OK; `draws` is the model's counter of group sizes. -/
def Dsq.drew (c : Config) (drawn : List (Block × List DispItem)) (draws : Nat) (as : List DispAnswer) (d : Dsq) : Dsq :=
  ({ d with groupDraws := draws }.traffic (drawnItems c drawn) as).afterBlocks (drawn.map Prod.fst)

/-- DSQ after drawing these blocks up to the transaction after the first `k`, which failed: the operation ended with
ERR_DBUS, the windows completed before it standing in the window registers (R119, R120). -/
def Dsq.drewUntilFailure (c : Config) (drawn : List (Block × List DispItem)) (k draws : Nat) (as : List DispAnswer)
    (d : Dsq) : Dsq :=
  (({ d with groupDraws := draws }.traffic (failAfter k (drawnItems c drawn)) as).afterBlocks
    (windowsOpened k drawn)).endedFailed

/-! ### Tag-bus traffic of the rules -/

/-- The register phase of a poll, acknowledged: one write without a stop where TAG_BLOCK_REG names a register, else
nothing (R76, R113). -/
def registerPhase (c : Config) : List TagItem :=
  match c.tagBlockReg with
  | some r => [.write c.rfidAddr [r] false .ack]
  | none => []

/-- TPC after an operation that ended with this response, whose first byte is the status (R67, R119). -/
def Tpc.ended (e : Status) (results : List Byte) (t : Tpc) : Tpc :=
  { t with
    status := e.code, busy := false, run := [], work := TpcWork.idle
    responses := t.responses ++ [e.code :: results] }

/-- TPC with further traffic on its bus, and the answers left after it. -/
def Tpc.traffic (items : List TagItem) (ws : List WriteAnswer) (rs : List ReadAnswer) (t : Tpc) : Tpc :=
  { t with trace := t.trace ++ items, writeAnswers := ws, readAnswers := rs }

/-- The stored tag and the event of a poll whose block read returned these bytes (R110, R111, R113). -/
def Tpc.pollStored (c : Config) (bytes : List Byte) (t : Tpc) : Tpc :=
  t.storeTag (dedup c.emptyReadPolicy t.tagString (decodeBlock bytes).tagId).1

/-- The event of that poll (R111, R113). -/
def pollEvent (c : Config) (bytes : List Byte) (t : Tpc) : Option TagRecord :=
  if (dedup c.emptyReadPolicy t.tagString (decodeBlock bytes).tagId).2 then some (decodeBlock bytes) else none

/-- The status of a poll whose block and clear succeeded: DECODE_EMPTY for a short block, else OK (R113). -/
def pollStatus (bytes : List Byte) : Status :=
  if (decodeBlock bytes).tagId = [] then .decodeEmpty else .ok

/-- Whether each poll of a sequence with these candidates emits, from this stored id on (R111, R115). -/
def pollEmits (policy : EmptyReadPolicy) : List Byte → List (List Byte) → List Bool
  | _, [] => []
  | last, cand :: rest => (dedup policy last cand).2 :: pollEmits policy (dedup policy last cand).1 rest

end Sys2Proof.Machine
end

