-- ==== Sys2Proof/Certificates/Slice0/Obligations.lean ====
section
/-!
DEFINITION. The statements for the provers. Each says what a numbered rule of spec/ says, or what sections of it together
say; OBLIGATIONS.json lists them with their rules. Statements about every state hold for every configuration in `cfg`
(notes/assumptions/1.md), every answer list (log 2) and every value of the free values (logs 8, 9).
-/
open Sys2Proof Sys2Proof.Machine

/-! ### Encoding -/

/-- Request and entry words written out from R66 and R69–R71, one or more per family. -/
def Obligations.SampleWordsDecode : Prop :=
  decodeRequest [0x01#8] = .ok .dinit ∧
  decodeRequest [0x02#8, 0x29#8] = .ok (.dcmd 0x29#8) ∧
  decodeRequest [0x04#8, 0x00#8, 0x0A#8, 0x01#8, 0x2C#8, 0x00#8, 0x05#8, 0x00#8, 0x14#8] =
    .ok (.dwin 10#16 300#16 5#16 20#16) ∧
  decodeRequest [0x08#8, 0x00#8, 0xE8#8, 0x00#8, 0x00#8, 0x01#8, 0x00#8, 0x00#8, 0x00#8, 0x02#8, 0x42#8, 0x80#8] =
    .ok (.dstr 232#16 0#16 1#8 0#8 0#8 0#8 [0x42#8, 0x80#8]) ∧
  decodeRequest [0x14#8, 0x28#8, 0x01#8, 0x0F#8] = .ok (.rwrite 0x28#7 0x01#8 0x0F#8) ∧
  decodeEntry [0xEF#8, 0x02#8, 0x01#8, 0x02#8, 0x00#8] = .ok (.initEntry 0xEF#8 false [0x01#8, 0x02#8], [0x00#8])

/-- Decoding an encoded request gives it back, every operand at every value R66 admits. -/
def Obligations.EncodedRequestDecodes : Prop :=
  ∀ i : Instr, i.isRequest = true → i.encodable = true → decodeRequest (encode i) = .ok i

/-- Decoding an encoded table entry gives it back, whatever follows it in the ROM. -/
def Obligations.EncodedEntryDecodes : Prop :=
  ∀ (i : Instr) (rest : List Byte), i.isRequest = false → i.encodable = true →
    decodeEntry (encode i ++ rest) = .ok (i, rest)

/-- A request that is accepted has no second reading: its bytes are the encoding of what it decodes to. -/
def Obligations.AcceptedRequestIsItsEncoding : Prop :=
  ∀ (bytes : List Byte) (i : Instr), decodeRequest bytes = .ok i →
    encode i = bytes ∧ i.isRequest = true ∧ i.encodable = true

/-- R69–R71: `[cmd][len_byte][args...]` with bit 7 the delay flag and bits 6..0 the argument count; 0x00 in command
position ends the table and consumes no length byte. -/
def Obligations.TableEntryLayout : Prop :=
  (∀ (cmd lb : Byte) (args rest : List Byte), cmd ≠ 0x00#8 → args.length = lb.toNat % 128 →
    decodeEntry (cmd :: lb :: (args ++ rest)) = .ok (.initEntry cmd (lb.getLsbD 7) args, rest)) ∧
  ∀ rest : List Byte, decodeEntry (0x00#8 :: rest) = .ok (.initEnd, rest)

/-- R68: the unassigned operation codes, whatever follows them. -/
def Obligations.UnassignedOpCodeRejected : Prop :=
  ∀ (op : Byte) (args : List Byte),
    (op = 0x00#8 ∨ (0x09 ≤ op.toNat ∧ op.toNat ≤ 0x0F) ∨ 0x16 ≤ op.toNat) →
    decodeRequest (op :: args) = .error (.badOp op)

/-! ### The step -/

/-- A request at the head of the inputs that decodes is performed: the step is exec of it, the input taken. -/
def Obligations.StepPerformsDecodedRequest : Prop :=
  ∀ (s : State) (bytes : List Byte) (rest : List Input) (i : Instr),
    configOk s.cfg = true → s.dsq.atTable = false → s.eligible = [] → s.inputs = .request bytes :: rest →
    decodeRequest bytes = .ok i → step s = exec i { s with inputs := rest }

/-- R68, R123: a request that does not decode, or that is beyond MAX_DATA_LEN or MAX_TEXT_LEN, is answered `[0x06]` by the
port, whether or not the addressed unit is busy, and changes nothing else. -/
def Obligations.RefusedRequestChangesNothing : Prop :=
  (∀ (s : State) (bytes : List Byte) (rest : List Input) (why : Reject),
    configOk s.cfg = true → s.dsq.atTable = false → s.eligible = [] → s.inputs = .request bytes :: rest →
    decodeRequest bytes = .error why →
    step s = .next { s with inputs := rest, portResponses := s.portResponses ++ [[0x06#8]] }) ∧
  ∀ (i : Instr) (s : State), configOk s.cfg = true → i.isRequest = true → i.wellFormed s.cfg = false →
    exec i s = .next { s with portResponses := s.portResponses ++ [[0x06#8]] }

/-- R72, R87: while DSQ stands at the table offset `p`, the step performs the entry INIT_ROM holds there; at an offset
where no whole entry stands, a read R37 gives no value, it faults by name. -/
def Obligations.StepPerformsTableEntry : Prop :=
  (∀ (s : State) (p : Nat) (lines : List DAct) (i : Instr) (rest : List Byte),
    configOk s.cfg = true → s.dsq.run = .table p :: lines →
    decodeEntry (s.cfg.initTable.drop p) = .ok (i, rest) → step s = exec i s) ∧
  ∀ (s : State) (p : Nat) (lines : List DAct) (why : Reject),
    configOk s.cfg = true → s.dsq.run = .table p :: lines →
    decodeEntry (s.cfg.initTable.drop p) = .error why → step s = .fault .initRomOverrun

/-- R71, R87: a table entry has an effect only in DINIT's replay: while DSQ does not stand at a table offset, both forms
are refused by name, and so is an entry R70 and R71 give no encoding. -/
def Obligations.TableEntryOutsideReplayRefused : Prop :=
  (∀ (s : State) (cmd : Byte) (delay : Bool) (args : List Byte), s.dsq.atTable = false →
    exec (.initEntry cmd delay args) s = .refused .notReplaying ∧ exec .initEnd s = .refused .notReplaying) ∧
  ∀ (s : State) (cmd : Byte) (delay : Bool) (args : List Byte),
    (Instr.initEntry cmd delay args).encodable = false →
    exec (.initEntry cmd delay args) s = .refused .notReplaying

/-- R125, R149: when a unit is idle and requests are held for it, one of them is accepted; the statement holds whichever
the free choice names. -/
def Obligations.StepAcceptsHeldRequest : Prop :=
  ∀ s : State, configOk s.cfg = true → s.dsq.atTable = false → s.eligible ≠ [] →
    ∃ i ∈ s.held, s.unitBusy i.unit = false ∧
      step s = exec i { s with held := s.held.erase i, holdDraws := s.holdDraws + 1 }

/-- R136, R138: with no input left and nothing to accept, the machine waits, busy or idle, for ever. -/
def Obligations.StepWaitsWithoutInput : Prop :=
  ∀ s : State, configOk s.cfg = true → s.dsq.atTable = false → s.eligible = [] → s.inputs = [] →
    step s = .next s

/-- R41, R57: an answer of the display environment reaches the waiting operation, which goes on from its position. -/
def Obligations.StepDeliversAnswers : Prop :=
  (∀ (s : State) (a : DispAnswer) (rest : List Input),
    configOk s.cfg = true → s.dsq.atTable = false → s.eligible = [] → s.inputs = .dispAnswer a :: rest →
    step s = .next { s with
      inputs := rest, dsq := Dsq.resume s.cfg { s.dsq with answers := s.dsq.answers ++ [a] } }) ∧
  (∀ (s : State) (a : WriteAnswer) (rest : List Input),
    configOk s.cfg = true → s.dsq.atTable = false → s.eligible = [] → s.inputs = .tagWriteAnswer a :: rest →
    step s = .next { s with
      inputs := rest, tpc := Tpc.resume s.cfg { s.tpc with writeAnswers := s.tpc.writeAnswers ++ [a] } }) ∧
  ∀ (s : State) (a : ReadAnswer) (rest : List Input),
    configOk s.cfg = true → s.dsq.atTable = false → s.eligible = [] → s.inputs = .tagReadAnswer a :: rest →
    step s = .next { s with
      inputs := rest, tpc := Tpc.resume s.cfg { s.tpc with readAnswers := s.tpc.readAnswers ++ [a] } }

/-- Under a configuration configOk does not admit, the step is refused and no DINIT runs. The table check alone is R83's
("refused as a configuration", D19); that the ranges of R6 and R28 are checked too, and that the whole step is refused,
is the model's choice (DESIGN CHOICE, notes/assumptions/10.md). -/
def Obligations.IllFormedConfigRefused : Prop :=
  ∀ s : State, configOk s.cfg = false →
    step s = .refused .illFormedConfig ∧ exec .dinit s = .refused .illFormedConfig

/-- R149: a well-formed request to a busy unit is held, and nothing else changes. -/
def Obligations.BusyUnitHoldsRequest : Prop :=
  ∀ (i : Instr) (s : State), configOk s.cfg = true → i.isRequest = true → i.wellFormed s.cfg = true →
    s.unitBusy i.unit = true → exec i s = .next { s with held := s.held ++ [i] }

/-- The invariant is kept by every step, and a step from a state that meets it never stops. -/
def Obligations.StepKeepsInvariant : Prop :=
  ∀ s : State, s.Inv → ∃ t, step s = .next t ∧ t.Inv

/-- Reset meets the invariant under every configuration the model is built for. -/
def Obligations.ResetMeetsInvariant : Prop :=
  ∀ c : Config, configOk c = true → (State.resetWith c).Inv

/-- R29: no step changes the configuration. -/
def Obligations.StepKeepsConfig : Prop :=
  ∀ s t : State, step s = .next t → t.cfg = s.cfg

/-- R119: what a bus or a host has seen is never taken back: no step shortens or rewrites a trace or a list of
responses. -/
def Obligations.StepExtendsHistory : Prop :=
  ∀ s t : State, step s = .next t →
    s.dsq.trace <+: t.dsq.trace ∧ s.tpc.trace <+: t.tpc.trace ∧ s.dsq.responses <+: t.dsq.responses ∧
      s.tpc.responses <+: t.tpc.responses ∧ s.portResponses <+: t.portResponses ∧ s.portReads <+: t.portReads

/-- R2: an instruction of one unit neither reads nor writes the other: whatever the other unit's state, the instruction
does the same to the rest and leaves that state as it was. -/
def Obligations.UnitsShareNoState : Prop :=
  (∀ (i : Instr) (s t : State) (d : Dsq), i.unit = .tpc → exec i s = .next t →
    exec i { s with dsq := d } = .next { t with dsq := d }) ∧
  ∀ (i : Instr) (s t : State) (u : Tpc), i.unit = .dsq → exec i s = .next t →
    exec i { s with tpc := u } = .next { t with tpc := u }

/-- R33, the write matrix over all instructions, host requests and table entries (INIT_END where it is all that is left of
DINIT, as the replay of R87 has it): who can change the background, the window registers, WIN_VALID, PANEL_OK and the
stored tag; a display-bus failure shows in STATUS. WIN_VALID becomes 1 by a window sequence only (R19). -/
def Obligations.RegisterWriteMatrix : Prop :=
  ∀ (i : Instr) (s t : State), (i = .initEnd → ∃ p, s.dsq.run = [.table p]) → exec i s = .next t →
    ((∀ r g b, i ≠ .dbgset r g b) → t.dsq.bgColor = s.dsq.bgColor) ∧
    (i ≠ .dinit → i ≠ .initEnd →
      t.dsq.panelOk = s.dsq.panelOk ∨ (t.dsq.panelOk = false ∧ t.dsq.status = 0x01#8)) ∧
    ((∀ x y w h, i ≠ .dwin x y w h) → (∀ x y cp sc r g b, i ≠ .dchar x y cp sc r g b) →
      (∀ x y sc r g b text, i ≠ .dstr x y sc r g b text) →
      t.dsq.winX0 = s.dsq.winX0 ∧ t.dsq.winY0 = s.dsq.winY0 ∧ t.dsq.winX1 = s.dsq.winX1 ∧ t.dsq.winY1 = s.dsq.winY1 ∧
        (t.dsq.winValid = true → s.dsq.winValid = true)) ∧
    ((∃ r g b, i = .dbgset r g b) ∨ i = .initEnd ∨ i.unit = .tpc → t.dsq.winValid = s.dsq.winValid) ∧
    ((∃ cmd delay args, i = .initEntry cmd delay args) →
      t.dsq.winValid = s.dsq.winValid ∨ (t.dsq.winValid = false ∧ t.dsq.status = 0x01#8)) ∧
    (i ≠ .rpoll → t.tpc.lastLen = s.tpc.lastLen ∧ t.tpc.lastTagId = s.tpc.lastTagId)

/-- R41, R57, R72, R87: DSQ reaches the same state whether an answer is there from the start or arrives while it waits.
First the lines of an operation, as far as a table offset. Then lines with DINIT's loop over the table behind them: all of
DINIT's, and what a DINIT that waits has left. Last the loop itself: the steps that perform the entries one by one lead
where the loop leads, DSQ idle or waiting for an answer. -/
def Obligations.DisplayAnswerMayComeLater : Prop :=
  (∀ (c : Config) (lines : List DAct) (d : Dsq) (a : DispAnswer),
    Dsq.go c lines { d with answers := d.answers ++ [a] } =
      Dsq.resume c { Dsq.go c lines d with answers := (Dsq.go c lines d).answers ++ [a] }) ∧
  (∀ (c : Config) (lines : List DAct) (p : Nat) (d : Dsq) (a : DispAnswer), (∀ q, .table q ∉ lines) →
    let replayed := fun d => Dsq.replay c c.initTable.length d
    let waiting := replayed (Dsq.go c (lines ++ [.table p]) d)
    replayed (Dsq.go c (lines ++ [.table p]) { d with answers := d.answers ++ [a] }) =
      replayed (Dsq.resume c { waiting with answers := waiting.answers ++ [a] })) ∧
  ∀ (s : State) (p : Nat), configOk s.cfg = true → tableWellFormed (s.cfg.initTable.drop p) = true →
    s.dsq.run = [.table p] →
    let d := Dsq.replay s.cfg s.cfg.initTable.length s.dsq
    d.atTable = false ∧ ∃ n ≤ s.cfg.initTable.length, s.steps n = .next { s with dsq := d }

/-- R41, R57: the same for the two kinds of answers on the tag bus. -/
def Obligations.TagAnswerMayComeLater : Prop :=
  ∀ (c : Config) (lines : List TAct) (t : Tpc),
    (∀ a : WriteAnswer, Tpc.go c lines { t with writeAnswers := t.writeAnswers ++ [a] } =
      Tpc.resume c { Tpc.go c lines t with writeAnswers := (Tpc.go c lines t).writeAnswers ++ [a] }) ∧
    ∀ a : ReadAnswer, Tpc.go c lines { t with readAnswers := t.readAnswers ++ [a] } =
      Tpc.resume c { Tpc.go c lines t with readAnswers := (Tpc.go c lines t).readAnswers ++ [a] }

/-- R67, R116, R119: a request an idle unit accepts either ends with exactly one response, whose first byte is the unit's
STATUS (all of it, in DSQ), or leaves the unit busy with its STATUS and responses as they were. The codes STATUS can hold
are those of R117. -/
def Obligations.DisplayRequestAnsweredOnce : Prop :=
  (∀ (i : Instr) (s t : State), i.isRequest = true → i.unit = .dsq → i.wellFormed s.cfg = true →
    s.dsq.busy = false → exec i s = .next t →
    (t.dsq.busy = false ∧ t.dsq.run = [] ∧ t.dsq.responses = s.dsq.responses ++ [[t.dsq.status]]) ∨
    (t.dsq.busy = true ∧ t.dsq.run ≠ [] ∧ t.dsq.responses = s.dsq.responses ∧ t.dsq.status = s.dsq.status)) ∧
  (∀ (i : Instr) (s t : State), i.isRequest = true → i.unit = .tpc → i.wellFormed s.cfg = true →
    s.tpc.busy = false → exec i s = .next t →
    (t.tpc.busy = false ∧ t.tpc.run = [] ∧
      ∃ results, t.tpc.responses = s.tpc.responses ++ [t.tpc.status :: results]) ∨
    (t.tpc.busy = true ∧ t.tpc.run ≠ [] ∧ t.tpc.responses = s.tpc.responses ∧ t.tpc.status = s.tpc.status)) ∧
  Status.ok.code = 0x00#8 ∧ Status.errDbus.code = 0x01#8 ∧ Status.errRbus.code = 0x02#8 ∧
  Status.decodeEmpty.code = 0x03#8 ∧ Status.errRange.code = 0x04#8 ∧ Status.errNoWindow.code = 0x05#8 ∧
  Status.errBadop.code = 0x06#8

/-! ### DisplayLink -/

/-- R85: DCMD on an idle unit, with either answer. -/
def Obligations.DcmdSendsOneCommand : Prop :=
  ∀ (s : State) (b : Byte) (rest : List DispAnswer), s.dsq.busy = false →
    (s.dsq.answers = .ok :: rest →
      exec (.dcmd b) s =
        .next { s with dsq := ({ s.dsq with winValid := false }.traffic [.cmd b .ok] rest).ended .ok }) ∧
    (s.dsq.answers = .fail :: rest →
      exec (.dcmd b) s = .next { s with dsq := (s.dsq.traffic [.cmd b .fail] rest).endedFailed })

/-- R86: DDATA on an idle unit: nothing for `n = 0`, else one data transaction, with either answer. -/
def Obligations.DdataSendsOneTransaction : Prop :=
  ∀ (s : State) (bytes : List Byte) (rest : List DispAnswer), s.dsq.busy = false →
    (Instr.ddata bytes).wellFormed s.cfg = true →
    (bytes = [] → exec (.ddata bytes) s = .next { s with dsq := { s.dsq with winValid := false }.ended .ok }) ∧
    (bytes ≠ [] → s.dsq.answers = .ok :: rest →
      exec (.ddata bytes) s =
        .next { s with dsq := ({ s.dsq with winValid := false }.traffic [.data bytes .ok] rest).ended .ok }) ∧
    (bytes ≠ [] → s.dsq.answers = .fail :: rest →
      exec (.ddata bytes) s = .next { s with dsq := (s.dsq.traffic [.data bytes .fail] rest).endedFailed })

/-- R136: a transaction the environment does not answer stops the operation where it is: the unit stays busy, sends no
response, and the transaction stays the next thing to do. The first two clauses say so of every line that issues a
transaction, wherever it stands in an operation, the last two of requests to an idle unit. That the unanswered transaction
is not yet in the trace (each clause leaves the trace as it was) is the model's choice (DEDUCED, unsafe for just this
claim, notes/assumptions/5.md), not R136's. -/
def Obligations.UnansweredTransactionHangs : Prop :=
  (∀ (c : Config) (d : Dsq) (rest : List DAct), d.answers = [] →
    (∀ b, Dsq.go c (.cmd b :: rest) d = { d with run := .cmd b :: rest }) ∧
    (∀ bytes, Dsq.go c (.data bytes :: rest) d = { d with run := .data bytes :: rest }) ∧
    (∀ v n, 0 < n → n = extent d.winX0 d.winX1 * extent d.winY0 d.winY1 →
      Dsq.go c (.fill v :: rest) d = { d with run := .pixels n v :: rest }) ∧
    ∀ v n, 0 < n → Dsq.go c (.pixels n v :: rest) d = { d with run := .pixels n v :: rest }) ∧
  (∀ (c : Config) (t : Tpc) (rest : List TAct),
    (t.writeAnswers = [] → ∀ a,
      (∀ bytes stop, Tpc.go c (.write a bytes stop :: rest) t = { t with run := .write a bytes stop :: rest }) ∧
      Tpc.go c (.probe a :: rest) t = { t with run := .probe a :: rest }) ∧
    (t.readAnswers = [] → (∀ a, Tpc.go c (.readReg a :: rest) t = { t with run := .readReg a :: rest }) ∧
      Tpc.go c (.readBlock :: rest) t = { t with run := .readBlock :: rest } ∧
      Tpc.go c (.drain :: rest) t = { t with run := .drain :: rest })) ∧
  (∀ s : State, s.dsq.busy = false →
    (s.dsq.answers = [] →
      (∀ b, exec (.dcmd b) s =
        .next { s with dsq := { s.dsq with busy := true, winValid := false, run := [.cmd b] } }) ∧
      (∀ bytes, bytes ≠ [] → (Instr.ddata bytes).wellFormed s.cfg = true → exec (.ddata bytes) s =
        .next { s with dsq := { s.dsq with busy := true, winValid := false, run := [.data bytes] } }) ∧
      (configOk s.cfg = true → exec .dinit s = .next { s with dsq := { s.dsq with
        busy := true, winValid := false, panelOk := false
        run := [.cmd s.cfg.cmdSwreset, .wait 150, .table 0] } })) ∧
    ∀ (r g b : Byte) (k n : Nat), s.cfg.fillFraming = .perPixel → s.dsq.winValid = true → k < n →
      n = extent s.dsq.winX0 s.dsq.winX1 * extent s.dsq.winY0 s.dsq.winY1 → s.dsq.answers = List.replicate k .ok →
      exec (.dfill r g b) s = .next { s with
        dsq := { s.dsq.traffic (fillItems k (rgb r g b)) [] with
          busy := true, winValid := false, run := [.pixels (n - k) (rgb r g b)] } }) ∧
  ∀ s : State, s.tpc.busy = false →
    (s.tpc.writeAnswers = [] →
      (∀ a reg, exec (.rread a reg) s = .next { s with tpc := { s.tpc with
        busy := true, run := [.write a [reg] false, .readReg a], work := { TpcWork.idle with result := .value } } }) ∧
      (∀ a reg val, exec (.rwrite a reg val) s = .next { s with tpc := { s.tpc with
        busy := true, run := [.write a [reg, val] true], work := TpcWork.idle } }) ∧
      exec .rscan s = .next { s with tpc := { s.tpc with
        busy := true, run := (List.range 126).map fun k => .probe (BitVec.ofNat 7 (k + 1))
        work := { TpcWork.idle with result := .scan } } }) ∧
    (s.tpc.readAnswers = [] → s.cfg.tagBlockReg = none → exec .rpoll s = .next { s with tpc := { s.tpc with
      busy := true, run := [.readBlock, .write s.cfg.rfidAddr [s.cfg.clearReq] true, .drain]
      work := { TpcWork.idle with result := .poll } } })

/-- R84, R87: DINIT with every transaction answered OK sends the software reset, waits, replays exactly the parsed table
in order, and sets PANEL_OK. -/
def Obligations.DinitReplaysWholeTable : Prop :=
  ∀ (s : State) (entries : List TableEntry) (stop : Nat) (rest : List DispAnswer),
    configOk s.cfg = true → s.dsq.busy = false → parse s.cfg.initTable = some (entries, stop) →
    s.dsq.answers = List.replicate (transactions (dinitItems s.cfg entries)) .ok ++ rest →
    exec .dinit s = .next { s with
      dsq := ({ s.dsq with winValid := false, panelOk := true }.traffic (dinitItems s.cfg entries) rest).ended .ok }

/-- R87, R119, R120: DINIT stops at the first transaction answered FAIL; no later transaction or delay is issued and
PANEL_OK stays 0. -/
def Obligations.DinitStopsAtFirstFailure : Prop :=
  ∀ (s : State) (entries : List TableEntry) (stop k : Nat) (rest : List DispAnswer),
    configOk s.cfg = true → s.dsq.busy = false → parse s.cfg.initTable = some (entries, stop) →
    k < transactions (dinitItems s.cfg entries) → s.dsq.answers = List.replicate k .ok ++ .fail :: rest →
    exec .dinit s = .next { s with
      dsq := (s.dsq.traffic (failAfter k (dinitItems s.cfg entries)) rest).endedFailed }

/-- R70, R72, R87, R119, R120: INIT_ENTRY where DSQ stands at the offset `p`: its transactions and delay, then the offset
`p + 2 + n`; with a transaction answered FAIL, DINIT ends there with ERR_DBUS, and nothing of the table comes after it. -/
def Obligations.InitEntryAdvancesTable : Prop :=
  ∀ (s : State) (e : TableEntry) (p : Nat) (lines : List DAct) (rest : List DispAnswer),
    (Instr.initEntry e.cmd e.delay e.args).encodable = true → s.dsq.run = .table p :: lines →
    (s.dsq.answers = List.replicate (transactions e.items) .ok ++ rest →
      exec (.initEntry e.cmd e.delay e.args) s = .next { s with
        dsq := { s.dsq.traffic e.items rest with run := .table (p + 2 + e.args.length) :: lines } }) ∧
    ∀ k < transactions e.items, s.dsq.answers = List.replicate k .ok ++ .fail :: rest →
      exec (.initEntry e.cmd e.delay e.args) s =
        .next { s with dsq := (s.dsq.traffic (failAfter k e.items) rest).endedFailed }

/-- R71, R87: INIT_END where DSQ stands at a table offset ends DINIT: PANEL_OK, status OK, the response; no
transaction. -/
def Obligations.InitEndEndsReplay : Prop :=
  ∀ (s : State) (p : Nat), s.dsq.run = [.table p] →
    exec .initEnd s = .next { s with dsq := { s.dsq with panelOk := true }.ended .ok }

/-! ### FrameEncoder -/

/-- R88–R90: DWIN in range with five OK answers, out of range, and with a failure after `k` transactions. -/
def Obligations.DwinOpensWindow : Prop :=
  ∀ (s : State) (x y w h : Half) (rest : List DispAnswer), s.dsq.busy = false →
    (windowOk x.toNat y.toNat w.toNat h.toNat = true → s.dsq.answers = List.replicate 5 .ok ++ rest →
      exec (.dwin x y w h) s = .next { s with
        dsq := { (s.dsq.setWindow x.toNat y.toNat w.toNat h.toNat).traffic
          (winItems s.cfg x.toNat y.toNat w.toNat h.toNat) rest with winValid := true }.ended .ok }) ∧
    (windowOk x.toNat y.toNat w.toNat h.toNat = false →
      exec (.dwin x y w h) s = .next { s with dsq := s.dsq.ended .errRange }) ∧
    ∀ k < 5, windowOk x.toNat y.toNat w.toNat h.toNat = true →
      s.dsq.answers = List.replicate k .ok ++ .fail :: rest →
      exec (.dwin x y w h) s = .next { s with
        dsq := (s.dsq.traffic (failAfter k (winItems s.cfg x.toNat y.toNat w.toNat h.toNat)) rest).endedFailed }

/-- R47, R88: which windows are inside the panel, on exact integers; the argument bytes of a window are big-endian and
give back both ends of the range; the extent of the registers is the width again (R18). -/
def Obligations.WindowArgumentsBigEndian : Prop :=
  (∀ x y w h : Nat, windowOk x y w h = true ↔ 1 ≤ w ∧ 1 ≤ h ∧ x + w ≤ 240 ∧ y + h ≤ 320) ∧
  (∀ x w : Nat, 1 ≤ w → x + w ≤ 65536 →
    casetArgs x w = [BitVec.ofNat 8 (x / 256), BitVec.ofNat 8 (x % 256),
      BitVec.ofNat 8 ((x + w - 1) / 256), BitVec.ofNat 8 ((x + w - 1) % 256)] ∧
    pasetArgs x w = casetArgs x w) ∧
  ∀ first last : Half, first.toNat ≤ last.toNat → extent first last = last.toNat - first.toNat + 1

/-- R91, R92: DFILL on a primed window under PER_PIXEL, with every pixel answered OK and with a failure after `k` pixels;
without a window, in every framing; and in every framing with `k` OK answers and then FAIL: the fill is done with them or
stops at its transaction `k + 1`, of which the colour's whole pixels are known (R63). -/
def Obligations.DfillSendsEveryPixel : Prop :=
  ∀ (s : State) (r g b : Byte) (n : Nat) (rest : List DispAnswer), s.dsq.busy = false →
    n = extent s.dsq.winX0 s.dsq.winX1 * extent s.dsq.winY0 s.dsq.winY1 →
    (s.cfg.fillFraming = .perPixel → s.dsq.winValid = true → s.dsq.answers = List.replicate n .ok ++ rest →
      exec (.dfill r g b) s = .next { s with
        dsq := ({ s.dsq with winValid := false }.traffic (fillItems n (rgb r g b)) rest).ended .ok }) ∧
    (s.dsq.winValid = false → exec (.dfill r g b) s = .next { s with dsq := s.dsq.ended .errNoWindow }) ∧
    (∀ k < n, s.cfg.fillFraming = .perPixel → s.dsq.winValid = true →
      s.dsq.answers = List.replicate k .ok ++ .fail :: rest →
      exec (.dfill r g b) s = .next { s with
        dsq := (s.dsq.traffic (fillItems k (rgb r g b) ++ [.data [r, g, b] .fail]) rest).endedFailed }) ∧
    ∀ k : Nat, s.dsq.winValid = true → s.dsq.answers = List.replicate k .ok ++ .fail :: rest →
      ∃ (items : List DispItem) (draws : Nat), isFillTraffic s.cfg.fillFraming n (rgb r g b) items ∧
        ((items.length ≤ k ∧ exec (.dfill r g b) s = .next { s with
          dsq := ({ s.dsq with winValid := false, groupDraws := draws }.traffic items
            (List.replicate (k - items.length) DispAnswer.ok ++ DispAnswer.fail :: rest)).ended .ok }) ∨
         (k < items.length ∧ exec (.dfill r g b) s = .next { s with
          dsq := ({ s.dsq with groupDraws := draws }.traffic (failAfter k items) rest).endedFailed }))

/-- R63, R92, R93: in every framing, a DFILL on a primed window with an OK answer for every pixel ends OK having sent data
transactions only, each of whole pixels, whose bytes are r, g, b once per pixel; on a legal window these are
3·(x1 − x0 + 1)·(y1 − y0 + 1) bytes. -/
def Obligations.FillByteCountInEveryFraming : Prop :=
  ∀ (s : State) (r g b : Byte) (n m : Nat), s.dsq.busy = false → s.dsq.winValid = true →
    m = extent s.dsq.winX0 s.dsq.winX1 * extent s.dsq.winY0 s.dsq.winY1 → m ≤ n →
    s.dsq.answers = List.replicate n .ok →
    ∃ (items : List DispItem) (draws : Nat),
      exec (.dfill r g b) s = .next { s with
        dsq := ({ s.dsq with winValid := false, groupDraws := draws }.traffic items
          (List.replicate (n - items.length) .ok)).ended .ok } ∧
      isFillTraffic s.cfg.fillFraming m (rgb r g b) items ∧ items.all DispItem.isOkData = true ∧
      dataBytes items = (List.replicate m [r, g, b]).flatten ∧
      (s.dsq.windowLegal → (dataBytes items).length =
        3 * (s.dsq.winX1.toNat - s.dsq.winX0.toNat + 1) * (s.dsq.winY1.toNat - s.dsq.winY0.toNat + 1))

/-! ### GlyphRenderer -/

/-- R94–R97: `rev8` is its own inverse; a glyph's rows are its ROM entry's bytes, 0x00 where there is no entry; column
`col` is painted exactly when bit `col` of the stored byte is 1; the painted cells of a character are exactly the set
pixels, rows top to bottom and columns left to right within a row, none for a blank glyph. -/
def Obligations.PaintTestsStoredBit : Prop :=
  (∀ b : Byte, rev8 (rev8 b) = b) ∧ (∀ (b : Byte) (i : Nat), i ≤ 7 → (rev8 b).getLsbD i = b.getLsbD (7 - i)) ∧
  (∀ (c : Config) (cp : Byte) (rows : List Byte) (r : Nat), glyphRomWellFormed c.glyphRom = true →
    (cp, rows) ∈ c.glyphRom → r ≤ 7 → rows[r]? = some (glyph c cp r)) ∧
  (∀ (c : Config) (cp : Byte) (r : Nat), (∀ e ∈ c.glyphRom, e.1 ≠ cp) → glyph c cp r = 0x00#8) ∧
  (∀ (c : Config) (cp : Byte) (row col : Nat), col ≤ 7 → paint c cp row col = (glyph c cp row).getLsbD col) ∧
  ∀ (c : Config) (cp : Byte),
    (∀ row col : Nat, (row, col) ∈ paintedCells c cp ↔ row ≤ 7 ∧ col ≤ 7 ∧ (glyph c cp row).getLsbD col = true) ∧
    (paintedCells c cp).Pairwise (fun p q => p.1 < q.1 ∨ (p.1 = q.1 ∧ p.2 < q.2)) ∧
    ((∀ row ≤ 7, glyph c cp row = 0x00#8) → paintedCells c cp = [])

/-- R97: if the character's box fits the panel, so does every block of it. -/
def Obligations.BlocksFitWhenBoxFits : Prop :=
  ∀ (c : Config) (bg fg : Colour) (x y scale : Nat) (cp : Byte), windowOk x y (8 * scale) (8 * scale) = true →
    (charBlocks c bg x y cp scale fg).all Block.fits = true

/-- R97, R98: DCHAR of a codepoint up to 127 in a box that fits draws the box and then its blocks: the exact trace under
PER_PIXEL with every transaction answered OK; in every framing, with an OK answer for every pixel and window transaction,
the same blocks, each window followed by the traffic its fill may have (R63). -/
def Obligations.DcharDrawsBoxThenBlocks : Prop :=
  ∀ (s : State) (x y : Half) (cp scale r g b : Byte) (blocks : List Block),
    s.dsq.busy = false → windowOk x.toNat y.toNat (8 * scale.toNat) (8 * scale.toNat) = true →
    blocks = charBlocks s.cfg s.dsq.bgColor x.toNat y.toNat cp scale.toNat (rgb r g b) →
    (∀ rest : List DispAnswer, s.cfg.fillFraming = .perPixel →
      s.dsq.answers = List.replicate (transactions (blocksItems s.cfg blocks)) .ok ++ rest →
      exec (.dchar x y cp scale r g b) s = .next { s with
        dsq := ((s.dsq.traffic (blocksItems s.cfg blocks) rest).afterBlocks blocks).ended .ok }) ∧
    ∀ n : Nat, transactions (blocksItems s.cfg blocks) ≤ n → s.dsq.answers = List.replicate n .ok →
      ∃ (drawn : List (Block × List DispItem)) (draws : Nat), isDrawing s.cfg blocks drawn ∧
        exec (.dchar x y cp scale r g b) s = .next { s with
          dsq := (s.dsq.drew s.cfg drawn draws
            (List.replicate (n - transactions (drawnItems s.cfg drawn)) .ok)).ended .ok }

/-- R97, R98: DCHAR of a codepoint above 127 changes nothing but STATUS; one whose box does not fit ends ERR_RANGE before
any transaction. -/
def Obligations.DcharIssuesNothing : Prop :=
  ∀ (s : State) (x y : Half) (cp scale r g b : Byte), s.dsq.busy = false →
    (127 < cp.toNat → exec (.dchar x y cp scale r g b) s = .next { s with dsq := s.dsq.ended .ok }) ∧
    (cp.toNat ≤ 127 → windowOk x.toNat y.toNat (8 * scale.toNat) (8 * scale.toNat) = false →
      exec (.dchar x y cp scale r g b) s = .next { s with dsq := s.dsq.ended .errRange })

/-- R99: slot `i` shows `text[i]` (FORWARD) or `text[n − 1 − i]` (REVERSED), and there are as many slots as characters. -/
def Obligations.SlotShowsItsCharacter : Prop :=
  ∀ text : List Byte,
    (slotChars .forward text).length = text.length ∧ (slotChars .reversed text).length = text.length ∧
    ∀ i < text.length, (slotChars .forward text)[i]? = text[i]? ∧
      (slotChars .reversed text)[i]? = text[text.length - 1 - i]?

/-- R99, R100: DSTR whose every block fits draws its slots in order: the exact trace under PER_PIXEL with every
transaction answered OK; in every framing, with an OK answer for every pixel and window transaction, the same blocks,
each window followed by the traffic its fill may have (R63). -/
def Obligations.DstrDrawsEverySlot : Prop :=
  ∀ (s : State) (x y : Half) (scale r g b : Byte) (text : List Byte) (blocks : List Block),
    s.dsq.busy = false → (Instr.dstr x y scale r g b text).wellFormed s.cfg = true →
    blocks = stringBlocks s.cfg s.dsq.bgColor x.toNat y.toNat scale.toNat (rgb r g b) text →
    blocks.all Block.fits = true →
    (∀ rest : List DispAnswer, s.cfg.fillFraming = .perPixel →
      s.dsq.answers = List.replicate (transactions (blocksItems s.cfg blocks)) .ok ++ rest →
      exec (.dstr x y scale r g b text) s = .next { s with
        dsq := ((s.dsq.traffic (blocksItems s.cfg blocks) rest).afterBlocks blocks).ended .ok }) ∧
    ∀ n : Nat, transactions (blocksItems s.cfg blocks) ≤ n → s.dsq.answers = List.replicate n .ok →
      ∃ (drawn : List (Block × List DispItem)) (draws : Nat), isDrawing s.cfg blocks drawn ∧
        exec (.dstr x y scale r g b text) s = .next { s with
          dsq := (s.dsq.drew s.cfg drawn draws
            (List.replicate (n - transactions (drawnItems s.cfg drawn)) .ok)).ended .ok }

/-- R100: the first slot whose character is at most 127 and whose cell does not fit ends DSTR with ERR_RANGE: the
characters before it stay drawn, the rest are not drawn. The exact trace under PER_PIXEL; in every framing the blocks of
the characters before it, each window followed by the traffic its fill may have (R63). -/
def Obligations.DstrStopsAtFirstSlotOutOfRange : Prop :=
  ∀ (s : State) (x y : Half) (scale r g b : Byte) (text before after : List Byte) (cp : Byte) (blocks : List Block),
    s.dsq.busy = false → (Instr.dstr x y scale r g b text).wellFormed s.cfg = true →
    slotChars s.cfg.stringOrder text = before ++ cp :: after →
    blocks = before.zipIdx.flatMap (fun ki => charBlocks s.cfg s.dsq.bgColor (x.toNat + ki.2 * 8 * scale.toNat) y.toNat
      ki.1 scale.toNat (rgb r g b)) →
    blocks.all Block.fits = true → cp.toNat ≤ 127 →
    windowOk (x.toNat + before.length * 8 * scale.toNat) y.toNat (8 * scale.toNat) (8 * scale.toNat) = false →
    (∀ rest : List DispAnswer, s.cfg.fillFraming = .perPixel →
      s.dsq.answers = List.replicate (transactions (blocksItems s.cfg blocks)) .ok ++ rest →
      exec (.dstr x y scale r g b text) s = .next { s with
        dsq := ((s.dsq.traffic (blocksItems s.cfg blocks) rest).afterBlocks blocks).ended .errRange }) ∧
    ∀ n : Nat, transactions (blocksItems s.cfg blocks) ≤ n → s.dsq.answers = List.replicate n .ok →
      ∃ (drawn : List (Block × List DispItem)) (draws : Nat), isDrawing s.cfg blocks drawn ∧
        exec (.dstr x y scale r g b text) s = .next { s with
          dsq := (s.dsq.drew s.cfg drawn draws
            (List.replicate (n - transactions (drawnItems s.cfg drawn)) .ok)).ended .errRange }

/-- R98, R100, R119, R120: a display-bus failure ends DCHAR and DSTR with ERR_DBUS where they are: the traffic up to the
failing transaction, the windows completed before it in the window registers (R119 (3)), WIN_VALID and PANEL_OK 0.
DCHAR under PER_PIXEL failing at its transaction `k + 1`; then DCHAR in a box that fits, and DSTR, in every framing, with
`k` OK answers and then FAIL: the drawing is done with them or stops at its transaction `k + 1`. A DSTR ends `OK` if all
its slots fit, ERR_RANGE at the first drawn slot that does not (R100); `blocks` are those of the slots before that end. -/
def Obligations.DcharStopsAtFirstFailure : Prop :=
  (∀ (s : State) (x y : Half) (cp scale r g b : Byte) (blocks : List Block) (k : Nat) (rest : List DispAnswer),
    s.dsq.busy = false → windowOk x.toNat y.toNat (8 * scale.toNat) (8 * scale.toNat) = true →
    blocks = charBlocks s.cfg s.dsq.bgColor x.toNat y.toNat cp scale.toNat (rgb r g b) →
    s.dsq.answers = List.replicate k .ok ++ .fail :: rest →
    (s.cfg.fillFraming = .perPixel → k < transactions (blocksItems s.cfg blocks) →
      exec (.dchar x y cp scale r g b) s = .next { s with
        dsq := ((s.dsq.traffic (failAfter k (blocksItems s.cfg blocks)) rest).afterBlocks (windowsOpened k
          (blocks.map fun b => (b, fillItems (b.side * b.side) b.colour)))).endedFailed }) ∧
    ∃ (drawn : List (Block × List DispItem)) (draws : Nat), isDrawing s.cfg blocks drawn ∧
      ((transactions (drawnItems s.cfg drawn) ≤ k ∧ exec (.dchar x y cp scale r g b) s = .next { s with
        dsq := (s.dsq.drew s.cfg drawn draws (List.replicate (k - transactions (drawnItems s.cfg drawn)) DispAnswer.ok ++
          DispAnswer.fail :: rest)).ended .ok }) ∨
       (k < transactions (drawnItems s.cfg drawn) ∧ exec (.dchar x y cp scale r g b) s = .next { s with
        dsq := s.dsq.drewUntilFailure s.cfg drawn k draws rest }))) ∧
  ∀ (s : State) (x y : Half) (scale r g b : Byte) (text before after : List Byte) (blocks : List Block) (e : Status)
    (k : Nat) (rest : List DispAnswer),
    s.dsq.busy = false → (Instr.dstr x y scale r g b text).wellFormed s.cfg = true →
    slotChars s.cfg.stringOrder text = before ++ after →
    blocks = before.zipIdx.flatMap (fun ki => charBlocks s.cfg s.dsq.bgColor (x.toNat + ki.2 * 8 * scale.toNat) y.toNat
      ki.1 scale.toNat (rgb r g b)) →
    blocks.all Block.fits = true →
    ((after = [] ∧ e = .ok) ∨ ((∃ cp later, after = cp :: later ∧ cp.toNat ≤ 127) ∧ e = .errRange ∧
      windowOk (x.toNat + before.length * 8 * scale.toNat) y.toNat (8 * scale.toNat) (8 * scale.toNat) = false)) →
    s.dsq.answers = List.replicate k .ok ++ .fail :: rest →
    ∃ (drawn : List (Block × List DispItem)) (draws : Nat), isDrawing s.cfg blocks drawn ∧
      ((transactions (drawnItems s.cfg drawn) ≤ k ∧ exec (.dstr x y scale r g b text) s = .next { s with
        dsq := (s.dsq.drew s.cfg drawn draws (List.replicate (k - transactions (drawnItems s.cfg drawn)) DispAnswer.ok ++
          DispAnswer.fail :: rest)).ended e }) ∨
       (k < transactions (drawnItems s.cfg drawn) ∧ exec (.dstr x y scale r g b text) s = .next { s with
        dsq := s.dsq.drewUntilFailure s.cfg drawn k draws rest }))

/-- R101: DBGSET writes the background colour, issues nothing, and leaves the window as it was. -/
def Obligations.DbgsetWritesBackground : Prop :=
  ∀ (s : State) (r g b : Byte), s.dsq.busy = false →
    exec (.dbgset r g b) s = .next { s with dsq := { s.dsq with bgColor := r ++ g ++ b }.ended .ok }

/-! ### RfidLink -/

/-- R102, R103: RREAD with the register read, with a NACK, with a failed read, and with a read of no byte: R45's answers to
a read of one byte. -/
def Obligations.RreadReturnsRegister : Prop :=
  ∀ (s : State) (a : DevAddr) (reg : Byte) (ws : List WriteAnswer) (rs : List ReadAnswer), s.tpc.busy = false →
    (∀ v : Byte, s.tpc.writeAnswers = .ack :: ws → s.tpc.readAnswers = .ok [v] :: rs →
      exec (.rread a reg) s = .next { s with
        tpc := (s.tpc.traffic [.write a [reg] false .ack, .read a 1 (.ok [v])] ws rs).ended .ok [v] }) ∧
    (s.tpc.writeAnswers = .nack :: ws →
      exec (.rread a reg) s = .next { s with
        tpc := (s.tpc.traffic [.write a [reg] false .nack] ws s.tpc.readAnswers).ended .errRbus [0x00#8] }) ∧
    (s.tpc.writeAnswers = .ack :: ws → s.tpc.readAnswers = .fail :: rs →
      exec (.rread a reg) s = .next { s with
        tpc := (s.tpc.traffic [.write a [reg] false .ack, .read a 1 .fail] ws rs).ended .errRbus [0x00#8] }) ∧
    (s.tpc.writeAnswers = .ack :: ws → s.tpc.readAnswers = .ok [] :: rs →
      exec (.rread a reg) s = .next { s with
        tpc := (s.tpc.traffic [.write a [reg] false .ack, .read a 1 (.ok [])] ws rs).ended .errRbus [0x00#8] })

/-- R104: RWRITE, one transaction of two bytes, with either answer. -/
def Obligations.RwriteSendsOneTransaction : Prop :=
  ∀ (s : State) (a : DevAddr) (reg val : Byte) (ws : List WriteAnswer), s.tpc.busy = false →
    (s.tpc.writeAnswers = .ack :: ws →
      exec (.rwrite a reg val) s = .next { s with
        tpc := (s.tpc.traffic [.write a [reg, val] true .ack] ws s.tpc.readAnswers).ended .ok [] }) ∧
    (s.tpc.writeAnswers = .nack :: ws →
      exec (.rwrite a reg val) s = .next { s with
        tpc := (s.tpc.traffic [.write a [reg, val] true .nack] ws s.tpc.readAnswers).ended .errRbus [] })

/-- R67, R79, R105: RSCAN probes 1..126 ascending, each once, whatever the answers, always ends OK, and its sixteen result
bytes hold bit `a mod 8` of byte `a div 8` exactly for the addresses that acknowledged. -/
def Obligations.RscanReportsEveryAddress : Prop :=
  ∀ (s : State) (answers ws : List WriteAnswer), s.tpc.busy = false → answers.length = 126 →
    s.tpc.writeAnswers = answers ++ ws →
    ∃ bits : List Byte,
      exec .rscan s = .next { s with
        tpc := (s.tpc.traffic (answers.zipIdx.map fun ak => .write (BitVec.ofNat 7 (ak.2 + 1)) [] true ak.1) ws
          s.tpc.readAnswers).ended .ok bits } ∧
      bits.length = 16 ∧
      ∀ a < 128, (bits.getD (a / 8) 0#8).getLsbD (a % 8) = decide (1 ≤ a ∧ answers[a - 1]? = some .ack)

/-- R106: RPRES answers the register's least-significant bit and stores nothing; its errors are those of R102. The answers
are R45's to a read of one byte. -/
def Obligations.RpresReturnsPresenceBit : Prop :=
  ∀ (s : State) (ws : List WriteAnswer) (rs : List ReadAnswer), s.tpc.busy = false →
    (∀ v : Byte, s.tpc.writeAnswers = .ack :: ws → s.tpc.readAnswers = .ok [v] :: rs →
      exec .rpres s = .next { s with
        tpc := (s.tpc.traffic [.write s.cfg.rfidAddr [s.cfg.regPresence] false .ack, .read s.cfg.rfidAddr 1 (.ok [v])]
          ws rs).ended .ok [if v.getLsbD 0 then 0x01#8 else 0x00#8] }) ∧
    (s.tpc.writeAnswers = .nack :: ws →
      exec .rpres s = .next { s with
        tpc := (s.tpc.traffic [.write s.cfg.rfidAddr [s.cfg.regPresence] false .nack] ws
          s.tpc.readAnswers).ended .errRbus [0x00#8] }) ∧
    (∀ a ∈ [ReadAnswer.fail, ReadAnswer.ok []], s.tpc.writeAnswers = .ack :: ws → s.tpc.readAnswers = a :: rs →
      exec .rpres s = .next { s with
        tpc := (s.tpc.traffic [.write s.cfg.rfidAddr [s.cfg.regPresence] false .ack, .read s.cfg.rfidAddr 1 a]
          ws rs).ended .errRbus [0x00#8] })

/-- R107: RINIT writes the pairs of READER_INIT_SEQ in order, and stops at the first NACK. -/
def Obligations.RinitWritesSequence : Prop :=
  ∀ (s : State) (ws : List WriteAnswer), s.tpc.busy = false →
    (s.tpc.writeAnswers = List.replicate s.cfg.readerInitSeq.length .ack ++ ws →
      exec .rinit s = .next { s with
        tpc := (s.tpc.traffic (s.cfg.readerInitSeq.map fun rv => .write s.cfg.rfidAddr [rv.1, rv.2] true .ack) ws
          s.tpc.readAnswers).ended .ok [] }) ∧
    ∀ (done later : List (Byte × Byte)) (rv : Byte × Byte), s.cfg.readerInitSeq = done ++ rv :: later →
      s.tpc.writeAnswers = List.replicate done.length .ack ++ .nack :: ws →
      exec .rinit s = .next { s with
        tpc := (s.tpc.traffic ((done.map fun rv => .write s.cfg.rfidAddr [rv.1, rv.2] true .ack) ++
          [.write s.cfg.rfidAddr [rv.1, rv.2] true .nack]) ws s.tpc.readAnswers).ended .errRbus [] }

/-! ### TagPoller -/

/-- R67, R111, R113. First, with the default TAG_BLOCK_REG: block read, clear and drain all answered. Then, for every TPC
and every block, what a poll stores and reports, here and in the other poll statements: a new tag id is stored with length
12 and reported with the block's timestamp bytes, a repeated one changes nothing, a short block leaves the tag under HOLD
and empties it under CLEAR; the seventeen bytes after the status are the flag, the twelve digits and the four timestamp
bytes, or all 0x00; the pair of registers as a string is R24's. That a repeated id or a short block changes nothing is
said of the registers in one of their two legal forms (R24), which every step keeps (StepKeepsInvariant). -/
def Obligations.RpollReadsStoresClears : Prop :=
  (∀ (s : State) (ws : List WriteAnswer) (rs : List ReadAnswer) (block drained : List Byte),
    s.tpc.busy = false → s.cfg.tagBlockReg = none → block.length ≤ 10 → drained.length ≤ s.cfg.drainLen →
    s.tpc.writeAnswers = .ack :: ws → s.tpc.readAnswers = .ok block :: .ok drained :: rs →
    exec .rpoll s = .next { s with
      tpc := ((s.tpc.pollStored s.cfg block).traffic
        [.read s.cfg.rfidAddr 10 (.ok block), .write s.cfg.rfidAddr [s.cfg.clearReq] true .ack,
          .read s.cfg.rfidAddr s.cfg.drainLen (.ok drained)] ws rs).ended
        (pollStatus block) (eventBytes (pollEvent s.cfg block s.tpc)) }) ∧
  ∀ (c : Config) (t : Tpc) (block id : List Byte),
    id = (block.take 6).flatMap (fun b => [hexdigit (b.toNat / 16), hexdigit (b.toNat % 16)]) →
    (t.lastLen = 0#4 → t.tagString = []) ∧ (t.lastLen = 12#4 → t.tagString = t.lastTagId) ∧
    (block.length = 10 → pollStatus block = .ok ∧
      (id ≠ t.tagString → t.pollStored c block = { t with lastLen := 12#4, lastTagId := id } ∧
        eventBytes (pollEvent c block t) = 0x01#8 :: (id ++ block.drop 6)) ∧
      (id = t.tagString → eventBytes (pollEvent c block t) = List.replicate 17 0x00#8 ∧
        (t.tagLegal → t.pollStored c block = t))) ∧
    (block.length < 10 → pollStatus block = .decodeEmpty ∧
      eventBytes (pollEvent c block t) = List.replicate 17 0x00#8 ∧
      (c.emptyReadPolicy = .hold → t.tagLegal → t.pollStored c block = t) ∧
      (c.emptyReadPolicy = .clear →
        t.pollStored c block = { t with lastLen := 0#4, lastTagId := List.replicate 12 0x00#8 }))

/-- R113, R76: with TAG_BLOCK_REG set, the register phase comes first; its NACK ends the poll with nothing read, decoded
or cleared. -/
def Obligations.RpollRegisterPhase : Prop :=
  ∀ (s : State) (reg : Byte) (ws : List WriteAnswer) (rs : List ReadAnswer) (block drained : List Byte),
    s.tpc.busy = false → s.cfg.tagBlockReg = some reg → block.length ≤ 10 → drained.length ≤ s.cfg.drainLen →
    (s.tpc.writeAnswers = .ack :: .ack :: ws → s.tpc.readAnswers = .ok block :: .ok drained :: rs →
      exec .rpoll s = .next { s with
        tpc := ((s.tpc.pollStored s.cfg block).traffic
          [.write s.cfg.rfidAddr [reg] false .ack, .read s.cfg.rfidAddr 10 (.ok block),
            .write s.cfg.rfidAddr [s.cfg.clearReq] true .ack, .read s.cfg.rfidAddr s.cfg.drainLen (.ok drained)]
          ws rs).ended (pollStatus block) (eventBytes (pollEvent s.cfg block s.tpc)) }) ∧
    (s.tpc.writeAnswers = .nack :: ws →
      exec .rpoll s = .next { s with
        tpc := (s.tpc.traffic [.write s.cfg.rfidAddr [reg] false .nack] ws s.tpc.readAnswers).ended .errRbus
          (List.replicate 17 0x00#8) })

/-- R113, R121, R147: a failed block read ends the poll with ERR_RBUS: nothing decoded, stored, emitted or cleared, with
and without a register phase before it. -/
def Obligations.RpollBlockReadFailureChangesNothing : Prop :=
  ∀ (s : State) (ws : List WriteAnswer) (rs : List ReadAnswer), s.tpc.busy = false →
    s.tpc.writeAnswers = List.replicate (registerPhase s.cfg).length .ack ++ ws → s.tpc.readAnswers = .fail :: rs →
    exec .rpoll s = .next { s with
      tpc := (s.tpc.traffic (registerPhase s.cfg ++ [.read s.cfg.rfidAddr 10 .fail]) ws rs).ended .errRbus
        (List.replicate 17 0x00#8) }

/-- R112, R121, R122: a failure of the clear, in its write or its drain, is reported as 0x02 even where the block was
short; the stored tag and the event of the tick stand, with and without a register phase (what is stored and reported:
RpollReadsStoresClears). -/
def Obligations.RpollClearFailureKeepsEvent : Prop :=
  ∀ (s : State) (ws : List WriteAnswer) (rs : List ReadAnswer) (block : List Byte),
    s.tpc.busy = false → block.length ≤ 10 →
    (s.tpc.writeAnswers = List.replicate (registerPhase s.cfg).length .ack ++ .nack :: ws →
      s.tpc.readAnswers = .ok block :: rs →
      exec .rpoll s = .next { s with
        tpc := ((s.tpc.pollStored s.cfg block).traffic (registerPhase s.cfg ++
          [.read s.cfg.rfidAddr 10 (.ok block), .write s.cfg.rfidAddr [s.cfg.clearReq] true .nack]) ws rs).ended
          .errRbus (eventBytes (pollEvent s.cfg block s.tpc)) }) ∧
    (s.tpc.writeAnswers = List.replicate (registerPhase s.cfg).length .ack ++ .ack :: ws →
      s.tpc.readAnswers = .ok block :: .fail :: rs →
      exec .rpoll s = .next { s with
        tpc := ((s.tpc.pollStored s.cfg block).traffic (registerPhase s.cfg ++
          [.read s.cfg.rfidAddr 10 (.ok block), .write s.cfg.rfidAddr [s.cfg.clearReq] true .ack,
            .read s.cfg.rfidAddr s.cfg.drainLen .fail]) ws rs).ended
          .errRbus (eventBytes (pollEvent s.cfg block s.tpc)) })

/-- R108–R110: the digit of a value up to 15 is its uppercase ASCII code; a full block decodes to twelve such digits, byte
`k` giving characters `2k` and `2k + 1`, and to the big-endian value of its last four bytes; a shorter block to the empty
id; two raw tags are equal when their digit strings are. -/
def Obligations.BlockDecoding : Prop :=
  (∀ v ≤ 9, (hexdigit v).toNat = 0x30 + v) ∧ (∀ v, 10 ≤ v → v ≤ 15 → (hexdigit v).toNat = 0x41 + (v - 10)) ∧
  (∀ block : List Byte, block.length = 10 →
    isTagId (decodeBlock block).tagId ∧
    (∀ k < 6, (decodeBlock block).tagId[2 * k]? = some (hexdigit ((block.getD k 0#8).toNat / 16)) ∧
      (decodeBlock block).tagId[2 * k + 1]? = some (hexdigit ((block.getD k 0#8).toNat % 16))) ∧
    (decodeBlock block).timestamp.toNat =
      (block.getD 6 0#8).toNat * 2 ^ 24 + (block.getD 7 0#8).toNat * 2 ^ 16 + (block.getD 8 0#8).toNat * 2 ^ 8 +
        (block.getD 9 0#8).toNat) ∧
  (∀ block : List Byte, block.length < 10 → decodeBlock block = { tagId := [], timestamp := 0 }) ∧
  ∀ a b : List Byte, a.length = 6 → b.length = 6 → hexBytes a = hexBytes b → a = b

/-- R111: the four rows of the de-duplication table. -/
def Obligations.DedupTable : Prop :=
  ∀ (policy : EmptyReadPolicy) (last cand : List Byte),
    (cand ≠ [] → cand ≠ last → dedup policy last cand = (cand, true)) ∧
    (cand = last → dedup policy last cand = (last, false)) ∧
    (cand = [] → last ≠ [] → dedup .hold last cand = (last, false)) ∧
    (cand = [] → last ≠ [] → dedup .clear last cand = ([], false))

/-- R115: from NO_TAG, the candidates A, A, B, B, A emit at positions 1, 3 and 5, under either policy. -/
def Obligations.RepeatedTagsEmitOnChange : Prop :=
  ∀ (policy : EmptyReadPolicy) (a b : List Byte), a ≠ [] → b ≠ [] → a ≠ b →
    pollEmits policy [] [a, a, b, b, a] = [true, false, true, false, true]

/-! ### Reset, the state port, the panel -/

/-- R32, R138: every register at its reset value, both units idle, nothing held, no transaction and no response. -/
def Obligations.ResetLeavesRegisterValues : Prop :=
  State.reset.dsq.busy = false ∧ State.reset.tpc.busy = false ∧ State.reset.dsq.status = 0x00#8 ∧
  State.reset.tpc.status = 0x00#8 ∧ State.reset.dsq.winX0 = 0x0000#16 ∧ State.reset.dsq.winY0 = 0x0000#16 ∧
  State.reset.dsq.winX1 = 0x0000#16 ∧ State.reset.dsq.winY1 = 0x0000#16 ∧ State.reset.dsq.winValid = false ∧
  State.reset.dsq.bgColor = 0xFFFFFF#24 ∧ State.reset.dsq.panelOk = false ∧ State.reset.tpc.lastLen = 0#4 ∧
  State.reset.tpc.lastTagId = List.replicate 12 0x00#8 ∧ State.reset.held = [] ∧ State.reset.dsq.trace = [] ∧
  State.reset.tpc.trace = [] ∧ State.reset.dsq.responses = [] ∧ State.reset.tpc.responses = [] ∧
  State.reset.portResponses = []

/-- R32, R138, R139: every register at its reset value, the running operations abandoned without a response, no
transaction, the block waiting for a request. That the histories are kept, and that the requests held at power-on are
dropped (`t.held = []`, read from R138's "waits for its first request"), is the model's choice (DESIGN CHOICE, unsafe for
the second; notes/assumptions/12.md). -/
def Obligations.PowerOnAbandonsOperations : Prop :=
  ∀ (s : State) (rest : List Input), configOk s.cfg = true → s.dsq.atTable = false → s.eligible = [] →
    s.inputs = .powerOn :: rest →
    ∃ t, step s = .next t ∧ t.dsq.busy = false ∧ t.tpc.busy = false ∧ t.dsq.run = [] ∧ t.tpc.run = [] ∧
      t.tpc.work = TpcWork.idle ∧ t.held = [] ∧ t.dsq.status = 0x00#8 ∧ t.tpc.status = 0x00#8 ∧
      t.dsq.winX0 = 0x0000#16 ∧ t.dsq.winY0 = 0x0000#16 ∧ t.dsq.winX1 = 0x0000#16 ∧ t.dsq.winY1 = 0x0000#16 ∧
      t.dsq.winValid = false ∧ t.dsq.bgColor = s.cfg.bgReset ∧ t.dsq.panelOk = false ∧
      t.tpc.lastLen = 0#4 ∧ t.tpc.lastTagId = List.replicate 12 0x00#8 ∧ t.tpc.tagString = [] ∧
      t.inputs = rest ∧ t.cfg = s.cfg ∧ t.dsq.trace = s.dsq.trace ∧ t.tpc.trace = s.tpc.trace ∧
      t.dsq.responses = s.dsq.responses ∧ t.tpc.responses = s.tpc.responses ∧
      t.portResponses = s.portResponses

/-- R31: a read of the state port changes nothing but what the host has read; the bits of every listed word; 0 at every
other offset. -/
def Obligations.StatePortReads : Prop :=
  (∀ (s : State) (offset : BitVec 32) (rest : List Input), configOk s.cfg = true → s.dsq.atTable = false →
    s.eligible = [] → s.inputs = .portRead offset :: rest →
    step s = .next { s with inputs := rest, portReads := s.portReads ++ [(offset, s.portWord offset)] }) ∧
  ∀ s : State,
    (s.portWord 0x00#32).toNat = s.dsq.status.toNat * 256 + s.dsq.panelOk.toNat * 4 + s.dsq.winValid.toNat * 2 +
      s.dsq.busy.toNat ∧
    (s.portWord 0x04#32).toNat = s.dsq.winX1.toNat * 65536 + s.dsq.winX0.toNat ∧
    (s.portWord 0x08#32).toNat = s.dsq.winY1.toNat * 65536 + s.dsq.winY0.toNat ∧
    (s.portWord 0x0C#32).toNat = s.dsq.bgColor.toNat ∧
    (s.portWord 0x10#32).toNat = s.tpc.status.toNat * 256 + (decide (s.tpc.lastLen = 12#4)).toNat * 2 +
      s.tpc.busy.toNat ∧
    (∀ k < 3, (s.portWord (BitVec.ofNat 32 (0x14 + 4 * k))).toNat =
      (s.tpc.lastTagId.getD (4 * k) 0#8).toNat * 2 ^ 24 + (s.tpc.lastTagId.getD (4 * k + 1) 0#8).toNat * 2 ^ 16 +
        (s.tpc.lastTagId.getD (4 * k + 2) 0#8).toNat * 2 ^ 8 + (s.tpc.lastTagId.getD (4 * k + 3) 0#8).toNat) ∧
    ∀ offset : BitVec 32, (0x1C < offset.toNat ∨ offset.toNat % 4 ≠ 0) → s.portWord offset = 0#32

/-- R63, R131 (b), (c): after any traffic, a window sequence and a fill that were answered OK show the colour in every cell
of the window and leave every other cell as it was (the three commands and the software reset being different bytes),
whatever transactions the fill was sent in: one for each pixel, or merged, the grouping being notes/assumptions/9.md's
free value. What a cell shows after a pixel that the earlier traffic cut off inside is the model's choice
(notes/assumptions/14.md). -/
def Obligations.PanelShowsFilledWindow : Prop :=
  ∀ (c : Config) (f : FillFraming) (before fill : List DispItem) (x y w h : Nat) (v : Colour),
    [c.cmdSwreset, c.cmdCaset, c.cmdPaset, c.cmdRamwr].Nodup → windowOk x y w h = true →
    isFillTraffic f (w * h) v fill →
    ∀ i j : Nat, (panelAfter c (before ++ (winItems c x y w h ++ fill))).cell i j =
      if x ≤ i ∧ i < x + w ∧ y ≤ j ∧ j < y + h then some v else (panelAfter c before).cell i j
end

