-- ==== Sys2Proof/Laws/State.lean ====
section
/-!
SUPPORT. The small lemmas of State: one per field per named update, so that no proof unfolds a record update. Each says
what the field holds after the update.
-/
namespace Sys2Proof.Machine

/-! ### `Dsq.waitMs` -/

@[simp] theorem Dsq.waitMs_busy (ms : Nat) (d : Dsq) : (d.waitMs ms).busy = d.busy := rfl
@[simp] theorem Dsq.waitMs_status (ms : Nat) (d : Dsq) : (d.waitMs ms).status = d.status := rfl
@[simp] theorem Dsq.waitMs_winX0 (ms : Nat) (d : Dsq) : (d.waitMs ms).winX0 = d.winX0 := rfl
@[simp] theorem Dsq.waitMs_winY0 (ms : Nat) (d : Dsq) : (d.waitMs ms).winY0 = d.winY0 := rfl
@[simp] theorem Dsq.waitMs_winX1 (ms : Nat) (d : Dsq) : (d.waitMs ms).winX1 = d.winX1 := rfl
@[simp] theorem Dsq.waitMs_winY1 (ms : Nat) (d : Dsq) : (d.waitMs ms).winY1 = d.winY1 := rfl
@[simp] theorem Dsq.waitMs_winValid (ms : Nat) (d : Dsq) : (d.waitMs ms).winValid = d.winValid := rfl
@[simp] theorem Dsq.waitMs_bgColor (ms : Nat) (d : Dsq) : (d.waitMs ms).bgColor = d.bgColor := rfl
@[simp] theorem Dsq.waitMs_panelOk (ms : Nat) (d : Dsq) : (d.waitMs ms).panelOk = d.panelOk := rfl
@[simp] theorem Dsq.waitMs_run (ms : Nat) (d : Dsq) : (d.waitMs ms).run = d.run := rfl
@[simp] theorem Dsq.waitMs_trace (ms : Nat) (d : Dsq) : (d.waitMs ms).trace = d.trace ++ [.wait ms] := rfl
@[simp] theorem Dsq.waitMs_answers (ms : Nat) (d : Dsq) : (d.waitMs ms).answers = d.answers := rfl
@[simp] theorem Dsq.waitMs_responses (ms : Nat) (d : Dsq) : (d.waitMs ms).responses = d.responses := rfl
@[simp] theorem Dsq.waitMs_groupDraws (ms : Nat) (d : Dsq) : (d.waitMs ms).groupDraws = d.groupDraws := rfl

/-! ### `Dsq.finish` -/

@[simp] theorem Dsq.finish_busy (e : Status) (d : Dsq) : (d.finish e).busy = false := rfl
@[simp] theorem Dsq.finish_status (e : Status) (d : Dsq) : (d.finish e).status = e.code := rfl
@[simp] theorem Dsq.finish_winX0 (e : Status) (d : Dsq) : (d.finish e).winX0 = d.winX0 := rfl
@[simp] theorem Dsq.finish_winY0 (e : Status) (d : Dsq) : (d.finish e).winY0 = d.winY0 := rfl
@[simp] theorem Dsq.finish_winX1 (e : Status) (d : Dsq) : (d.finish e).winX1 = d.winX1 := rfl
@[simp] theorem Dsq.finish_winY1 (e : Status) (d : Dsq) : (d.finish e).winY1 = d.winY1 := rfl
@[simp] theorem Dsq.finish_winValid (e : Status) (d : Dsq) : (d.finish e).winValid = d.winValid := rfl
@[simp] theorem Dsq.finish_bgColor (e : Status) (d : Dsq) : (d.finish e).bgColor = d.bgColor := rfl
@[simp] theorem Dsq.finish_panelOk (e : Status) (d : Dsq) : (d.finish e).panelOk = d.panelOk := rfl
@[simp] theorem Dsq.finish_run (e : Status) (d : Dsq) : (d.finish e).run = [] := rfl
@[simp] theorem Dsq.finish_trace (e : Status) (d : Dsq) : (d.finish e).trace = d.trace := rfl
@[simp] theorem Dsq.finish_answers (e : Status) (d : Dsq) : (d.finish e).answers = d.answers := rfl
@[simp] theorem Dsq.finish_responses (e : Status) (d : Dsq) :
    (d.finish e).responses = d.responses ++ [[e.code]] :=
  rfl
@[simp] theorem Dsq.finish_groupDraws (e : Status) (d : Dsq) : (d.finish e).groupDraws = d.groupDraws := rfl

/-! ### `Dsq.ended` -/

@[simp] theorem Dsq.ended_busy (e : Status) (d : Dsq) : (d.ended e).busy = false := rfl
@[simp] theorem Dsq.ended_status (e : Status) (d : Dsq) : (d.ended e).status = e.code := rfl
@[simp] theorem Dsq.ended_winX0 (e : Status) (d : Dsq) : (d.ended e).winX0 = d.winX0 := rfl
@[simp] theorem Dsq.ended_winY0 (e : Status) (d : Dsq) : (d.ended e).winY0 = d.winY0 := rfl
@[simp] theorem Dsq.ended_winX1 (e : Status) (d : Dsq) : (d.ended e).winX1 = d.winX1 := rfl
@[simp] theorem Dsq.ended_winY1 (e : Status) (d : Dsq) : (d.ended e).winY1 = d.winY1 := rfl
@[simp] theorem Dsq.ended_winValid (e : Status) (d : Dsq) : (d.ended e).winValid = d.winValid := rfl
@[simp] theorem Dsq.ended_bgColor (e : Status) (d : Dsq) : (d.ended e).bgColor = d.bgColor := rfl
@[simp] theorem Dsq.ended_panelOk (e : Status) (d : Dsq) : (d.ended e).panelOk = d.panelOk := rfl
@[simp] theorem Dsq.ended_run (e : Status) (d : Dsq) : (d.ended e).run = [] := rfl
@[simp] theorem Dsq.ended_trace (e : Status) (d : Dsq) : (d.ended e).trace = d.trace := rfl
@[simp] theorem Dsq.ended_answers (e : Status) (d : Dsq) : (d.ended e).answers = d.answers := rfl
@[simp] theorem Dsq.ended_responses (e : Status) (d : Dsq) : (d.ended e).responses = d.responses ++ [[e.code]] := rfl
@[simp] theorem Dsq.ended_groupDraws (e : Status) (d : Dsq) : (d.ended e).groupDraws = d.groupDraws := rfl

/-! ### `Dsq.traffic` -/

@[simp] theorem Dsq.traffic_busy (items : List DispItem) (as : List DispAnswer) (d : Dsq) :
    (d.traffic items as).busy = d.busy :=
  rfl
@[simp] theorem Dsq.traffic_status (items : List DispItem) (as : List DispAnswer) (d : Dsq) :
    (d.traffic items as).status = d.status :=
  rfl
@[simp] theorem Dsq.traffic_winX0 (items : List DispItem) (as : List DispAnswer) (d : Dsq) :
    (d.traffic items as).winX0 = d.winX0 :=
  rfl
@[simp] theorem Dsq.traffic_winY0 (items : List DispItem) (as : List DispAnswer) (d : Dsq) :
    (d.traffic items as).winY0 = d.winY0 :=
  rfl
@[simp] theorem Dsq.traffic_winX1 (items : List DispItem) (as : List DispAnswer) (d : Dsq) :
    (d.traffic items as).winX1 = d.winX1 :=
  rfl
@[simp] theorem Dsq.traffic_winY1 (items : List DispItem) (as : List DispAnswer) (d : Dsq) :
    (d.traffic items as).winY1 = d.winY1 :=
  rfl
@[simp] theorem Dsq.traffic_winValid (items : List DispItem) (as : List DispAnswer) (d : Dsq) :
    (d.traffic items as).winValid = d.winValid :=
  rfl
@[simp] theorem Dsq.traffic_bgColor (items : List DispItem) (as : List DispAnswer) (d : Dsq) :
    (d.traffic items as).bgColor = d.bgColor :=
  rfl
@[simp] theorem Dsq.traffic_panelOk (items : List DispItem) (as : List DispAnswer) (d : Dsq) :
    (d.traffic items as).panelOk = d.panelOk :=
  rfl
@[simp] theorem Dsq.traffic_run (items : List DispItem) (as : List DispAnswer) (d : Dsq) :
    (d.traffic items as).run = d.run :=
  rfl
@[simp] theorem Dsq.traffic_trace (items : List DispItem) (as : List DispAnswer) (d : Dsq) :
    (d.traffic items as).trace = d.trace ++ items :=
  rfl
@[simp] theorem Dsq.traffic_answers (items : List DispItem) (as : List DispAnswer) (d : Dsq) :
    (d.traffic items as).answers = as :=
  rfl
@[simp] theorem Dsq.traffic_responses (items : List DispItem) (as : List DispAnswer) (d : Dsq) :
    (d.traffic items as).responses = d.responses :=
  rfl
@[simp] theorem Dsq.traffic_groupDraws (items : List DispItem) (as : List DispAnswer) (d : Dsq) :
    (d.traffic items as).groupDraws = d.groupDraws :=
  rfl

/-! ### `Dsq.setWindow` -/

@[simp] theorem Dsq.setWindow_busy (x y w h : Nat) (d : Dsq) : (d.setWindow x y w h).busy = d.busy := rfl
@[simp] theorem Dsq.setWindow_status (x y w h : Nat) (d : Dsq) : (d.setWindow x y w h).status = d.status := rfl
@[simp] theorem Dsq.setWindow_winX0 (x y w h : Nat) (d : Dsq) : (d.setWindow x y w h).winX0 = BitVec.ofNat 16 x := rfl
@[simp] theorem Dsq.setWindow_winY0 (x y w h : Nat) (d : Dsq) : (d.setWindow x y w h).winY0 = BitVec.ofNat 16 y := rfl
@[simp] theorem Dsq.setWindow_winX1 (x y w h : Nat) (d : Dsq) :
    (d.setWindow x y w h).winX1 = BitVec.ofNat 16 (x + w - 1) :=
  rfl
@[simp] theorem Dsq.setWindow_winY1 (x y w h : Nat) (d : Dsq) :
    (d.setWindow x y w h).winY1 = BitVec.ofNat 16 (y + h - 1) :=
  rfl
@[simp] theorem Dsq.setWindow_winValid (x y w h : Nat) (d : Dsq) : (d.setWindow x y w h).winValid = d.winValid := rfl
@[simp] theorem Dsq.setWindow_bgColor (x y w h : Nat) (d : Dsq) : (d.setWindow x y w h).bgColor = d.bgColor := rfl
@[simp] theorem Dsq.setWindow_panelOk (x y w h : Nat) (d : Dsq) : (d.setWindow x y w h).panelOk = d.panelOk := rfl
@[simp] theorem Dsq.setWindow_run (x y w h : Nat) (d : Dsq) : (d.setWindow x y w h).run = d.run := rfl
@[simp] theorem Dsq.setWindow_trace (x y w h : Nat) (d : Dsq) : (d.setWindow x y w h).trace = d.trace := rfl
@[simp] theorem Dsq.setWindow_answers (x y w h : Nat) (d : Dsq) : (d.setWindow x y w h).answers = d.answers := rfl
@[simp] theorem Dsq.setWindow_responses (x y w h : Nat) (d : Dsq) :
    (d.setWindow x y w h).responses = d.responses :=
  rfl
@[simp] theorem Dsq.setWindow_groupDraws (x y w h : Nat) (d : Dsq) :
    (d.setWindow x y w h).groupDraws = d.groupDraws :=
  rfl

/-! ### `Dsq.powerOn` -/

@[simp] theorem Dsq.powerOn_busy (c : Config) (d : Dsq) : (d.powerOn c).busy = (Dsq.reset c).busy := rfl
@[simp] theorem Dsq.powerOn_status (c : Config) (d : Dsq) : (d.powerOn c).status = (Dsq.reset c).status := rfl
@[simp] theorem Dsq.powerOn_winX0 (c : Config) (d : Dsq) : (d.powerOn c).winX0 = (Dsq.reset c).winX0 := rfl
@[simp] theorem Dsq.powerOn_winY0 (c : Config) (d : Dsq) : (d.powerOn c).winY0 = (Dsq.reset c).winY0 := rfl
@[simp] theorem Dsq.powerOn_winX1 (c : Config) (d : Dsq) : (d.powerOn c).winX1 = (Dsq.reset c).winX1 := rfl
@[simp] theorem Dsq.powerOn_winY1 (c : Config) (d : Dsq) : (d.powerOn c).winY1 = (Dsq.reset c).winY1 := rfl
@[simp] theorem Dsq.powerOn_winValid (c : Config) (d : Dsq) : (d.powerOn c).winValid = (Dsq.reset c).winValid := rfl
@[simp] theorem Dsq.powerOn_bgColor (c : Config) (d : Dsq) : (d.powerOn c).bgColor = (Dsq.reset c).bgColor := rfl
@[simp] theorem Dsq.powerOn_panelOk (c : Config) (d : Dsq) : (d.powerOn c).panelOk = (Dsq.reset c).panelOk := rfl
@[simp] theorem Dsq.powerOn_run (c : Config) (d : Dsq) : (d.powerOn c).run = (Dsq.reset c).run := rfl
@[simp] theorem Dsq.powerOn_trace (c : Config) (d : Dsq) : (d.powerOn c).trace = d.trace := rfl
@[simp] theorem Dsq.powerOn_answers (c : Config) (d : Dsq) : (d.powerOn c).answers = d.answers := rfl
@[simp] theorem Dsq.powerOn_responses (c : Config) (d : Dsq) : (d.powerOn c).responses = d.responses := rfl
@[simp] theorem Dsq.powerOn_groupDraws (c : Config) (d : Dsq) : (d.powerOn c).groupDraws = d.groupDraws := rfl

/-! ### `Dsq.onError`: ERR_DBUS clears `WIN_VALID` and `PANEL_OK` (R120) -/

@[simp] theorem Dsq.onError_busy (e : Status) (d : Dsq) : (d.onError e).busy = d.busy := by cases e <;> rfl
@[simp] theorem Dsq.onError_status (e : Status) (d : Dsq) : (d.onError e).status = d.status := by cases e <;> rfl
@[simp] theorem Dsq.onError_winX0 (e : Status) (d : Dsq) : (d.onError e).winX0 = d.winX0 := by cases e <;> rfl
@[simp] theorem Dsq.onError_winY0 (e : Status) (d : Dsq) : (d.onError e).winY0 = d.winY0 := by cases e <;> rfl
@[simp] theorem Dsq.onError_winX1 (e : Status) (d : Dsq) : (d.onError e).winX1 = d.winX1 := by cases e <;> rfl
@[simp] theorem Dsq.onError_winY1 (e : Status) (d : Dsq) : (d.onError e).winY1 = d.winY1 := by cases e <;> rfl
@[simp] theorem Dsq.onError_bgColor (e : Status) (d : Dsq) : (d.onError e).bgColor = d.bgColor := by cases e <;> rfl
@[simp] theorem Dsq.onError_run (e : Status) (d : Dsq) : (d.onError e).run = d.run := by cases e <;> rfl
@[simp] theorem Dsq.onError_trace (e : Status) (d : Dsq) : (d.onError e).trace = d.trace := by cases e <;> rfl
@[simp] theorem Dsq.onError_answers (e : Status) (d : Dsq) : (d.onError e).answers = d.answers := by cases e <;> rfl
@[simp] theorem Dsq.onError_responses (e : Status) (d : Dsq) : (d.onError e).responses = d.responses := by cases e <;> rfl
@[simp] theorem Dsq.onError_groupDraws (e : Status) (d : Dsq) : (d.onError e).groupDraws = d.groupDraws := by cases e <;> rfl
@[simp] theorem Dsq.onError_errDbus_winValid (d : Dsq) : (d.onError .errDbus).winValid = false := rfl
@[simp] theorem Dsq.onError_errDbus_panelOk (d : Dsq) : (d.onError .errDbus).panelOk = false := rfl

/-! ### `Tpc.finish` -/

@[simp] theorem Tpc.finish_busy (e : Status) (t : Tpc) : (t.finish e).busy = false := rfl
@[simp] theorem Tpc.finish_status (e : Status) (t : Tpc) : (t.finish e).status = e.code := rfl
@[simp] theorem Tpc.finish_lastLen (e : Status) (t : Tpc) : (t.finish e).lastLen = t.lastLen := rfl
@[simp] theorem Tpc.finish_lastTagId (e : Status) (t : Tpc) : (t.finish e).lastTagId = t.lastTagId := rfl
@[simp] theorem Tpc.finish_run (e : Status) (t : Tpc) : (t.finish e).run = [] := rfl
@[simp] theorem Tpc.finish_work (e : Status) (t : Tpc) : (t.finish e).work = TpcWork.idle := rfl
@[simp] theorem Tpc.finish_trace (e : Status) (t : Tpc) : (t.finish e).trace = t.trace := rfl
@[simp] theorem Tpc.finish_writeAnswers (e : Status) (t : Tpc) : (t.finish e).writeAnswers = t.writeAnswers := rfl
@[simp] theorem Tpc.finish_readAnswers (e : Status) (t : Tpc) : (t.finish e).readAnswers = t.readAnswers := rfl
@[simp] theorem Tpc.finish_responses (e : Status) (t : Tpc) :
    (t.finish e).responses = t.responses ++ [t.work.response e] :=
  rfl

/-! ### `Tpc.ended` -/

@[simp] theorem Tpc.ended_busy (e : Status) (res : List Byte) (t : Tpc) : (t.ended e res).busy = false := rfl
@[simp] theorem Tpc.ended_status (e : Status) (res : List Byte) (t : Tpc) : (t.ended e res).status = e.code := rfl
@[simp] theorem Tpc.ended_lastLen (e : Status) (res : List Byte) (t : Tpc) :
    (t.ended e res).lastLen = t.lastLen :=
  rfl
@[simp] theorem Tpc.ended_lastTagId (e : Status) (res : List Byte) (t : Tpc) :
    (t.ended e res).lastTagId = t.lastTagId :=
  rfl
@[simp] theorem Tpc.ended_run (e : Status) (res : List Byte) (t : Tpc) : (t.ended e res).run = [] := rfl
@[simp] theorem Tpc.ended_work (e : Status) (res : List Byte) (t : Tpc) : (t.ended e res).work = TpcWork.idle := rfl
@[simp] theorem Tpc.ended_trace (e : Status) (res : List Byte) (t : Tpc) : (t.ended e res).trace = t.trace := rfl
@[simp] theorem Tpc.ended_writeAnswers (e : Status) (res : List Byte) (t : Tpc) :
    (t.ended e res).writeAnswers = t.writeAnswers :=
  rfl
@[simp] theorem Tpc.ended_readAnswers (e : Status) (res : List Byte) (t : Tpc) :
    (t.ended e res).readAnswers = t.readAnswers :=
  rfl
@[simp] theorem Tpc.ended_responses (e : Status) (res : List Byte) (t : Tpc) :
    (t.ended e res).responses = t.responses ++ [e.code :: res] :=
  rfl

/-! ### `Tpc.traffic` -/

@[simp] theorem Tpc.traffic_busy (items : List TagItem) (ws : List WriteAnswer) (rs : List ReadAnswer) (t : Tpc) :
    (t.traffic items ws rs).busy = t.busy :=
  rfl
@[simp] theorem Tpc.traffic_status (items : List TagItem) (ws : List WriteAnswer) (rs : List ReadAnswer) (t : Tpc) :
    (t.traffic items ws rs).status = t.status :=
  rfl
@[simp] theorem Tpc.traffic_lastLen (items : List TagItem) (ws : List WriteAnswer) (rs : List ReadAnswer) (t : Tpc) :
    (t.traffic items ws rs).lastLen = t.lastLen :=
  rfl
@[simp] theorem Tpc.traffic_lastTagId (items : List TagItem) (ws : List WriteAnswer) (rs : List ReadAnswer) (t : Tpc) :
    (t.traffic items ws rs).lastTagId = t.lastTagId :=
  rfl
@[simp] theorem Tpc.traffic_run (items : List TagItem) (ws : List WriteAnswer) (rs : List ReadAnswer) (t : Tpc) :
    (t.traffic items ws rs).run = t.run :=
  rfl
@[simp] theorem Tpc.traffic_work (items : List TagItem) (ws : List WriteAnswer) (rs : List ReadAnswer) (t : Tpc) :
    (t.traffic items ws rs).work = t.work :=
  rfl
@[simp] theorem Tpc.traffic_trace (items : List TagItem) (ws : List WriteAnswer) (rs : List ReadAnswer) (t : Tpc) :
    (t.traffic items ws rs).trace = t.trace ++ items :=
  rfl
@[simp] theorem Tpc.traffic_writeAnswers (items : List TagItem) (ws : List WriteAnswer) (rs : List ReadAnswer) (t : Tpc) :
    (t.traffic items ws rs).writeAnswers = ws :=
  rfl
@[simp] theorem Tpc.traffic_readAnswers (items : List TagItem) (ws : List WriteAnswer) (rs : List ReadAnswer) (t : Tpc) :
    (t.traffic items ws rs).readAnswers = rs :=
  rfl
@[simp] theorem Tpc.traffic_responses (items : List TagItem) (ws : List WriteAnswer) (rs : List ReadAnswer) (t : Tpc) :
    (t.traffic items ws rs).responses = t.responses :=
  rfl

/-! ### `Tpc.powerOn` -/

@[simp] theorem Tpc.powerOn_busy (t : Tpc) : (t.powerOn).busy = Tpc.reset.busy := rfl
@[simp] theorem Tpc.powerOn_status (t : Tpc) : (t.powerOn).status = Tpc.reset.status := rfl
@[simp] theorem Tpc.powerOn_lastLen (t : Tpc) : (t.powerOn).lastLen = Tpc.reset.lastLen := rfl
@[simp] theorem Tpc.powerOn_lastTagId (t : Tpc) : (t.powerOn).lastTagId = Tpc.reset.lastTagId := rfl
@[simp] theorem Tpc.powerOn_run (t : Tpc) : (t.powerOn).run = Tpc.reset.run := rfl
@[simp] theorem Tpc.powerOn_work (t : Tpc) : (t.powerOn).work = Tpc.reset.work := rfl
@[simp] theorem Tpc.powerOn_trace (t : Tpc) : (t.powerOn).trace = t.trace := rfl
@[simp] theorem Tpc.powerOn_writeAnswers (t : Tpc) : (t.powerOn).writeAnswers = t.writeAnswers := rfl
@[simp] theorem Tpc.powerOn_readAnswers (t : Tpc) : (t.powerOn).readAnswers = t.readAnswers := rfl
@[simp] theorem Tpc.powerOn_responses (t : Tpc) : (t.powerOn).responses = t.responses := rfl

/-! ### `Tpc.storeTag` -/

@[simp] theorem Tpc.storeTag_busy (id : List Byte) (t : Tpc) : (t.storeTag id).busy = t.busy := rfl
@[simp] theorem Tpc.storeTag_status (id : List Byte) (t : Tpc) : (t.storeTag id).status = t.status := rfl
@[simp] theorem Tpc.storeTag_lastLen (id : List Byte) (t : Tpc) :
    (t.storeTag id).lastLen = if id = [] then 0#4 else 12#4 :=
  rfl
@[simp] theorem Tpc.storeTag_lastTagId (id : List Byte) (t : Tpc) :
    (t.storeTag id).lastTagId = if id = [] then List.replicate 12 0x00#8 else id :=
  rfl
@[simp] theorem Tpc.storeTag_run (id : List Byte) (t : Tpc) : (t.storeTag id).run = t.run := rfl
@[simp] theorem Tpc.storeTag_work (id : List Byte) (t : Tpc) : (t.storeTag id).work = t.work := rfl
@[simp] theorem Tpc.storeTag_trace (id : List Byte) (t : Tpc) : (t.storeTag id).trace = t.trace := rfl
@[simp] theorem Tpc.storeTag_writeAnswers (id : List Byte) (t : Tpc) :
    (t.storeTag id).writeAnswers = t.writeAnswers :=
  rfl
@[simp] theorem Tpc.storeTag_readAnswers (id : List Byte) (t : Tpc) :
    (t.storeTag id).readAnswers = t.readAnswers :=
  rfl
@[simp] theorem Tpc.storeTag_responses (id : List Byte) (t : Tpc) : (t.storeTag id).responses = t.responses := rfl

/-! ### `State.refuse` -/

@[simp] theorem State.refuse_cfg (s : State) : (s.refuse).cfg = s.cfg := rfl
@[simp] theorem State.refuse_dsq (s : State) : (s.refuse).dsq = s.dsq := rfl
@[simp] theorem State.refuse_tpc (s : State) : (s.refuse).tpc = s.tpc := rfl
@[simp] theorem State.refuse_held (s : State) : (s.refuse).held = s.held := rfl
@[simp] theorem State.refuse_portResponses (s : State) :
    (s.refuse).portResponses = s.portResponses ++ [[0x06#8]] :=
  rfl
@[simp] theorem State.refuse_portReads (s : State) : (s.refuse).portReads = s.portReads := rfl
@[simp] theorem State.refuse_inputs (s : State) : (s.refuse).inputs = s.inputs := rfl
@[simp] theorem State.refuse_holdDraws (s : State) : (s.refuse).holdDraws = s.holdDraws := rfl

/-! ### `State.hold` -/

@[simp] theorem State.hold_cfg (i : Instr) (s : State) : (s.hold i).cfg = s.cfg := rfl
@[simp] theorem State.hold_dsq (i : Instr) (s : State) : (s.hold i).dsq = s.dsq := rfl
@[simp] theorem State.hold_tpc (i : Instr) (s : State) : (s.hold i).tpc = s.tpc := rfl
@[simp] theorem State.hold_held (i : Instr) (s : State) : (s.hold i).held = s.held ++ [i] := rfl
@[simp] theorem State.hold_portResponses (i : Instr) (s : State) : (s.hold i).portResponses = s.portResponses := rfl
@[simp] theorem State.hold_portReads (i : Instr) (s : State) : (s.hold i).portReads = s.portReads := rfl
@[simp] theorem State.hold_inputs (i : Instr) (s : State) : (s.hold i).inputs = s.inputs := rfl
@[simp] theorem State.hold_holdDraws (i : Instr) (s : State) : (s.hold i).holdDraws = s.holdDraws := rfl

/-! ### `State.portRead` -/

@[simp] theorem State.portRead_cfg (offset : BitVec 32) (s : State) : (s.portRead offset).cfg = s.cfg := rfl
@[simp] theorem State.portRead_dsq (offset : BitVec 32) (s : State) : (s.portRead offset).dsq = s.dsq := rfl
@[simp] theorem State.portRead_tpc (offset : BitVec 32) (s : State) : (s.portRead offset).tpc = s.tpc := rfl
@[simp] theorem State.portRead_held (offset : BitVec 32) (s : State) : (s.portRead offset).held = s.held := rfl
@[simp] theorem State.portRead_portResponses (offset : BitVec 32) (s : State) :
    (s.portRead offset).portResponses = s.portResponses :=
  rfl
@[simp] theorem State.portRead_portReads (offset : BitVec 32) (s : State) :
    (s.portRead offset).portReads = s.portReads ++ [(offset, s.portWord offset)] :=
  rfl
@[simp] theorem State.portRead_inputs (offset : BitVec 32) (s : State) : (s.portRead offset).inputs = s.inputs := rfl
@[simp] theorem State.portRead_holdDraws (offset : BitVec 32) (s : State) :
    (s.portRead offset).holdDraws = s.holdDraws :=
  rfl

/-! ### `State.powerOn` -/

@[simp] theorem State.powerOn_cfg (s : State) : (s.powerOn).cfg = s.cfg := rfl
@[simp] theorem State.powerOn_dsq (s : State) : (s.powerOn).dsq = s.dsq.powerOn s.cfg := rfl
@[simp] theorem State.powerOn_tpc (s : State) : (s.powerOn).tpc = s.tpc.powerOn := rfl
@[simp] theorem State.powerOn_held (s : State) : (s.powerOn).held = [] := rfl
@[simp] theorem State.powerOn_portResponses (s : State) : (s.powerOn).portResponses = s.portResponses := rfl
@[simp] theorem State.powerOn_portReads (s : State) : (s.powerOn).portReads = s.portReads := rfl
@[simp] theorem State.powerOn_inputs (s : State) : (s.powerOn).inputs = s.inputs := rfl
@[simp] theorem State.powerOn_holdDraws (s : State) : (s.powerOn).holdDraws = s.holdDraws := rfl

end Sys2Proof.Machine
end

