-- ==== Sys2Proof/Laws/Ops.lean ====
section
/-!
SUPPORT. What the shared operations do, once each: the unfolding of one line, the bus primitives by their answer, how a
stretch of lines completes or fails whatever lines come after it, and what a request can come to.
-/
namespace Sys2Proof.Machine

/-! ### One line at a time -/

theorem Dsq.go_nil (c : Config) (d : Dsq) : Dsq.go c [] d = d.finish .ok := rfl

theorem Dsq.go_done {c : Config} {l : DAct} {rest : List DAct} {d d' : Dsq} (h : d.act c l = .done d') :
    Dsq.go c (l :: rest) d = Dsq.go c rest d' := by
  simp only [Dsq.go, h]

theorem Dsq.go_raise {c : Config} {l : DAct} {rest : List DAct} {d d' : Dsq} {e : Status}
    (h : d.act c l = .raise e d') : Dsq.go c (l :: rest) d = d'.raise e := by
  simp only [Dsq.go, h]

theorem Dsq.go_pause {c : Config} {l l' : DAct} {rest : List DAct} {d d' : Dsq} (h : d.act c l = .pause d' l') :
    Dsq.go c (l :: rest) d = { d' with run := l' :: rest } := by
  simp only [Dsq.go, h]

theorem Tpc.go_nil (c : Config) (t : Tpc) : Tpc.go c [] t = t.finish t.work.status := rfl

theorem Tpc.go_done {c : Config} {l : TAct} {rest : List TAct} {t t' : Tpc} (h : t.act c l = .done t') :
    Tpc.go c (l :: rest) t = Tpc.go c rest t' := by
  simp only [Tpc.go, h]

theorem Tpc.go_raise {c : Config} {l : TAct} {rest : List TAct} {t t' : Tpc} {e : Status}
    (h : t.act c l = .raise e t') : Tpc.go c (l :: rest) t = t'.raise e := by
  simp only [Tpc.go, h]

theorem Tpc.go_pause {c : Config} {l l' : TAct} {rest : List TAct} {t t' : Tpc} (h : t.act c l = .pause t' l') :
    Tpc.go c (l :: rest) t = { t' with run := l' :: rest } := by
  simp only [Tpc.go, h]

/-! ### Traffic -/

@[simp] theorem Dsq.traffic_nil (d : Dsq) : d.traffic [] d.answers = d := by
  simp [Dsq.traffic]

@[simp] theorem Dsq.traffic_traffic (i j : List DispItem) (a b : List DispAnswer) (d : Dsq) :
    (d.traffic i a).traffic j b = d.traffic (i ++ j) b := by
  simp [Dsq.traffic]

@[simp] theorem Tpc.traffic_traffic (i j : List TagItem) (a b : List WriteAnswer) (x y : List ReadAnswer) (t : Tpc) :
    (t.traffic i a x).traffic j b y = t.traffic (i ++ j) b y := by
  simp [Tpc.traffic]

theorem Dsq.finish_eq_ended (e : Status) (d : Dsq) : d.finish e = d.ended e := rfl

theorem Dsq.raise_errDbus (d : Dsq) : d.raise .errDbus = d.endedFailed := rfl

theorem Dsq.raise_of_ne {e : Status} (h : e ≠ .errDbus) (d : Dsq) : d.raise e = d.ended e := by
  cases e <;> first | rfl | exact absurd rfl h

/-! ### Display transactions by their answer -/

theorem Dsq.act_cmd_ok {d : Dsq} {as : List DispAnswer} (c : Config) (b : Byte) (h : d.answers = .ok :: as) :
    d.act c (.cmd b) = .done (d.traffic [.cmd b .ok] as) := by
  simp [Dsq.act, Dsq.transactLine, Dsq.transact, h, Dsq.traffic]

theorem Dsq.act_cmd_fail {d : Dsq} {as : List DispAnswer} (c : Config) (b : Byte) (h : d.answers = .fail :: as) :
    d.act c (.cmd b) = .raise .errDbus (d.traffic [.cmd b .fail] as) := by
  simp [Dsq.act, Dsq.transactLine, Dsq.transact, h, Dsq.traffic]

theorem Dsq.act_cmd_none {d : Dsq} (c : Config) (b : Byte) (h : d.answers = []) :
    d.act c (.cmd b) = .pause d (.cmd b) := by
  simp [Dsq.act, Dsq.transactLine, Dsq.transact, h]

theorem Dsq.act_data_ok {d : Dsq} {as : List DispAnswer} (c : Config) (s : List Byte) (h : d.answers = .ok :: as) :
    d.act c (.data s) = .done (d.traffic [.data s .ok] as) := by
  simp [Dsq.act, Dsq.transactLine, Dsq.transact, h, Dsq.traffic]

theorem Dsq.act_data_fail {d : Dsq} {as : List DispAnswer} (c : Config) (s : List Byte)
    (h : d.answers = .fail :: as) : d.act c (.data s) = .raise .errDbus (d.traffic [.data s .fail] as) := by
  simp [Dsq.act, Dsq.transactLine, Dsq.transact, h, Dsq.traffic]

theorem Dsq.act_data_none {d : Dsq} (c : Config) (s : List Byte) (h : d.answers = []) :
    d.act c (.data s) = .pause d (.data s) := by
  simp [Dsq.act, Dsq.transactLine, Dsq.transact, h]

/-! ### Tag transactions by their answer -/

theorem Tpc.act_write_ack {t : Tpc} {ws : List WriteAnswer} (c : Config) (a : DevAddr) (s : List Byte) (stop : Bool)
    (h : t.writeAnswers = .ack :: ws) :
    t.act c (.write a s stop) = .done (t.traffic [.write a s stop .ack] ws t.readAnswers) := by
  simp [Tpc.act, Tpc.twrite, h, Tpc.traffic]

theorem Tpc.act_write_nack {t : Tpc} {ws : List WriteAnswer} (c : Config) (a : DevAddr) (s : List Byte) (stop : Bool)
    (h : t.writeAnswers = .nack :: ws) :
    t.act c (.write a s stop) = .raise .errRbus (t.traffic [.write a s stop .nack] ws t.readAnswers) := by
  simp [Tpc.act, Tpc.twrite, h, Tpc.traffic]

theorem Tpc.act_readReg_ok {t : Tpc} {rs : List ReadAnswer} {v : Byte} {more : List Byte} (c : Config) (a : DevAddr)
    (h : t.readAnswers = .ok (v :: more) :: rs) :
    t.act c (.readReg a) = .done { t.traffic [.read a 1 (.ok [v])] t.writeAnswers rs with
      work := { t.work with value := v } } := by
  simp [Tpc.act, Tpc.tread, h, Tpc.traffic, ReadAnswer.cut]

theorem Tpc.act_readReg_empty {t : Tpc} {rs : List ReadAnswer} (c : Config) (a : DevAddr)
    (h : t.readAnswers = .ok [] :: rs) :
    t.act c (.readReg a) = .raise .errRbus (t.traffic [.read a 1 (.ok [])] t.writeAnswers rs) := by
  simp [Tpc.act, Tpc.tread, h, Tpc.traffic, ReadAnswer.cut]

theorem Tpc.act_readReg_fail {t : Tpc} {rs : List ReadAnswer} (c : Config) (a : DevAddr)
    (h : t.readAnswers = .fail :: rs) :
    t.act c (.readReg a) = .raise .errRbus (t.traffic [.read a 1 .fail] t.writeAnswers rs) := by
  simp [Tpc.act, Tpc.tread, h, Tpc.traffic, ReadAnswer.cut]

theorem Tpc.act_readBlock_ok {t : Tpc} {rs : List ReadAnswer} {bytes : List Byte} (c : Config)
    (hlen : bytes.length ≤ 10) (h : t.readAnswers = .ok bytes :: rs) :
    t.act c .readBlock = .done ((t.traffic [.read c.rfidAddr 10 (.ok bytes)] t.writeAnswers rs).takeBlock c bytes) := by
  simp [Tpc.act, Tpc.tread, h, Tpc.traffic, ReadAnswer.cut, tagBlockLen, List.take_of_length_le hlen]

theorem Tpc.act_readBlock_fail {t : Tpc} {rs : List ReadAnswer} (c : Config) (h : t.readAnswers = .fail :: rs) :
    t.act c .readBlock = .raise .errRbus (t.traffic [.read c.rfidAddr 10 .fail] t.writeAnswers rs) := by
  simp [Tpc.act, Tpc.tread, h, Tpc.traffic, ReadAnswer.cut, tagBlockLen]

theorem Tpc.act_drain_ok {t : Tpc} {rs : List ReadAnswer} {bytes : List Byte} (c : Config)
    (hlen : bytes.length ≤ c.drainLen) (h : t.readAnswers = .ok bytes :: rs) :
    t.act c .drain = .done (t.traffic [.read c.rfidAddr c.drainLen (.ok bytes)] t.writeAnswers rs) := by
  simp [Tpc.act, Tpc.tread, h, Tpc.traffic, ReadAnswer.cut, List.take_of_length_le hlen]

theorem Tpc.act_drain_fail {t : Tpc} {rs : List ReadAnswer} (c : Config) (h : t.readAnswers = .fail :: rs) :
    t.act c .drain = .raise .errRbus (t.traffic [.read c.rfidAddr c.drainLen .fail] t.writeAnswers rs) := by
  simp [Tpc.act, Tpc.tread, h, Tpc.traffic, ReadAnswer.cut]

/-! ### Stretches of lines -/

/-- The lines complete from `d` to `d'`, whatever lines come after them. -/
def Dsq.Completes (c : Config) (lines : List DAct) (d d' : Dsq) : Prop :=
  ∀ rest, Dsq.go c (lines ++ rest) d = Dsq.go c rest d'

/-- The lines raise `e` in `d'`, whatever lines come after them. -/
def Dsq.Raises (c : Config) (lines : List DAct) (e : Status) (d d' : Dsq) : Prop :=
  ∀ rest, Dsq.go c (lines ++ rest) d = d'.raise e

theorem Dsq.completes_nil (c : Config) (d : Dsq) : Dsq.Completes c [] d d := fun _ => rfl

theorem Dsq.completes_cons {c : Config} {l : DAct} {ls : List DAct} {d d' d'' : Dsq} (h : d.act c l = .done d')
    (hs : Dsq.Completes c ls d' d'') : Dsq.Completes c (l :: ls) d d'' := fun rest => by
  rw [List.cons_append, Dsq.go_done h, hs]

theorem Dsq.completes_append {c : Config} {xs ys : List DAct} {d d' d'' : Dsq} (hx : Dsq.Completes c xs d d')
    (hy : Dsq.Completes c ys d' d'') : Dsq.Completes c (xs ++ ys) d d'' := fun rest => by
  rw [List.append_assoc, hx, hy]

theorem Dsq.raises_cons {c : Config} {l : DAct} {ls : List DAct} {e : Status} {d d' : Dsq}
    (h : d.act c l = .raise e d') : Dsq.Raises c (l :: ls) e d d' := fun rest => by
  rw [List.cons_append, Dsq.go_raise h]

theorem Dsq.raises_cons_done {c : Config} {l : DAct} {ls : List DAct} {e : Status} {d d' d'' : Dsq}
    (h : d.act c l = .done d') (hs : Dsq.Raises c ls e d' d'') : Dsq.Raises c (l :: ls) e d d'' := fun rest => by
  rw [List.cons_append, Dsq.go_done h, hs]

theorem Dsq.raises_append_left {c : Config} {xs ys : List DAct} {e : Status} {d d' : Dsq}
    (hx : Dsq.Raises c xs e d d') : Dsq.Raises c (xs ++ ys) e d d' := fun rest => by
  rw [List.append_assoc, hx]

theorem Dsq.raises_append {c : Config} {xs ys : List DAct} {e : Status} {d d' d'' : Dsq}
    (hx : Dsq.Completes c xs d d') (hy : Dsq.Raises c ys e d' d'') : Dsq.Raises c (xs ++ ys) e d d'' := fun rest => by
  rw [List.append_assoc, hx, hy]

theorem Dsq.start_of_completes {c : Config} {lines : List DAct} {d d' : Dsq}
    (h : Dsq.Completes c lines { d with busy := true } d') : d.start c lines = d'.ended .ok := by
  have := h []
  rw [List.append_nil] at this
  exact this

theorem Dsq.start_of_raises {c : Config} {lines : List DAct} {e : Status} {d d' : Dsq}
    (h : Dsq.Raises c lines e { d with busy := true } d') : d.start c lines = d'.raise e := by
  have := h []
  rw [List.append_nil] at this
  exact this

/-! ### The window sequence (R89) -/

/-- A window sequence that fits, with five OK answers. -/
theorem Dsq.completes_doWin {c : Config} {x y w h : Nat} {d : Dsq} {as : List DispAnswer}
    (fits : windowOk x y w h = true) (ans : d.answers = List.replicate 5 .ok ++ as) :
    Dsq.Completes c (doWin c x y w h) d
      { (d.setWindow x y w h).traffic (winItems c x y w h) as with winValid := true } := by
  simp only [List.replicate, List.cons_append, List.nil_append] at ans
  simp only [doWin, fits, if_true]
  refine completes_cons rfl (completes_cons (act_cmd_ok c _ ans) (completes_cons (act_data_ok c _ rfl)
    (completes_cons (act_cmd_ok c _ rfl) (completes_cons (act_data_ok c _ rfl)
    (completes_cons (act_cmd_ok c _ rfl) (completes_cons rfl ?_))))))
  convert completes_nil c _ using 1
  simp [Dsq.traffic, Dsq.setWindow, winItems]

/-- A window that does not fit is rejected before anything is issued. -/
theorem Dsq.raises_doWin_range {c : Config} {x y w h : Nat} (fits : windowOk x y w h = false) (d : Dsq) :
    Dsq.Raises c (doWin c x y w h) .errRange d d := by
  simp only [doWin, fits, Bool.false_eq_true, if_false]
  exact raises_cons rfl

/-- A window sequence that fits, failing at its transaction `k + 1`. -/
theorem Dsq.raises_doWin {c : Config} {x y w h k : Nat} {d : Dsq} {as : List DispAnswer}
    (fits : windowOk x y w h = true) (hk : k < 5) (ans : d.answers = List.replicate k .ok ++ .fail :: as) :
    Dsq.Raises c (doWin c x y w h) .errDbus d
      { d.traffic (failAfter k (winItems c x y w h)) as with winValid := false } := by
  simp only [doWin, fits, if_true]
  apply raises_cons_done rfl
  rcases k with _ | _ | _ | _ | _ | k
  · exact raises_cons (act_cmd_fail c _ ans)
  · refine raises_cons_done (act_cmd_ok c _ ans) (raises_cons ?_)
    exact (act_data_fail (as := as) c _ (by rfl)).trans (by simp [Dsq.traffic, winItems, failAfter])
  · refine raises_cons_done (act_cmd_ok c _ ans) (raises_cons_done (act_data_ok c _ rfl) (raises_cons ?_))
    exact (act_cmd_fail (as := as) c _ (by rfl)).trans (by simp [Dsq.traffic, winItems, failAfter])
  · refine raises_cons_done (act_cmd_ok c _ ans) (raises_cons_done (act_data_ok c _ rfl)
      (raises_cons_done (act_cmd_ok c _ rfl) (raises_cons ?_)))
    exact (act_data_fail (as := as) c _ (by rfl)).trans (by simp [Dsq.traffic, winItems, failAfter])
  · refine raises_cons_done (act_cmd_ok c _ ans) (raises_cons_done (act_data_ok c _ rfl)
      (raises_cons_done (act_cmd_ok c _ rfl) (raises_cons_done (act_data_ok c _ rfl) (raises_cons ?_))))
    exact (act_cmd_fail (as := as) c _ (by rfl)).trans (by simp [Dsq.traffic, winItems, failAfter])
  · omega

/-! ### The pixel loop (R91) -/

/-- Under PER_PIXEL, `n` pixels with `n` OK answers. -/
theorem Dsq.sendPixels_ok (v : Colour) (n : Nat) (as : List DispAnswer) (d : Dsq) :
    Dsq.sendPixels .perPixel v (List.replicate n .ok ++ as) n d = .done (d.traffic (fillItems n v) as) := by
  induction n generalizing d with
  | zero => simp [Dsq.sendPixels, Dsq.traffic, fillItems]
  | succ n ih =>
    simp only [List.replicate_succ, List.cons_append, Dsq.sendPixels, groupSize, nextDraw, Nat.add_sub_cancel]
    rw [ih]
    simp [Dsq.traffic, fillItems, List.replicate_succ, pixelRun]

/-- Under PER_PIXEL, a failure after `k` of `n` pixels. -/
theorem Dsq.sendPixels_fail (v : Colour) (n k : Nat) (hk : k < n) (as : List DispAnswer) (d : Dsq) :
    Dsq.sendPixels .perPixel v (List.replicate k .ok ++ .fail :: as) n d =
      .raise .errDbus (d.traffic (fillItems k v ++ [.data (pixelBytes v) .fail]) as) := by
  induction k generalizing n d with
  | zero =>
    obtain ⟨n, rfl⟩ : ∃ m, n = m + 1 := ⟨n - 1, by omega⟩
    simp [Dsq.sendPixels, Dsq.traffic, fillItems, groupSize, nextDraw, pixelRun]
  | succ k ih =>
    obtain ⟨n, rfl⟩ : ∃ m, n = m + 1 := ⟨n - 1, by omega⟩
    simp only [List.replicate_succ, List.cons_append, Dsq.sendPixels, groupSize, nextDraw, Nat.add_sub_cancel]
    rw [ih n (by omega)]
    simp [Dsq.traffic, fillItems, List.replicate_succ, pixelRun]

/-- A group of a fill carries at least one pixel and no more than are left (R63). -/
theorem groupSize_bounds (f : FillFraming) (draw left : Nat) (h : 0 < left) :
    1 ≤ groupSize f draw left ∧ groupSize f draw left ≤ left := by
  cases f with
  | perPixel => exact ⟨Nat.le_refl _, h⟩
  | coalesced => exact ⟨Nat.succ_le_succ (Nat.zero_le _), Nat.mod_lt _ h⟩

/-- A fill of a primed window under PER_PIXEL, every pixel answered OK. -/
theorem Dsq.completes_doFill {c : Config} {v : Colour} {d : Dsq} {n : Nat} {as : List DispAnswer}
    (fr : c.fillFraming = .perPixel) (valid : d.winValid = true)
    (hn : extent d.winX0 d.winX1 * extent d.winY0 d.winY1 = n) (ans : d.answers = List.replicate n .ok ++ as) :
    Dsq.Completes c (doFill v) d { d.traffic (fillItems n v) as with winValid := false } := by
  refine completes_cons (d' := d) (by simp [Dsq.act, valid]) (completes_cons rfl (completes_cons ?_ (completes_nil c _)))
  simp only [Dsq.act, fr, hn, ans, Dsq.sendPixels_ok]
  rfl

/-- A fill without a window is refused before anything is issued. -/
theorem Dsq.raises_doFill_window {c : Config} {v : Colour} {d : Dsq} (valid : d.winValid = false) :
    Dsq.Raises c (doFill v) .errNoWindow d d :=
  raises_cons (by simp [Dsq.act, valid])

/-- A fill of a primed window under PER_PIXEL failing after `k` pixels. -/
theorem Dsq.raises_doFill {c : Config} {v : Colour} {d : Dsq} {n k : Nat} {as : List DispAnswer}
    (fr : c.fillFraming = .perPixel) (valid : d.winValid = true)
    (hn : extent d.winX0 d.winX1 * extent d.winY0 d.winY1 = n) (hk : k < n)
    (ans : d.answers = List.replicate k .ok ++ .fail :: as) :
    Dsq.Raises c (doFill v) .errDbus d
      { d.traffic (fillItems k v ++ [.data (pixelBytes v) .fail]) as with winValid := false } := by
  refine raises_cons_done (d' := d) (by simp [Dsq.act, valid]) (raises_cons_done rfl (raises_cons ?_))
  simp only [Dsq.act, fr, hn, ans, Dsq.sendPixels_fail _ _ _ hk]
  rfl

/-! ### Requests -/

/-- A well-formed request to an idle unit is performed. -/
theorem State.request_idle {i : Instr} {s : State} (perform : State → State) (wf : i.wellFormed s.cfg = true)
    (idle : s.unitBusy i.unit = false) : s.request i perform = .next (perform s) := by
  simp [State.request, wf, idle]

/-- A well-formed request to a busy unit is held (R149). -/
theorem State.request_busy {i : Instr} {s : State} (perform : State → State) (wf : i.wellFormed s.cfg = true)
    (busy : s.unitBusy i.unit = true) : s.request i perform = .next (s.hold i) := by
  simp [State.request, wf, busy]

/-- An ill-formed request is refused (R68). -/
theorem State.request_illFormed {i : Instr} {s : State} (perform : State → State) (wf : i.wellFormed s.cfg = false) :
    s.request i perform = .next s.refuse := by
  simp [State.request, wf]

/-- A well-formed request of DSQ, the unit idle. -/
theorem State.dsqRequest_idle {i : Instr} {lines : List DAct} {s : State} (wf : i.wellFormed s.cfg = true)
    (unit : i.unit = .dsq) (idle : s.dsq.busy = false) :
    s.dsqRequest i lines = .next { s with dsq := s.dsq.start s.cfg lines } :=
  request_idle _ wf (by rw [unit]; exact idle)

/-- A well-formed request of TPC, the unit idle. -/
theorem State.tpcRequest_idle {i : Instr} {result : TpcResult} {lines : List TAct} {s : State}
    (wf : i.wellFormed s.cfg = true) (unit : i.unit = .tpc) (idle : s.tpc.busy = false) :
    s.tpcRequest i result lines = .next { s with tpc := s.tpc.start s.cfg result lines } :=
  request_idle _ wf (by rw [unit]; exact idle)

/-- What a request can come to. -/
theorem State.request_cases {i : Instr} {s t : State} {perform : State → State} (h : s.request i perform = .next t) :
    (i.wellFormed s.cfg = false ∧ t = s.refuse) ∨
    (i.wellFormed s.cfg = true ∧ s.unitBusy i.unit = true ∧ t = s.hold i) ∨
    (i.wellFormed s.cfg = true ∧ s.unitBusy i.unit = false ∧ t = perform s) := by
  unfold State.request at h
  split at h
  · split at h <;> simp_all
  · simp_all

end Sys2Proof.Machine
end

