-- ==== Sys2Proof/Laws/Draw.lean ====
section
/-!
SUPPORT. Drawing: the extent of a window that fits, one block (a window and its fill), lists of blocks, the transaction
count and the failing traffic of a stretch of display-bus items.
-/
namespace Sys2Proof.Machine

/-! ### Windows that fit -/

theorem windowOk_iff {x y w h : Nat} :
    windowOk x y w h = true ↔ 1 ≤ w ∧ 1 ≤ h ∧ x + w ≤ 240 ∧ y + h ≤ 320 := by
  simp only [windowOk, Bool.and_eq_true, decide_eq_true_eq, and_assoc]
  exact Iff.rfl

/-- The extent the registers of a set window give back (R18). -/
theorem extent_ofNat {x w : Nat} (hw : 1 ≤ w) (hx : x + w ≤ 65536) :
    extent (BitVec.ofNat 16 x) (BitVec.ofNat 16 (x + w - 1)) = w := by
  simp only [extent, BitVec.toNat_ofNat]
  omega

/-- The extents of a window that fits are its width and height. -/
theorem Dsq.extent_setWindow {x y w h : Nat} (fits : windowOk x y w h = true) (d : Dsq) :
    extent (d.setWindow x y w h).winX0 (d.setWindow x y w h).winX1 *
      extent (d.setWindow x y w h).winY0 (d.setWindow x y w h).winY1 = w * h := by
  obtain ⟨hw, hh, hx, hy⟩ := windowOk_iff.1 fits
  simp only [setWindow_winX0, setWindow_winX1, setWindow_winY0, setWindow_winY1]
  rw [extent_ofNat hw (by omega), extent_ofNat hh (by omega)]

/-- If a character's box fits, so does the block of any of its 64 cells (R97). -/
theorem windowOk_cell {x y scale row col : Nat} (box : windowOk x y (8 * scale) (8 * scale) = true)
    (hr : row < 8) (hc : col < 8) : windowOk (x + col * scale) (y + row * scale) scale scale = true := by
  rw [windowOk_iff] at box ⊢
  have h1 : col * scale + scale ≤ 8 * scale := by
    calc col * scale + scale = (col + 1) * scale := by ring
      _ ≤ 8 * scale := Nat.mul_le_mul_right _ (by omega)
  have h2 : row * scale + scale ≤ 8 * scale := by
    calc row * scale + scale = (row + 1) * scale := by ring
      _ ≤ 8 * scale := Nat.mul_le_mul_right _ (by omega)
  omega

/-- The painted cells of a glyph lie in the 8 × 8 grid. -/
theorem paintedCells_bounds {c : Config} {cp : Byte} {rc : Nat × Nat} (h : rc ∈ paintedCells c cp) :
    rc.1 < 8 ∧ rc.2 < 8 := by
  simp only [paintedCells, List.mem_filter, List.mem_flatMap, List.mem_map, List.mem_range] at h
  obtain ⟨⟨row, hr, col, hc, rfl⟩, -⟩ := h
  exact ⟨hr, hc⟩

/-! ### Pixels -/

/-- The bytes of a colour given by its channels (R49). -/
theorem pixelBytes_rgb (r g b : Byte) : pixelBytes (rgb r g b) = [r, g, b] := by
  simp only [pixelBytes, rgb, List.cons.injEq, and_true]
  refine ⟨?_, ?_, ?_⟩ <;> apply BitVec.eq_of_getLsbD_eq <;> intro i hi <;>
    simp only [BitVec.getLsbD_extractLsb', BitVec.getLsbD_append, hi, decide_true, Bool.true_and]
  · rw [if_neg (by omega), if_neg (by omega)]
    congr 1
    omega
  · rw [if_neg (by omega), if_pos (by omega)]
    congr 1
    omega
  · rw [if_pos (by omega)]
    congr 1
    omega

/-- The colour of its own bytes (R131 (c)). -/
theorem rgb_pixelBytes (v : Colour) :
    rgb (v.extractLsb' 16 8) (v.extractLsb' 8 8) (v.extractLsb' 0 8) = v := by
  apply BitVec.eq_of_getLsbD_eq
  intro i hi
  simp only [rgb, BitVec.getLsbD_extractLsb', BitVec.getLsbD_append]
  split
  · rename_i low
    simp [low]
  · split
    · rename_i mid
      simp only [mid, decide_true, Bool.true_and]
      congr 1
      omega
    · have high : i - 8 - 8 < 8 := by omega
      simp only [high, decide_true, Bool.true_and]
      congr 1
      omega

/-! ### Blocks -/

/-- The lines that draw a block. -/
def Block.lines (c : Config) (b : Block) : List DAct := doWin c b.x b.y b.side b.side ++ doFill b.colour

/-- do_char is its blocks' lines, one after the other (R97). -/
theorem doChar_eq_blocks (c : Config) (bg : Colour) (x y : Nat) (cp : Byte) (scale : Nat) (fg : Colour) :
    doChar c bg x y cp scale fg = (charBlocks c bg x y cp scale fg).flatMap (Block.lines c) := by
  unfold doChar charBlocks
  split
  · simp [Block.lines, List.flatMap_map]
  · rfl

/-- DSTR is its blocks' lines, one after the other (R100). -/
theorem dstrLines_eq_blocks (c : Config) (bg : Colour) (x y scale : Nat) (fg : Colour) (text : List Byte) :
    dstrLines c bg x y scale fg text = (stringBlocks c bg x y scale fg text).flatMap (Block.lines c) := by
  simp [dstrLines, stringBlocks, List.flatMap_assoc, doChar_eq_blocks]

/-- DSQ after one block: its window in the registers, consumed by its fill. -/
def Dsq.afterBlock (b : Block) (d : Dsq) : Dsq := { d.setWindow b.x b.y b.side b.side with winValid := false }

/-- A block that fits, under PER_PIXEL, every transaction answered OK. -/
theorem Dsq.completes_block {c : Config} {b : Block} {d : Dsq} {as : List DispAnswer}
    (fr : c.fillFraming = .perPixel) (fits : b.fits = true)
    (ans : d.answers = List.replicate (5 + b.side * b.side) .ok ++ as) :
    Dsq.Completes c (b.lines c) d ((d.traffic (b.items c) as).afterBlock b) := by
  rw [List.replicate_add, List.append_assoc] at ans
  refine completes_append (completes_doWin fits ans) ?_
  have fill := completes_doFill (v := b.colour) (n := b.side * b.side) (as := as)
    (d := { (d.setWindow b.x b.y b.side b.side).traffic (winItems c b.x b.y b.side b.side)
      (List.replicate (b.side * b.side) .ok ++ as) with winValid := true }) fr rfl (extent_setWindow fits d) rfl
  convert fill using 1
  simp [Dsq.traffic, Dsq.setWindow, Dsq.afterBlock, Block.items]

theorem Dsq.afterBlocks_cons (b : Block) (bs : List Block) (d : Dsq) :
    d.afterBlocks (b :: bs) = (d.afterBlock b).afterBlocks bs := by
  cases bs with
  | nil => rfl
  | cons b' bs =>
    unfold Dsq.afterBlocks
    rw [List.getLast?_cons_cons]
    cases h : (b' :: bs).getLast? with
    | none => simp at h
    | some l => rfl

theorem Dsq.traffic_afterBlock (b : Block) (items : List DispItem) (as : List DispAnswer) (d : Dsq) :
    (d.afterBlock b).traffic items as = (d.traffic items as).afterBlock b := rfl

theorem transactions_append (i j : List DispItem) : transactions (i ++ j) = transactions i + transactions j := by
  induction i with
  | nil => simp [transactions]
  | cons a i ih => cases a <;> simp [transactions, ih] <;> omega

theorem transactions_fillItems (n : Nat) (v : Colour) : transactions (fillItems n v) = n := by
  induction n with
  | zero => rfl
  | succ n ih => simpa [fillItems, List.replicate_succ, transactions] using ih

theorem Block.transactions_items (c : Config) (b : Block) : transactions (b.items c) = 5 + b.side * b.side := by
  rw [Block.items, transactions_append, transactions_fillItems]
  rfl

/-- Blocks that fit, under PER_PIXEL, every transaction answered OK. -/
theorem Dsq.completes_blocks {c : Config} {bs : List Block} {d : Dsq} {as : List DispAnswer}
    (fr : c.fillFraming = .perPixel) (fits : bs.all Block.fits = true)
    (ans : d.answers = List.replicate (transactions (blocksItems c bs)) .ok ++ as) :
    Dsq.Completes c (bs.flatMap (Block.lines c)) d ((d.traffic (blocksItems c bs) as).afterBlocks bs) := by
  induction bs generalizing d with
  | nil =>
    have h : d.answers = as := by simpa [blocksItems, transactions] using ans
    subst h
    simpa [blocksItems, Dsq.afterBlocks] using completes_nil c d
  | cons b bs ih =>
    simp only [List.all_cons, Bool.and_eq_true] at fits
    simp only [blocksItems, List.flatMap_cons, transactions_append, List.replicate_add, List.append_assoc,
      Block.transactions_items] at ans
    rw [← List.append_assoc, ← List.replicate_add] at ans
    rw [List.flatMap_cons]
    refine completes_append (completes_block fr fits.1 ans) ?_
    have tail := ih (d := (d.traffic (b.items c)
      (List.replicate (transactions (blocksItems c bs)) .ok ++ as)).afterBlock b) fits.2 rfl
    rwa [traffic_afterBlock, traffic_traffic, ← afterBlocks_cons] at tail

/-! ### Failing traffic -/

theorem failAfter_append_left {k : Nat} {i : List DispItem} (h : k < transactions i) (j : List DispItem) :
    failAfter k (i ++ j) = failAfter k i := by
  induction i generalizing k with
  | nil => simp [transactions] at h
  | cons a i ih =>
    cases a <;> cases k <;> simp_all [transactions, failAfter]

theorem failAfter_append_right {k : Nat} (i : List DispItem) (j : List DispItem) :
    failAfter (transactions i + k) (i ++ j) = i ++ failAfter k j := by
  induction i with
  | nil => simp [transactions]
  | cons a i ih =>
    cases a <;> simp_all [transactions, failAfter, Nat.add_right_comm]

theorem failAfter_fillItems {k n : Nat} (h : k < n) (v : Colour) :
    failAfter k (fillItems n v) = fillItems k v ++ [.data (pixelBytes v) .fail] := by
  induction k generalizing n with
  | zero =>
    obtain ⟨n, rfl⟩ : ∃ m, n = m + 1 := ⟨n - 1, by omega⟩
    simp [fillItems, List.replicate_succ, failAfter]
  | succ k ih =>
    obtain ⟨n, rfl⟩ : ∃ m, n = m + 1 := ⟨n - 1, by omega⟩
    simpa [fillItems, List.replicate_succ, failAfter] using ih (by omega)

/-- A block that fits, failing at its transaction `k + 1`: the traffic, and nothing but the window registers and
`WIN_VALID` changed. -/
theorem Dsq.raises_block {c : Config} {b : Block} {d : Dsq} {k : Nat} {as : List DispAnswer}
    (fr : c.fillFraming = .perPixel) (fits : b.fits = true) (hk : k < 5 + b.side * b.side)
    (ans : d.answers = List.replicate k .ok ++ .fail :: as) :
    ∃ d', Dsq.Raises c (b.lines c) .errDbus d d' ∧ d'.trace = d.trace ++ failAfter k (b.items c) ∧ d'.answers = as ∧
      d'.bgColor = d.bgColor ∧ d'.responses = d.responses ∧ d'.groupDraws = d.groupDraws := by
  by_cases h5 : k < 5
  · refine ⟨_, raises_append_left (raises_doWin fits h5 ans), ?_, rfl, rfl, rfl, rfl⟩
    rw [Block.items, failAfter_append_left (by simpa [winItems, transactions] using h5)]
    rfl
  · obtain ⟨m, rfl⟩ : ∃ m, k = 5 + m := ⟨k - 5, by omega⟩
    rw [List.replicate_add, List.append_assoc] at ans
    refine ⟨_, raises_append (completes_doWin fits ans) (raises_doFill (k := m) fr rfl (extent_setWindow fits d)
      (by omega) rfl), ?_, rfl, rfl, rfl, rfl⟩
    rw [Block.items, show 5 = transactions (winItems c b.x b.y b.side b.side) from rfl, failAfter_append_right,
      failAfter_fillItems (by omega)]
    simp [Dsq.traffic]

/-- Blocks that fit, failing at transaction `k + 1` of all of them. -/
theorem Dsq.raises_blocks {c : Config} {bs : List Block} {d : Dsq} {k : Nat} {as : List DispAnswer}
    (fr : c.fillFraming = .perPixel) (fits : bs.all Block.fits = true) (hk : k < transactions (blocksItems c bs))
    (ans : d.answers = List.replicate k .ok ++ .fail :: as) :
    ∃ d', Dsq.Raises c (bs.flatMap (Block.lines c)) .errDbus d d' ∧
      d'.trace = d.trace ++ failAfter k (blocksItems c bs) ∧ d'.answers = as ∧ d'.bgColor = d.bgColor ∧
      d'.responses = d.responses ∧ d'.groupDraws = d.groupDraws := by
  induction bs generalizing d k with
  | nil => simp [blocksItems, transactions] at hk
  | cons b bs ih =>
    simp only [List.all_cons, Bool.and_eq_true] at fits
    have split_items : blocksItems c (b :: bs) = b.items c ++ blocksItems c bs := rfl
    have count := Block.transactions_items c b
    rw [split_items, transactions_append, count] at hk
    rw [List.flatMap_cons, split_items]
    by_cases hb : k < 5 + b.side * b.side
    · obtain ⟨d', hr, ht, rest⟩ := raises_block fr fits.1 hb ans
      exact ⟨d', raises_append_left hr, by rw [ht, failAfter_append_left (by omega)], rest⟩
    · obtain ⟨m, rfl⟩ : ∃ m, k = 5 + b.side * b.side + m := ⟨k - (5 + b.side * b.side), by omega⟩
      rw [List.replicate_add, List.append_assoc] at ans
      obtain ⟨d', hr, ht, ha, hb', hrs, hg⟩ :=
        ih (d := (d.traffic (b.items c) (List.replicate m .ok ++ .fail :: as)).afterBlock b) fits.2 (by omega) rfl
      refine ⟨d', raises_append (completes_block fr fits.1 ans) hr, ?_, ha, hb', hrs, hg⟩
      rw [ht, ← count, failAfter_append_right]
      simp [Dsq.afterBlock, Dsq.traffic, Dsq.setWindow]

end Sys2Proof.Machine
end

