-- ==== Sys2Proof/Laws/Encode.lean ====
section
/-!
SUPPORT. The small lemmas of the encodings: u16 fields, operation codes, device addresses, length bytes.
-/
namespace Sys2Proof

/-- The bits of a u16 field, from its two bytes (R8). -/
theorem getLsbD_be16 (a b : Byte) (i : Nat) :
    (be16 a b).getLsbD i = if i < 8 then b.getLsbD i else a.getLsbD (i - 8) := by
  have h : (be16 a b).getLsbD i = (a ++ b : BitVec (8 + 8)).getLsbD i := rfl
  rw [h, BitVec.getLsbD_append]

@[simp] theorem be16_hi_lo (v : Half) : be16 (hi v) (lo v) = v := by
  apply BitVec.eq_of_getLsbD_eq
  intro i h
  rw [getLsbD_be16]
  split
  · rename_i low
    simp only [lo, BitVec.getLsbD_extractLsb', low, decide_true, Bool.true_and, Nat.zero_add]
  · rename_i high
    have : i - 8 < 8 := by omega
    simp only [hi, BitVec.getLsbD_extractLsb', this, decide_true, Bool.true_and]
    rw [show 8 + (i - 8) = i by omega]

@[simp] theorem hi_be16 (a b : Byte) : hi (be16 a b) = a := by
  apply BitVec.eq_of_getLsbD_eq
  intro i h
  have : ¬ 8 + i < 8 := by omega
  simp only [hi, BitVec.getLsbD_extractLsb', h, decide_true, Bool.true_and, getLsbD_be16, this, if_false,
    Nat.add_sub_cancel_left]

@[simp] theorem lo_be16 (a b : Byte) : lo (be16 a b) = b := by
  apply BitVec.eq_of_getLsbD_eq
  intro i h
  simp only [lo, BitVec.getLsbD_extractLsb', h, decide_true, Bool.true_and, getLsbD_be16, Nat.zero_add, if_true]

/-- Every operation's code names it (R66). -/
theorem Op.ofByte_code (o : Op) : Op.ofByte o.code = some o := by
  cases o <;> rfl

/-- A byte that names an operation is its code. -/
theorem Op.code_of_ofByte {b : Byte} {o : Op} (h : Op.ofByte b = some o) : o.code = b := by
  simpa using List.find?_some h

/-- A request that begins with an operation's code is decoded by that operation's layout. -/
theorem decodeRequest_code (o : Op) (args : List Byte) : decodeRequest (o.code :: args) = decodeArgs o args := by
  simp only [decodeRequest, Op.ofByte_code]

/-- The layout of DDATA (R66). -/
theorem decodeArgs_ddata (n1 n0 : Byte) (s : List Byte) :
    decodeArgs .ddata (n1 :: n0 :: s) =
      if s.length = (be16 n1 n0).toNat then .ok (.ddata s) else .error (.badLength 0x03#8) := rfl

/-- The layout of DWIN (R66). -/
theorem decodeArgs_dwin (x y w h : Half) :
    decodeArgs .dwin (u16Bytes x ++ u16Bytes y ++ u16Bytes w ++ u16Bytes h) = .ok (.dwin x y w h) := by
  have shape : decodeArgs .dwin (u16Bytes x ++ u16Bytes y ++ u16Bytes w ++ u16Bytes h) =
    .ok (.dwin (be16 (hi x) (lo x)) (be16 (hi y) (lo y)) (be16 (hi w) (lo w)) (be16 (hi h) (lo h))) := rfl
  rw [shape, be16_hi_lo, be16_hi_lo, be16_hi_lo, be16_hi_lo]

/-- The layout of DCHAR (R66). -/
theorem decodeArgs_dchar (x y : Half) (cp scale r g b : Byte) :
    decodeArgs .dchar (u16Bytes x ++ u16Bytes y ++ [cp, scale, r, g, b]) = .ok (.dchar x y cp scale r g b) := by
  have shape : decodeArgs .dchar (u16Bytes x ++ u16Bytes y ++ [cp, scale, r, g, b]) =
    .ok (.dchar (be16 (hi x) (lo x)) (be16 (hi y) (lo y)) cp scale r g b) := rfl
  rw [shape, be16_hi_lo, be16_hi_lo]

/-- The layout of DSTR (R66). -/
theorem decodeArgs_dstr (x y : Half) (scale r g b n : Byte) (text : List Byte) :
    decodeArgs .dstr (u16Bytes x ++ u16Bytes y ++ [scale, r, g, b, n] ++ text) =
      if text.length = n.toNat then .ok (.dstr x y scale r g b text) else .error (.badLength 0x08#8) := by
  have shape : decodeArgs .dstr (u16Bytes x ++ u16Bytes y ++ [scale, r, g, b, n] ++ text) =
    if text.length = n.toNat then .ok (.dstr (be16 (hi x) (lo x)) (be16 (hi y) (lo y)) scale r g b text)
    else .error (.badLength 0x08#8) := rfl
  rw [shape, be16_hi_lo, be16_hi_lo]

/-- The byte of a 7-bit device address reads as that address (R66). -/
theorem devAddr_setWidth (a : DevAddr) : devAddr (a.setWidth 8) = some a := by
  revert a
  decide

/-- The layout of RREAD (R66). -/
theorem decodeArgs_rread (a : DevAddr) (reg : Byte) : decodeArgs .rread [a.setWidth 8, reg] = .ok (.rread a reg) := by
  have shape : decodeArgs .rread [a.setWidth 8, reg] = match devAddr (a.setWidth 8) with
    | some addr => .ok (.rread addr reg)
    | none => .error (.badAddr (a.setWidth 8)) := rfl
  rw [shape, devAddr_setWidth]

/-- The layout of RWRITE (R66). -/
theorem decodeArgs_rwrite (a : DevAddr) (reg val : Byte) :
    decodeArgs .rwrite [a.setWidth 8, reg, val] = .ok (.rwrite a reg val) := by
  have shape : decodeArgs .rwrite [a.setWidth 8, reg, val] = match devAddr (a.setWidth 8) with
    | some addr => .ok (.rwrite addr reg val)
    | none => .error (.badAddr (a.setWidth 8)) := rfl
  rw [shape, devAddr_setWidth]

/-- A byte that reads as a device address is that address's byte. -/
theorem setWidth_of_devAddr {b : Byte} {a : DevAddr} (h : devAddr b = some a) : a.setWidth 8 = b := by
  revert a
  revert b
  decide

/-- The count and the delay flag of a length byte (R70). -/
theorem lenByte_fields {n : Nat} (delay : Bool) (h : n < 128) :
    argCount (lenByte delay n) = n ∧ delayFlag (lenByte delay n) = delay := by
  have all : ∀ (delay : Bool) (k : BitVec 7),
      argCount (BitVec.ofBool delay ++ k) = k.toNat ∧ delayFlag (BitVec.ofBool delay ++ k) = delay := by decide
  have := all delay (BitVec.ofNat 7 n)
  simpa [lenByte, Nat.mod_eq_of_lt h] using this

end Sys2Proof
end

