-- ==== Sys2Proof/Laws/Exec.lean ====
section
/-!
SUPPORT. exec of each host request on an idle unit, as the start of its lines; and the same request on a busy unit or out
of limits, for all requests at once.
-/
namespace Sys2Proof.Machine

theorem exec_dinit_idle {s : State} (ok : configOk s.cfg = true) (idle : s.dsq.busy = false) :
    exec .dinit s = .next { s with
      dsq := Dsq.replay s.cfg s.cfg.initTable.length (s.dsq.start s.cfg (dinitLines s.cfg)) } := by
  have h : execDinit s = s.request .dinit fun s =>
      { s with dsq := Dsq.replay s.cfg s.cfg.initTable.length (s.dsq.start s.cfg (dinitLines s.cfg)) } := by
    simp only [execDinit, ok, if_true]
  exact h.trans (State.request_idle _ rfl idle)

theorem exec_dcmd_idle {s : State} (b : Byte) (idle : s.dsq.busy = false) :
    exec (.dcmd b) s = .next { s with dsq := s.dsq.start s.cfg [.clearWinValid, .cmd b] } :=
  State.dsqRequest_idle (i := .dcmd b) rfl rfl idle

theorem exec_ddata_idle {s : State} {bytes : List Byte} (wf : (Instr.ddata bytes).wellFormed s.cfg = true)
    (idle : s.dsq.busy = false) :
    exec (.ddata bytes) s = .next { s with dsq := s.dsq.start s.cfg (ddataLines bytes) } :=
  State.dsqRequest_idle wf rfl idle

theorem exec_dwin_idle {s : State} (x y w h : Half) (idle : s.dsq.busy = false) :
    exec (.dwin x y w h) s =
      .next { s with dsq := s.dsq.start s.cfg (doWin s.cfg x.toNat y.toNat w.toNat h.toNat) } :=
  State.dsqRequest_idle (i := .dwin x y w h) rfl rfl idle

theorem exec_dfill_idle {s : State} (r g b : Byte) (idle : s.dsq.busy = false) :
    exec (.dfill r g b) s = .next { s with dsq := s.dsq.start s.cfg (doFill (rgb r g b)) } :=
  State.dsqRequest_idle (i := .dfill r g b) rfl rfl idle

theorem exec_dbgset_idle {s : State} (r g b : Byte) (idle : s.dsq.busy = false) :
    exec (.dbgset r g b) s = .next { s with dsq := s.dsq.start s.cfg [.setBg (rgb r g b)] } :=
  State.dsqRequest_idle (i := .dbgset r g b) rfl rfl idle

theorem exec_dchar_idle {s : State} (x y : Half) (cp scale r g b : Byte) (idle : s.dsq.busy = false) :
    exec (.dchar x y cp scale r g b) s = .next { s with
      dsq := s.dsq.start s.cfg (doChar s.cfg s.dsq.bgColor x.toNat y.toNat cp scale.toNat (rgb r g b)) } :=
  State.dsqRequest_idle (i := .dchar x y cp scale r g b) rfl rfl idle

theorem exec_dstr_idle {s : State} {x y : Half} {scale r g b : Byte} {text : List Byte}
    (wf : (Instr.dstr x y scale r g b text).wellFormed s.cfg = true) (idle : s.dsq.busy = false) :
    exec (.dstr x y scale r g b text) s = .next { s with
      dsq := s.dsq.start s.cfg (dstrLines s.cfg s.dsq.bgColor x.toNat y.toNat scale.toNat (rgb r g b) text) } :=
  State.dsqRequest_idle wf rfl idle

theorem exec_rinit_idle {s : State} (idle : s.tpc.busy = false) :
    exec .rinit s = .next { s with
      tpc := s.tpc.start s.cfg .plain
        (s.cfg.readerInitSeq.map fun rv => .write s.cfg.rfidAddr [rv.1, rv.2] true) } :=
  State.tpcRequest_idle (i := .rinit) rfl rfl idle

theorem exec_rpoll_idle {s : State} (idle : s.tpc.busy = false) :
    exec .rpoll s = .next { s with tpc := s.tpc.start s.cfg .poll (rpollLines s.cfg) } :=
  State.tpcRequest_idle (i := .rpoll) rfl rfl idle

theorem exec_rpres_idle {s : State} (idle : s.tpc.busy = false) :
    exec .rpres s =
      .next { s with tpc := s.tpc.start s.cfg .presence (doRread s.cfg.rfidAddr s.cfg.regPresence) } :=
  State.tpcRequest_idle (i := .rpres) rfl rfl idle

theorem exec_rread_idle {s : State} (a : DevAddr) (reg : Byte) (idle : s.tpc.busy = false) :
    exec (.rread a reg) s = .next { s with tpc := s.tpc.start s.cfg .value (doRread a reg) } :=
  State.tpcRequest_idle (i := .rread a reg) rfl rfl idle

theorem exec_rwrite_idle {s : State} (a : DevAddr) (reg val : Byte) (idle : s.tpc.busy = false) :
    exec (.rwrite a reg val) s = .next { s with tpc := s.tpc.start s.cfg .plain [.write a [reg, val] true] } :=
  State.tpcRequest_idle (i := .rwrite a reg val) rfl rfl idle

theorem exec_rscan_idle {s : State} (idle : s.tpc.busy = false) :
    exec .rscan s = .next { s with tpc := s.tpc.start s.cfg .scan (scanAddrs.map .probe) } :=
  State.tpcRequest_idle (i := .rscan) rfl rfl idle

/-- Every host request is the port's decision about it, and what it performs touches its own unit only. -/
theorem exec_request (i : Instr) (s : State) (req : i.isRequest = true) (ok : configOk s.cfg = true) :
    ∃ perform : State → State, exec i s = s.request i perform ∧
      ((i.unit = .dsq ∧ ∀ u, ∃ d, perform u = { u with dsq := d }) ∨
       (i.unit = .tpc ∧ ∀ u, ∃ t, perform u = { u with tpc := t })) := by
  cases i
  case initEntry => simp [Instr.isRequest] at req
  case initEnd => simp [Instr.isRequest] at req
  case dinit =>
    exact ⟨_, by simp only [exec, execDinit, ok, if_true]; rfl, .inl ⟨rfl, fun u => ⟨_, rfl⟩⟩⟩
  all_goals first
    | exact ⟨_, rfl, .inl ⟨rfl, fun u => ⟨_, rfl⟩⟩⟩
    | exact ⟨_, rfl, .inr ⟨rfl, fun u => ⟨_, rfl⟩⟩⟩

end Sys2Proof.Machine
end

