-- ==== Sys2Proof/Laws/Framing.lean ====
section
/-!
SUPPORT. Drawing in any framing: what a pixel loop, a fill, a block and a list of blocks do, their traffic fixed before
the first answer; how many transactions such traffic takes.
-/
namespace Sys2Proof.Machine

/-- Whatever the framing, the pixel loop sends its pixels in groups fixed before the first answer: with an OK answer for
each group it is done, and it stops at the first group that fails. -/
theorem Dsq.sendPixels_groups (f : FillFraming) (v : Colour) (left draw : Nat) :
    ∃ (items : List DispItem) (draws : Nat), isFillTraffic f left v items ∧ ∀ d : Dsq, d.groupDraws = draw →
      (∀ as, Dsq.sendPixels f v (List.replicate items.length .ok ++ as) left d =
        .done ({ d with groupDraws := draws }.traffic items as)) ∧
      ∀ k < items.length, ∀ as, ∃ draws, Dsq.sendPixels f v (List.replicate k .ok ++ .fail :: as) left d =
        .raise .errDbus ({ d with groupDraws := draws }.traffic (failAfter k items) as) := by
  induction left using Nat.strongRecOn generalizing draw with
  | _ left ih =>
    rcases left with _ | left
    · exact ⟨[], draw, ⟨[], rfl, by simp, by simp, rfl⟩, fun d hd =>
        ⟨fun as => by simp [Dsq.sendPixels, Dsq.traffic, ← hd], fun k hk => absurd hk (Nat.not_lt_zero k)⟩⟩
    · obtain ⟨lo, hi⟩ := groupSize_bounds f draw (left + 1) (by omega)
      obtain ⟨items, draws, ⟨groups, hsum, hpos, hone, rfl⟩, run⟩ :=
        ih (left + 1 - groupSize f draw (left + 1)) (by omega) (nextDraw f draw)
      refine ⟨.data (pixelRun (groupSize f draw (left + 1)) v) .ok :: groups.map fun g => .data (pixelRun g v) .ok,
        draws, ⟨groupSize f draw (left + 1) :: groups, by rw [List.sum_cons, hsum]; omega, ?_, ?_, rfl⟩,
        fun d hd => ⟨fun as => ?_, ?_⟩⟩
      · simpa using ⟨lo, hpos⟩
      · rintro rfl
        simpa [groupSize] using hone rfl
      · obtain ⟨done, -⟩ := run { d with
          answers := List.replicate groups.length .ok ++ as
          groupDraws := nextDraw f d.groupDraws
          trace := d.trace ++ [.data (pixelRun (groupSize f d.groupDraws (left + 1)) v) .ok] } (by rw [hd])
        have h := done as
        rw [List.length_map] at h
        subst hd
        simp only [List.length_cons, List.length_map, List.replicate_succ, List.cons_append, Dsq.sendPixels]
        rw [h]
        simp [Dsq.traffic]
      · rintro (_ | k) hk as
        · refine ⟨nextDraw f d.groupDraws, ?_⟩
          subst hd
          simp [Dsq.sendPixels, failAfter, Dsq.traffic]
        · obtain ⟨-, fails⟩ := run { d with
            answers := List.replicate k .ok ++ .fail :: as
            groupDraws := nextDraw f d.groupDraws
            trace := d.trace ++ [.data (pixelRun (groupSize f d.groupDraws (left + 1)) v) .ok] } (by rw [hd])
          obtain ⟨draws, h⟩ := fails k (by simpa using hk) as
          refine ⟨draws, ?_⟩
          subst hd
          simp only [List.replicate_succ, List.cons_append, Dsq.sendPixels]
          rw [h]
          simp [Dsq.traffic, failAfter]

theorem transactions_of_isFillTraffic {f : FillFraming} {n : Nat} {v : Colour} {items : List DispItem}
    (h : isFillTraffic f n v items) : transactions items = items.length := by
  obtain ⟨groups, -, -, -, rfl⟩ := h
  induction groups with
  | nil => rfl
  | cons g gs ih => simpa [transactions] using ih

/-- A fill takes no more transactions than pixels. -/
theorem length_of_isFillTraffic {f : FillFraming} {n : Nat} {v : Colour} {items : List DispItem}
    (h : isFillTraffic f n v items) : items.length ≤ n := by
  obtain ⟨groups, rfl, pos, -, rfl⟩ := h
  rw [List.length_map]
  clear * - pos
  induction groups with
  | nil => simp
  | cons g gs ih =>
    simp only [List.mem_cons, forall_eq_or_imp] at pos
    have := ih pos.2
    simp only [List.length_cons, List.sum_cons]
    omega

/-- What a fill of a primed window of `n` pixels does in any framing: its traffic is fixed before the first answer. -/
theorem Dsq.doFill_runs (c : Config) (v : Colour) (n draw : Nat) :
    ∃ (items : List DispItem) (draws : Nat), isFillTraffic c.fillFraming n v items ∧ ∀ d : Dsq, d.groupDraws = draw → d.winValid = true →
      extent d.winX0 d.winX1 * extent d.winY0 d.winY1 = n →
      (∀ as, d.answers = List.replicate items.length .ok ++ as → Dsq.Completes c (doFill v) d
        { { d with groupDraws := draws }.traffic items as with winValid := false }) ∧
      ∀ k < items.length, ∀ as, d.answers = List.replicate k .ok ++ .fail :: as → ∃ draws,
        Dsq.Raises c (doFill v) .errDbus d
          { { d with groupDraws := draws }.traffic (failAfter k items) as with winValid := false } := by
  obtain ⟨items, draws, isFill, run⟩ := Dsq.sendPixels_groups c.fillFraming v n draw
  refine ⟨items, draws, isFill, fun d hd valid hn => ⟨fun as ans => ?_, fun k hk as ans => ?_⟩⟩
  · have h := (run { d with winValid := false } hd).1 as
    refine completes_cons (d' := d) (by simp [Dsq.act, valid]) (completes_cons rfl (completes_cons ?_
      (completes_nil c _)))
    exact (congrArg₂ (fun as n => Dsq.sendPixels c.fillFraming v as n { d with winValid := false }) ans hn).trans h
  · obtain ⟨draws, h⟩ := (run { d with winValid := false } hd).2 k hk as
    refine ⟨draws, raises_cons_done (d' := d) (by simp [Dsq.act, valid]) (raises_cons_done rfl (raises_cons ?_))⟩
    exact (congrArg₂ (fun as n => Dsq.sendPixels c.fillFraming v as n { d with winValid := false }) ans hn).trans h

/-- What one block that fits does in any framing: its fill's traffic is fixed before the first answer. -/
theorem Dsq.block_runs {c : Config} {b : Block} (fits : b.fits = true) (draw : Nat) :
    ∃ (fill : List DispItem) (draws : Nat), isFillTraffic c.fillFraming (b.side * b.side) b.colour fill ∧
      ∀ d : Dsq, d.groupDraws = draw →
      (∀ as, d.answers = List.replicate (5 + fill.length) .ok ++ as → Dsq.Completes c (b.lines c) d
        (({ d with groupDraws := draws }.traffic (winItems c b.x b.y b.side b.side ++ fill) as).afterBlock b)) ∧
      ∀ k < 5 + fill.length, ∀ as, d.answers = List.replicate k .ok ++ .fail :: as → ∃ draws,
        Dsq.Raises c (b.lines c) .errDbus d { ({ d with groupDraws := draws }.traffic
          (failAfter k (winItems c b.x b.y b.side b.side ++ fill)) as).afterBlocks (windowsOpened k [(b, fill)]) with
          winValid := false } := by
  obtain ⟨fill, draws, isFill, run⟩ := Dsq.doFill_runs c b.colour (b.side * b.side) draw
  simp only [Block.lines]
  refine ⟨fill, draws, isFill, fun d hd => ⟨fun as ans => ?_, fun k hk as ans => ?_⟩⟩
  · rw [List.replicate_add, List.append_assoc] at ans
    have h := (run { (d.setWindow b.x b.y b.side b.side).traffic (winItems c b.x b.y b.side b.side)
      (List.replicate fill.length .ok ++ as) with winValid := true } hd rfl (extent_setWindow fits d)).1 as rfl
    convert completes_append (completes_doWin fits ans) h using 1
    simp [Dsq.traffic, Dsq.setWindow, Dsq.afterBlock]
  · by_cases h5 : k < 5
    · refine ⟨d.groupDraws, ?_⟩
      rw [failAfter_append_left (by simpa [winItems, transactions] using h5)]
      convert raises_append_left (raises_doWin fits h5 ans) using 1
      simp [windowsOpened, h5, Dsq.afterBlocks]
    · obtain ⟨m, rfl⟩ : ∃ m, k = 5 + m := ⟨k - 5, by omega⟩
      rw [List.replicate_add, List.append_assoc] at ans
      obtain ⟨draws, h⟩ := (run { (d.setWindow b.x b.y b.side b.side).traffic (winItems c b.x b.y b.side b.side)
        (List.replicate m .ok ++ .fail :: as) with winValid := true } hd rfl (extent_setWindow fits d)).2 m (by omega) as
        rfl
      refine ⟨draws, ?_⟩
      convert raises_append (completes_doWin fits ans) h using 1
      rw [show 5 + m = transactions (winItems c b.x b.y b.side b.side) + m from rfl, failAfter_append_right,
        windowsOpened, if_neg (by simp [winItems, transactions])]
      simp [Dsq.traffic, Dsq.setWindow, Dsq.afterBlocks, windowsOpened]

theorem transactions_drawnItems_cons {c : Config} {b : Block} {fill : List DispItem}
    (drawn : List (Block × List DispItem)) (h : isFillTraffic c.fillFraming (b.side * b.side) b.colour fill) :
    transactions (drawnItems c ((b, fill) :: drawn)) = 5 + fill.length + transactions (drawnItems c drawn) := by
  rw [drawnItems, List.flatMap_cons, transactions_append, transactions_append, transactions_of_isFillTraffic h]
  rfl

/-- A drawing takes no more transactions than one with a transaction for each pixel. -/
theorem transactions_of_isDrawing {c : Config} {blocks : List Block} {drawn : List (Block × List DispItem)}
    (h : isDrawing c blocks drawn) : transactions (drawnItems c drawn) ≤ transactions (blocksItems c blocks) := by
  obtain ⟨rfl, fills⟩ := h
  induction drawn with
  | nil => exact Nat.le_refl 0
  | cons bf drawn ih =>
    simp only [List.mem_cons, forall_eq_or_imp] at fills
    have one := length_of_isFillTraffic fills.1
    have rest := ih fills.2
    rw [transactions_drawnItems_cons _ fills.1]
    simp only [blocksItems, List.map_cons, List.flatMap_cons, transactions_append, Block.transactions_items] at rest ⊢
    omega

/-- Under PER_PIXEL a drawing's traffic is that of its blocks. -/
theorem drawnItems_perPixel (c : Config) (blocks : List Block) :
    drawnItems c (blocks.map fun b => (b, fillItems (b.side * b.side) b.colour)) = blocksItems c blocks := by
  simp only [drawnItems, blocksItems, List.flatMap_map]
  rfl

/-- Under PER_PIXEL there is one drawing: a transaction for each pixel. -/
theorem isDrawing_perPixel {c : Config} {blocks : List Block} {drawn : List (Block × List DispItem)}
    (fr : c.fillFraming = .perPixel) (h : isDrawing c blocks drawn) :
    drawn = blocks.map fun b => (b, fillItems (b.side * b.side) b.colour) := by
  obtain ⟨rfl, fills⟩ := h
  rw [List.map_map]
  conv => lhs; rw [← List.map_id drawn]
  apply List.map_congr_left
  rintro ⟨b, fill⟩ mem
  obtain ⟨groups, sum, -, one, traffic⟩ := fills _ mem
  have ones : groups = List.replicate groups.length 1 := List.eq_replicate_of_mem (one fr)
  rw [ones] at sum traffic
  simp only [List.sum_replicate, smul_eq_mul, Nat.mul_one] at sum
  simp only [List.map_replicate, sum] at traffic
  simp [traffic, fillItems, pixelRun]

theorem windowsOpened_cons_of_lt {b : Block} {fill : List DispItem} {k : Nat} (h : k < 5 + fill.length)
    (drawn : List (Block × List DispItem)) : windowsOpened k ((b, fill) :: drawn) = windowsOpened k [(b, fill)] := by
  have rest : windowsOpened (k - 5 - fill.length) drawn = [] := by
    rw [show k - 5 - fill.length = 0 by omega]
    cases drawn <;> rfl
  simp only [windowsOpened, rest]

/-- Drawing a block and then more blocks is drawing them all. -/
theorem Dsq.drew_cons (c : Config) (b : Block) (fill : List DispItem) (drawn : List (Block × List DispItem))
    (mid draws : Nat) (before as : List DispAnswer) (d : Dsq) :
    d.drew c ((b, fill) :: drawn) draws as =
      (({ d with groupDraws := mid }.traffic (winItems c b.x b.y b.side b.side ++ fill) before).afterBlock b).drew c drawn
        draws as := by
  rw [Dsq.drew, List.map_cons, afterBlocks_cons, Dsq.drew]
  congr 1
  simp [Dsq.traffic, Dsq.afterBlock, Dsq.setWindow, drawnItems]

/-- Drawing a block, then failing among more blocks, is failing among them all. -/
theorem Dsq.drewUntilFailure_cons {c : Config} {b : Block} {fill : List DispItem}
    (isFill : isFillTraffic c.fillFraming (b.side * b.side) b.colour fill) (drawn : List (Block × List DispItem))
    (k mid draws : Nat) (before as : List DispAnswer) (d : Dsq) :
    d.drewUntilFailure c ((b, fill) :: drawn) (5 + fill.length + k) draws as =
      (({ d with groupDraws := mid }.traffic (winItems c b.x b.y b.side b.side ++ fill)
        before).afterBlock b).drewUntilFailure c drawn k draws as := by
  have count : transactions (winItems c b.x b.y b.side b.side ++ fill) = 5 + fill.length := by
    rw [transactions_append, transactions_of_isFillTraffic isFill]
    rfl
  rw [Dsq.drewUntilFailure, windowsOpened, if_neg (by omega), show 5 + fill.length + k - 5 - fill.length = k by omega,
    afterBlocks_cons, Dsq.drewUntilFailure]
  congr 2
  simp only [drawnItems, List.flatMap_cons]
  rw [← count, failAfter_append_right]
  simp [Dsq.traffic, Dsq.afterBlock, Dsq.setWindow]

/-- What blocks that fit do in any framing: the traffic of their fills is fixed before the first answer. With an OK
answer for each transaction they are drawn; they stop at the first transaction that fails. -/
theorem Dsq.blocks_run {c : Config} {blocks : List Block} (fits : blocks.all Block.fits = true) (draw : Nat) :
    ∃ (drawn : List (Block × List DispItem)) (draws : Nat), isDrawing c blocks drawn ∧
      ∀ d : Dsq, d.groupDraws = draw →
      (∀ as, d.answers = List.replicate (transactions (drawnItems c drawn)) .ok ++ as →
        Dsq.Completes c (blocks.flatMap (Block.lines c)) d (d.drew c drawn draws as)) ∧
      ∀ k < transactions (drawnItems c drawn), ∀ as, d.answers = List.replicate k .ok ++ .fail :: as → ∃ draws d',
        Dsq.Raises c (blocks.flatMap (Block.lines c)) .errDbus d d' ∧
          d'.endedFailed = d.drewUntilFailure c drawn k draws as := by
  induction blocks generalizing draw with
  | nil =>
    refine ⟨[], draw, ⟨rfl, by simp⟩, fun d hd => ⟨fun as ans => ?_, fun k hk => absurd hk (Nat.not_lt_zero k)⟩⟩
    have h : d.answers = as := by simpa [drawnItems, transactions] using ans
    subst h
    subst hd
    have same : d.drew c [] d.groupDraws d.answers = d := by simp [Dsq.drew, drawnItems, Dsq.afterBlocks, Dsq.traffic]
    rw [same]
    exact completes_nil c d
  | cons b blocks ih =>
    simp only [List.all_cons, Bool.and_eq_true] at fits
    obtain ⟨fill, mid, isFill, one⟩ := block_runs (c := c) fits.1 draw
    obtain ⟨drawn, draws, ⟨same, fills⟩, more⟩ := ih fits.2 mid
    have items : drawnItems c ((b, fill) :: drawn) = (winItems c b.x b.y b.side b.side ++ fill) ++ drawnItems c drawn :=
      rfl
    have count : transactions (winItems c b.x b.y b.side b.side ++ fill) = 5 + fill.length := by
      rw [transactions_append, transactions_of_isFillTraffic isFill]
      rfl
    refine ⟨(b, fill) :: drawn, draws, ⟨by rw [List.map_cons, same], List.forall_mem_cons.2 ⟨isFill, fills⟩⟩,
      fun d hd => ⟨fun as ans => ?_, fun k hk as ans => ?_⟩⟩
    · rw [transactions_drawnItems_cons _ isFill, List.replicate_add, List.append_assoc] at ans
      rw [List.flatMap_cons]
      rw [drew_cons c b fill drawn mid draws (List.replicate (transactions (drawnItems c drawn)) .ok ++ as)]
      exact completes_append ((one d hd).1 _ ans) ((more _ rfl).1 as rfl)
    · rw [transactions_drawnItems_cons _ isFill] at hk
      rw [List.flatMap_cons]
      by_cases hb : k < 5 + fill.length
      · obtain ⟨draws', h⟩ := (one d hd).2 k hb as ans
        refine ⟨draws', _, raises_append_left h, ?_⟩
        rw [Dsq.drewUntilFailure, items, failAfter_append_left (count ▸ hb) (drawnItems c drawn),
          windowsOpened_cons_of_lt hb drawn]
        rfl
      · obtain ⟨m, rfl⟩ : ∃ m, k = 5 + fill.length + m := ⟨k - (5 + fill.length), by omega⟩
        rw [List.replicate_add, List.append_assoc] at ans
        obtain ⟨draws', d', h, e⟩ := (more (({ d with groupDraws := mid }.traffic
          (winItems c b.x b.y b.side b.side ++ fill)
          (List.replicate m DispAnswer.ok ++ DispAnswer.fail :: as)).afterBlock b) rfl).2 m (by omega) as rfl
        exact ⟨draws', d', raises_append ((one d hd).1 _ ans) h, e.trans (drewUntilFailure_cons isFill ..).symm⟩
end Sys2Proof.Machine
end

