-- ==== Sys2Proof/Laws/Panel.lean ====
section
/-!
SUPPORT. The reference panel model: every write keeps its memory's canonical form; a read after a write; a fill shows the
same whatever transactions its pixels are sent in.
-/
namespace Sys2Proof.Machine

/-- A write adds no cell but its own. -/
theorem mem_gramWrite {cell k : Nat} {v : Colour} {gram : List (Nat × Colour)}
    (h : k ∈ (gramWrite cell v gram).map Prod.fst) : k = cell ∨ k ∈ gram.map Prod.fst := by
  induction gram with
  | nil => simpa [gramWrite] using h
  | cons e rest ih =>
    obtain ⟨k', w⟩ := e
    simp only [gramWrite] at h
    split at h
    · simpa using h
    · split at h
      · simp only [List.map_cons, List.mem_cons] at h ⊢
        tauto
      · simp only [List.map_cons, List.mem_cons] at h ⊢
        rcases h with h | h
        · exact .inr (.inl h)
        · exact (ih h).imp_right .inr

/-- A write keeps the canonical form. -/
theorem gramWrite_wf {gram : List (Nat × Colour)} (cell : Nat) (v : Colour) (h : gramWf gram) :
    gramWf (gramWrite cell v gram) := by
  induction gram with
  | nil => simp [gramWf, gramWrite]
  | cons e rest ih =>
    obtain ⟨k, w⟩ := e
    simp only [gramWf, List.map_cons, List.pairwise_cons] at h ih ⊢
    simp only [gramWrite]
    split
    · rename_i lt
      simp only [List.map_cons, List.pairwise_cons, List.mem_cons]
      exact ⟨fun x hx => hx.elim (fun e => e ▸ lt) fun hx => Nat.lt_trans lt (h.1 x hx), h⟩
    · split
      · rename_i eq
        simp only [List.map_cons, List.pairwise_cons]
        exact ⟨eq ▸ h.1, h.2⟩
      · rename_i ge ne
        simp only [List.map_cons, List.pairwise_cons]
        refine ⟨fun x hx => ?_, ih h.2⟩
        rcases mem_gramWrite hx with rfl | hx
        · omega
        · exact h.1 x hx

/-- A read after a write: the colour in the written cell, every other cell as it was. -/
theorem gramRead_gramWrite (cell k : Nat) (v : Colour) (gram : List (Nat × Colour)) :
    gramRead k (gramWrite cell v gram) = if k = cell then some v else gramRead k gram := by
  induction gram with
  | nil =>
    by_cases h : k = cell
    · simp [gramWrite, gramRead, h]
    · simp [gramWrite, gramRead, h, Ne.symm h]
  | cons e rest ih =>
    obtain ⟨k', w⟩ := e
    simp only [gramWrite]
    split
    · by_cases h : k = cell
      · simp [gramRead, h]
      · simp [gramRead, List.find?_cons, h, Ne.symm h]
    · split
      · rename_i eq
        by_cases h : k = cell
        · simp [gramRead, h]
        · simp [gramRead, h, Ne.symm h, ← eq]
      · rename_i ne
        by_cases hk : k' = k
        · have : ¬ k = cell := by omega
          simp [gramRead, hk, this]
        · simp only [gramRead, List.find?_cons, hk, decide_false] at ih ⊢
          exact ih

/-- Making a cell unspecified keeps the canonical form. -/
theorem gramErase_wf {gram : List (Nat × Colour)} (cell : Nat) (h : gramWf gram) : gramWf (gramErase cell gram) :=
  h.sublist (List.filter_sublist.map _)

/-- A read after a cell was made unspecified. -/
theorem gramRead_gramErase (cell k : Nat) (gram : List (Nat × Colour)) :
    gramRead k (gramErase cell gram) = if k = cell then none else gramRead k gram := by
  simp only [gramRead, gramErase, List.find?_filter]
  by_cases h : k = cell
  · rw [if_pos h, List.find?_eq_none.2 fun e _ => by simp [h]]
    rfl
  · rw [if_neg h]
    congr 2
    funext e
    by_cases he : e.1 = k
    · simp [he, h]
    · simp [he]

/-- The panel's memory is in canonical form after any traffic. -/
theorem panelAfter_wf (c : Config) (trace : List DispItem) : gramWf (panelAfter c trace).gram := by
  have pixel : ∀ (k : Nat) (v : Colour) (p : Panel), gramWf p.gram → gramWf (p.pixel k v).gram := by
    intro k v p h
    unfold Panel.pixel
    split
    · exact gramWrite_wf _ _ h
    · simp [Panel.blur, gramWf]
  have spoil : ∀ (k : Nat) (p : Panel), gramWf p.gram → gramWf (p.spoil k).gram := by
    intro k p h
    unfold Panel.spoil
    split
    · exact gramErase_wf _ h
    · simp [Panel.blur, gramWf]
  have stream : ∀ (bs : List Byte) (k : Nat) (part : List Byte) (p : Panel), gramWf p.gram →
      gramWf (Panel.streamBytes bs k part p).gram := by
    intro bs k part p h
    fun_induction Panel.streamBytes bs k part p with
    | case1 => exact h
    | case2 => exact spoil _ _ h
    | case3 => exact (‹gramWf _ → _›) (pixel _ _ _ h)
    | case4 => exact (‹gramWf _ → _›) h
  have item : ∀ (p : Panel) (i : DispItem), gramWf p.gram → gramWf (p.item c i).gram := by
    intro p i h
    match i with
    | .cmd b .ok =>
      simp only [Panel.item, Panel.command]
      split_ifs <;> first | exact h | simp [Panel.blur, gramWf]
    | .data s .ok =>
      simp only [Panel.item, Panel.takeData]
      split <;> first | exact h | exact stream _ _ _ _ h | simp [Panel.blur, gramWf]
    | .cmd _ .fail => simp [Panel.item, Panel.powerUp, gramWf]
    | .data _ .fail => simp [Panel.item, Panel.powerUp, gramWf]
    | .wait _ => exact h
  have fold : ∀ (items : List DispItem) (p : Panel), gramWf p.gram → gramWf (items.foldl (Panel.item c) p).gram := by
    intro items
    induction items with
    | nil => exact fun p h => h
    | cons i items ih => exact fun p h => ih _ (item p i h)
  exact fold trace _ (by simp [Panel.powerUp, gramWf])

/-- A whole pixel at the head of a stream's bytes. -/
theorem Panel.streamBytes_pixel (v : Colour) (bs : List Byte) (k : Nat) (p : Panel) :
    Panel.streamBytes (pixelBytes v ++ bs) k [] p = Panel.streamBytes bs (k + 1) [] (p.pixel k v) := by
  simp only [pixelBytes, List.cons_append, List.nil_append, Panel.streamBytes, rgb_pixelBytes]

theorem fillItems_succ (n : Nat) (v : Colour) :
    fillItems (n + 1) v = .data (pixelBytes v) .ok :: fillItems n v := List.replicate_succ

theorem fillItems_add (m n : Nat) (v : Colour) : fillItems (m + n) v = fillItems m v ++ fillItems n v :=
  List.replicate_add ..

/-- A stream of pixels is taken pixel by pixel, whether one transaction carries them or one each does. -/
theorem Panel.streamBytes_pixelRun (c : Config) (v : Colour) (n k : Nat) (p : Panel) :
    Panel.streamBytes (pixelRun n v) k [] p =
      (fillItems n v).foldl (Panel.item c) { p with mode := .stream k [] } := by
  induction n generalizing k p with
  | zero => rfl
  | succ n ih =>
    have more : pixelRun (n + 1) v = pixelBytes v ++ pixelRun n v := by simp [pixelRun, List.replicate_succ]
    have one := streamBytes_pixel v [] k { p with mode := .stream k [] }
    rw [List.append_nil] at one
    have frame : Panel.pixel k v { p with mode := .stream k [] } = { p.pixel k v with mode := .stream k [] } := by
      have same : Panel.pixelCell { p with mode := .stream k [] } k = p.pixelCell k := rfl
      unfold Panel.pixel
      rw [same]
      cases p.pixelCell k <;> rfl
    rw [more, streamBytes_pixel, ih, fillItems_succ, List.foldl_cons]
    simp only [Panel.item, Panel.takeData]
    rw [one, frame]
    rfl

/-- On the panel every traffic of a fill is worth the fill sent one pixel in each transaction (R63). -/
theorem Panel.foldl_isFillTraffic {f : FillFraming} {n k : Nat} {v : Colour} {items : List DispItem} {p : Panel}
    (c : Config) (fill : isFillTraffic f n v items) (streaming : p.mode = .stream k []) :
    items.foldl (Panel.item c) p = (fillItems n v).foldl (Panel.item c) p := by
  obtain ⟨groups, rfl, -, -, rfl⟩ := fill
  have mode : ∀ (n k : Nat) (p : Panel), p.mode = .stream k [] →
      ((fillItems n v).foldl (Panel.item c) p).mode = .stream (k + n) [] := by
    intro n
    induction n with
    | zero => exact fun _ _ h => h
    | succ n ih =>
      intro k p h
      rw [fillItems_succ, List.foldl_cons]
      have one : (p.item c (.data (pixelBytes v) .ok)).mode = .stream (k + 1) [] := by
        have := streamBytes_pixel v [] k p
        rw [List.append_nil] at this
        simp only [Panel.item, Panel.takeData, h, this]
        rfl
      rw [ih _ _ one]
      congr 1
      omega
  induction groups generalizing k p with
  | nil => rfl
  | cons g groups ih =>
    have step : p.item c (.data (pixelRun g v) .ok) = (fillItems g v).foldl (Panel.item c) p := by
      simp only [Panel.item, Panel.takeData, streaming]
      rw [streamBytes_pixelRun c, ← streaming]
    rw [List.map_cons, List.foldl_cons, step, ih (mode g k p streaming), ← List.foldl_append, List.sum_cons,
      fillItems_add]

end Sys2Proof.Machine
end

