-- ==== Sys2Proof/Laws/PerInstr.lean ====
section
/-!
SUPPORT. One statement about every instruction as syntax: the length of its encoding is the one R66 and R72 give it, and a
request's operation code names its unit in bits 7..4 (R65).
-/
namespace Sys2Proof.Laws

/-- How many bytes the instruction takes: the length column of R66; a table entry as R72 says. -/
def byteLength : Instr → Nat
  | .dinit | .rinit | .rpoll | .rpres | .rscan | .initEnd => 1
  | .dcmd _ => 2
  | .ddata s => 3 + s.length
  | .dwin .. => 9
  | .dfill .. | .dbgset .. | .rwrite .. => 4
  | .dchar .. => 10
  | .dstr _ _ _ _ _ _ text => 10 + text.length
  | .rread .. => 3
  | .initEntry _ _ args => 2 + args.length

/-- The unit field of the operation code (R65). -/
def unitField : UnitId → BitVec 4
  | .dsq => 0x0#4
  | .tpc => 0x1#4

/-- The encoding has the length of R66 or R72, and a request's first byte its unit in bits 7..4. -/
def Encoding.Statement (i : Instr) : Prop :=
  (encode i).length = byteLength i ∧
    (i.isRequest = true → (encode i).head?.map (BitVec.extractLsb' 4 4) = some (unitField i.unit))

theorem Encoding.dinit : Encoding.Statement .dinit := ⟨rfl, fun _ => rfl⟩
theorem Encoding.dcmd (b : Byte) : Encoding.Statement (.dcmd b) := ⟨rfl, fun _ => rfl⟩
theorem Encoding.ddata (s : List Byte) : Encoding.Statement (.ddata s) :=
  ⟨by simp [encode, byteLength, u16Bytes]; omega, fun _ => rfl⟩
theorem Encoding.dwin (x y w h : Half) : Encoding.Statement (.dwin x y w h) := ⟨rfl, fun _ => rfl⟩
theorem Encoding.dfill (r g b : Byte) : Encoding.Statement (.dfill r g b) := ⟨rfl, fun _ => rfl⟩
theorem Encoding.dbgset (r g b : Byte) : Encoding.Statement (.dbgset r g b) := ⟨rfl, fun _ => rfl⟩
theorem Encoding.dchar (x y : Half) (cp scale r g b : Byte) : Encoding.Statement (.dchar x y cp scale r g b) :=
  ⟨rfl, fun _ => rfl⟩
theorem Encoding.dstr (x y : Half) (scale r g b : Byte) (text : List Byte) :
    Encoding.Statement (.dstr x y scale r g b text) :=
  ⟨by simp [encode, byteLength, u16Bytes]; omega, fun _ => rfl⟩
theorem Encoding.rinit : Encoding.Statement .rinit := ⟨rfl, fun _ => rfl⟩
theorem Encoding.rpoll : Encoding.Statement .rpoll := ⟨rfl, fun _ => rfl⟩
theorem Encoding.rpres : Encoding.Statement .rpres := ⟨rfl, fun _ => rfl⟩
theorem Encoding.rread (addr : DevAddr) (reg : Byte) : Encoding.Statement (.rread addr reg) :=
  ⟨rfl, fun _ => rfl⟩
theorem Encoding.rwrite (addr : DevAddr) (reg val : Byte) : Encoding.Statement (.rwrite addr reg val) :=
  ⟨rfl, fun _ => rfl⟩
theorem Encoding.rscan : Encoding.Statement .rscan := ⟨rfl, fun _ => rfl⟩
theorem Encoding.initEntry (cmd : Byte) (delay : Bool) (args : List Byte) :
    Encoding.Statement (.initEntry cmd delay args) :=
  ⟨by simp [encode, byteLength]; omega, fun h => absurd h (by simp [Instr.isRequest])⟩
theorem Encoding.initEnd : Encoding.Statement .initEnd := ⟨rfl, fun h => absurd h (by simp [Instr.isRequest])⟩

end Sys2Proof.Laws
end

