-- ==== Sys2Proof/Laws/Run.lean ====
section
/-!
SUPPORT. What running an operation's lines keeps: the induction over a list of lines, once per unit; all that a pixel loop
can do, whatever the framing; what the lines of a poll leave behind.
-/
namespace Sys2Proof.Machine

/-- What a line's result keeps: `P` where the operation goes on, `Q` where it has ended or waits with `rest` after it. -/
def Dsq.Keeps (P Q : Dsq → Prop) (rest : List DAct) : ActResult Dsq DAct → Prop
  | .done d => P d
  | .raise e d => Q (d.raise e)
  | .pause d line => Q { d with run := line :: rest }

/-- If every line keeps `P` and reaches `Q` where it ends or waits, running the lines reaches `Q`. -/
theorem Dsq.go_keeps {c : Config} {P Q : Dsq → Prop} {lines : List DAct} (fin : ∀ d, P d → Q (d.finish .ok))
    (act : ∀ before line rest d, lines = before ++ line :: rest → P d → Dsq.Keeps P Q rest (d.act c line)) {d : Dsq}
    (h : P d) : Q (Dsq.go c lines d) := by
  induction lines generalizing d with
  | nil => exact fin d h
  | cons l ls ih =>
    have first := act [] l ls d rfl h
    cases hr : d.act c l with
    | done d' =>
      rw [hr] at first
      rw [Dsq.go_done hr]
      exact ih (fun before line rest d hl hd => act (l :: before) line rest d (by rw [hl]; rfl) hd) first
    | raise e d' =>
      rw [hr] at first
      rw [Dsq.go_raise hr]
      exact first
    | pause d' l' =>
      rw [hr] at first
      rw [Dsq.go_pause hr]
      exact first

/-- What a line's result keeps, in TPC. -/
def Tpc.Keeps (P Q : Tpc → Prop) (rest : List TAct) : ActResult Tpc TAct → Prop
  | .done t => P t
  | .raise e t => Q (t.raise e)
  | .pause t line => Q { t with run := line :: rest }

/-- If every line keeps `P` and reaches `Q` where it ends or waits, running the lines reaches `Q`. -/
theorem Tpc.go_keeps {c : Config} {P Q : Tpc → Prop} {lines : List TAct}
    (fin : ∀ t, P t → Q (t.finish t.work.status))
    (act : ∀ before line rest t, lines = before ++ line :: rest → P t → Tpc.Keeps P Q rest (t.act c line)) {t : Tpc}
    (h : P t) : Q (Tpc.go c lines t) := by
  induction lines generalizing t with
  | nil => exact fin t h
  | cons l ls ih =>
    have first := act [] l ls t rfl h
    cases hr : t.act c l with
    | done t' =>
      rw [hr] at first
      rw [Tpc.go_done hr]
      exact ih (fun before line rest t hl ht => act (l :: before) line rest t (by rw [hl]; rfl) ht) first
    | raise e t' =>
      rw [hr] at first
      rw [Tpc.go_raise hr]
      exact first
    | pause t' l' =>
      rw [hr] at first
      rw [Tpc.go_pause hr]
      exact first

/-! ### The pixel loop in any framing -/

/-- A pixel loop with `left` pixels and any answers, in any framing, changes the trace, the answers and the draws only.
It has sent the colour `sent` times: all of them when it is done; fewer when it waits; never more. -/
theorem Dsq.sendPixels_cases (f : FillFraming) (v : Colour) (answers : List DispAnswer) (left : Nat) (d : Dsq) :
    ∃ (items : List DispItem) (as : List DispAnswer) (draws sent : Nat),
      let d' : Dsq := { d with trace := d.trace ++ items, answers := as, groupDraws := draws }
      items.all DispItem.legal = true ∧ dataBytes items = pixelRun sent v ∧
        ((Dsq.sendPixels f v answers left d = .done d' ∧ sent = left ∧ items.all DispItem.isOkData = true) ∨
         (Dsq.sendPixels f v answers left d = .raise .errDbus d' ∧ sent ≤ left) ∨
         (Dsq.sendPixels f v answers left d = .pause d' (.pixels (left - sent) v) ∧ sent < left ∧ as = [] ∧
           items.all DispItem.isOkData = true)) := by
  induction answers generalizing left d with
  | nil =>
    cases left with
    | zero => exact ⟨[], [], d.groupDraws, 0, rfl, rfl, .inl ⟨by simp [Dsq.sendPixels], rfl, rfl⟩⟩
    | succ left =>
      exact ⟨[], [], d.groupDraws, 0, rfl, rfl, .inr (.inr ⟨by simp [Dsq.sendPixels], by omega, rfl, rfl⟩)⟩
  | cons a rest ih =>
    cases left with
    | zero => exact ⟨[], a :: rest, d.groupDraws, 0, rfl, rfl, .inl ⟨by simp [Dsq.sendPixels], rfl, rfl⟩⟩
    | succ left =>
      obtain ⟨lo, hi⟩ := groupSize_bounds f d.groupDraws (left + 1) (by omega)
      have bytes : pixelRun (groupSize f d.groupDraws (left + 1)) v ≠ [] := by
        obtain ⟨m, hm⟩ : ∃ m, groupSize f d.groupDraws (left + 1) = m + 1 := ⟨_, (Nat.sub_add_cancel lo).symm⟩
        simp [hm, pixelRun, pixelBytes, List.replicate_succ]
      cases a with
      | fail =>
        exact ⟨[.data (pixelRun (groupSize f d.groupDraws (left + 1)) v) .fail], rest, nextDraw f d.groupDraws,
          groupSize f d.groupDraws (left + 1), by simpa [DispItem.legal] using bytes, by simp [dataBytes],
          .inr (.inl ⟨by simp [Dsq.sendPixels], hi⟩)⟩
      | ok =>
        obtain ⟨items, as, draws, sent, legal, data, result⟩ :=
          ih (left + 1 - groupSize f d.groupDraws (left + 1)) { d with
            answers := rest
            groupDraws := nextDraw f d.groupDraws
            trace := d.trace ++ [.data (pixelRun (groupSize f d.groupDraws (left + 1)) v) .ok] }
        refine ⟨.data (pixelRun (groupSize f d.groupDraws (left + 1)) v) .ok :: items, as, draws,
          groupSize f d.groupDraws (left + 1) + sent, by simpa [DispItem.legal, bytes] using legal, ?_, ?_⟩
        · simp only [dataBytes, data]
          rw [pixelRun, pixelRun, pixelRun, List.replicate_add, List.flatten_append]
        · rcases result with ⟨h, hs, hok⟩ | ⟨h, hs⟩ | ⟨h, hs, has, hok⟩
          · exact .inl ⟨by simp [Dsq.sendPixels, h], by omega, by simpa [DispItem.isOkData] using hok⟩
          · exact .inr (.inl ⟨by simp [Dsq.sendPixels, h], by omega⟩)
          · exact .inr (.inr ⟨by simp [Dsq.sendPixels, h, Nat.sub_add_eq], by omega, has,
              by simpa [DispItem.isOkData] using hok⟩)

/-- If `P` does not look at what a bus transaction changes (the trace, the answers, the draws) and the writes the lines may
make keep it, then `Q` holds where the operation ends or waits. `ok` says which lines may stand in the list. -/
theorem Dsq.go_keeps_writes {c : Config} {lines : List DAct} (ok : DAct → Bool) {P Q : Dsq → Prop}
    (bus : ∀ d trace answers draws, P d → P { d with trace := trace, answers := answers, groupDraws := draws })
    (waits : ∀ d run, P d → Q { d with run := run }) (fails : ∀ e d, P d → Q (d.raise e))
    (ends : ∀ d, P d → Q (d.finish .ok))
    (clear : ok .clearWinValid = true → ∀ d, P d → P { d with winValid := false })
    (panel : ∀ v, ok (.setPanelOk v) = true → ∀ d, P d → P { d with panelOk := v })
    (bg : ∀ v, ok (.setBg v) = true → ∀ d, P d → P { d with bgColor := v })
    (win : ∀ x y w h, ok (.openWindow x y w h) = true → ∀ d, P d → P { d.setWindow x y w h with winValid := true })
    (legal : lines.all ok = true) {d : Dsq} (h : P d) : Q (Dsq.go c lines d) := by
  have loop : ∀ f v as left d rest, P d → Dsq.Keeps P Q rest (Dsq.sendPixels f v as left d) := by
    intro f v as left d rest hd
    obtain ⟨items, as', draws, sent, -, -, result⟩ := Dsq.sendPixels_cases f v as left d
    rcases result with ⟨e, -⟩ | ⟨e, -⟩ | ⟨e, -⟩ <;> rw [e] <;> simp only [Dsq.Keeps]
    · exact bus _ _ _ _ hd
    · exact fails _ _ (bus _ _ _ _ hd)
    · exact waits { d with trace := d.trace ++ items, answers := as', groupDraws := draws } _ (bus _ _ _ _ hd)
  have transact : ∀ item line (d : Dsq) rest, P d → Dsq.Keeps P Q rest (d.transactLine item line) := by
    intro item line d rest hd
    unfold Dsq.transactLine Dsq.transact
    rcases d.answers with _ | ⟨_ | _, as⟩
    · exact waits _ _ hd
    · exact bus d _ _ d.groupDraws hd
    · exact fails _ _ (bus d _ _ d.groupDraws hd)
  refine Dsq.go_keeps (P := P) (Q := Q) ends ?_ h
  intro before line rest d split hd
  have this_ok : ok line = true := List.all_eq_true.1 legal line (by simp [split])
  cases line <;> simp only [Dsq.act]
  case clearWinValid => exact clear this_ok _ hd
  case setPanelOk => exact panel _ this_ok _ hd
  case setBg => exact bg _ this_ok _ hd
  case reject => exact fails _ _ hd
  case needWindow => split <;> [exact hd; exact fails _ _ hd]
  case cmd => exact transact _ _ _ _ hd
  case data => exact transact _ _ _ _ hd
  case wait => exact bus d _ d.answers d.groupDraws hd
  case openWindow => exact win _ _ _ _ this_ok _ hd
  case fill => exact loop _ _ _ _ _ _ hd
  case pixels => exact loop _ _ _ _ _ _ hd
  case table => exact waits _ _ hd

/-! ### A poll -/

/-- What a delivered block does, in the terms of the rules (R110, R111, R113). -/
theorem Tpc.takeBlock_eq (c : Config) (bytes : List Byte) (t : Tpc) :
    t.takeBlock c bytes = { t.pollStored c bytes with
      work := { t.work with candidate := some (decodeBlock bytes), event := pollEvent c bytes t } } := rfl

@[simp] theorem Tpc.pollStored_traffic (c : Config) (bytes : List Byte) (items : List TagItem)
    (ws : List WriteAnswer) (rs : List ReadAnswer) (t : Tpc) :
    (t.traffic items ws rs).pollStored c bytes = (t.pollStored c bytes).traffic items ws rs := rfl

@[simp] theorem pollEvent_traffic (c : Config) (bytes : List Byte) (items : List TagItem)
    (ws : List WriteAnswer) (rs : List ReadAnswer) (t : Tpc) :
    pollEvent c bytes (t.traffic items ws rs) = pollEvent c bytes t := rfl

/-- The status of a poll whose block was this one (R113). -/
theorem TpcWork.status_of_candidate {bytes : List Byte} {w : TpcWork} (h : w.candidate = some (decodeBlock bytes)) :
    w.status = pollStatus bytes := by
  simp [TpcWork.status, h, pollStatus]

/-- A poll's response carries its event whatever the status (R67, R121). -/
theorem TpcWork.response_poll {w : TpcWork} (e : Status) (h : w.result = .poll) :
    w.response e = e.code :: eventBytes w.event := by
  simp [TpcWork.response, h]

end Sys2Proof.Machine
end

