-- ==== Sys2Proof/Laws/Replay.lean ====
section
/-!
SUPPORT. INIT_ROM and DINIT's loop: what a well-formed table holds at an offset, one turn of the loop, that its fuel is
always enough, and what the lines of one entry complete or fail with.
-/
namespace Sys2Proof.Machine

/-! ### One entry of INIT_ROM -/

/-- The bytes of INIT_ROM hold a terminator or an entry. -/
theorem decodeEntry_cases {bs : List Byte} {i : Instr} {rest : List Byte} (h : decodeEntry bs = .ok (i, rest)) :
    (i = .initEnd ∧ rest = bs.drop 1) ∨ ∃ cmd delay args, i = .initEntry cmd delay args ∧
      (Instr.initEntry cmd delay args).encodable = true ∧ rest = bs.drop (2 + args.length) ∧
        2 + args.length ≤ bs.length := by
  match bs, h with
  | cmd :: bs, h =>
    simp only [decodeEntry] at h
    split at h
    · cases h
      exact .inl ⟨rfl, rfl⟩
    · rename_i nonzero
      match bs, h with
      | lb :: tail, h =>
        simp only at h
        split at h <;> cases h
        have small : argCount lb < 128 := BitVec.isLt _
        have len : (tail.take (argCount lb)).length = argCount lb := by simp; omega
        refine .inr ⟨_, _, _, rfl, ?_, ?_, by simp; omega⟩
        · have : ¬ cmd = 0x00#8 := nonzero
          simpa [Instr.encodable, this] using Nat.lt_of_le_of_lt (Nat.min_le_left _ _) small
        · rw [len, Nat.add_comm 2]
          rfl

/-- The walk past an entry. -/
theorem parseFrom_isSome_entry {bs more : List Byte} {cmd : Byte} {delay : Bool} {args : List Byte}
    (h : decodeEntry bs = .ok (.initEntry cmd delay args, more)) (fuel p : Nat) :
    (parseFrom (fuel + 1) p bs).isSome = (parseFrom fuel (p + 2 + args.length) more).isSome := by
  simp only [parseFrom, h]
  cases parseFrom fuel (p + 2 + args.length) more <;> rfl

/-- Where the walk ends does not depend on the offset it counts from, nor on fuel beyond the bytes there are. -/
theorem parseFrom_isSome {f g p q : Nat} {bs : List Byte} (h : (parseFrom f p bs).isSome = true) (hg : bs.length ≤ g) :
    (parseFrom g q bs).isSome = true := by
  induction f generalizing g p q bs with
  | zero => cases h
  | succ f ih =>
    cases hd : decodeEntry bs with
    | error => simp [parseFrom, hd] at h
    | ok ir =>
      obtain ⟨i, more⟩ := ir
      obtain ⟨g, rfl⟩ : ∃ m, g = m + 1 := ⟨g - 1, by cases bs <;> [cases hd; (simp at hg; omega)]⟩
      rcases decodeEntry_cases hd with ⟨rfl, -⟩ | ⟨cmd, delay, args, rfl, -, rfl, len⟩
      · simp [parseFrom, hd]
      · rw [parseFrom_isSome_entry hd] at h ⊢
        exact ih h (by rw [List.length_drop]; omega)

/-- A well-formed table begins with a terminator, or with an entry before a well-formed table (R83, R84). -/
theorem tableWellFormed_cases {bs : List Byte} (h : tableWellFormed bs = true) :
    (∃ rest, decodeEntry bs = .ok (.initEnd, rest)) ∨ ∃ cmd delay args rest,
      decodeEntry bs = .ok (.initEntry cmd delay args, rest) ∧ tableWellFormed rest = true := by
  unfold tableWellFormed parse at h ⊢
  cases hd : decodeEntry bs with
  | error => cases hl : bs.length <;> simp [hl, parseFrom, hd] at h
  | ok ir =>
    obtain ⟨i, more⟩ := ir
    rcases decodeEntry_cases hd with ⟨rfl, -⟩ | ⟨cmd, delay, args, rfl, -, -, len⟩
    · exact .inl ⟨_, rfl⟩
    · obtain ⟨n, hn⟩ : ∃ n, bs.length = n + 1 := ⟨bs.length - 1, by omega⟩
      rw [hn, parseFrom_isSome_entry hd] at h
      exact .inr ⟨_, _, _, _, rfl, parseFrom_isSome h (Nat.le_refl _)⟩

/-! ### DINIT's loop -/

/-- At most one table offset is left to do: the last line, at an offset that `ok` admits. -/
def tableLast (ok : Nat → Prop) (lines : List DAct) : Prop :=
  ∀ before q rest, lines = before ++ .table q :: rest → ok q ∧ rest = []

theorem tableLast.mono {ok ok' : Nat → Prop} {lines : List DAct} (h : tableLast ok lines) (imp : ∀ q, ok q → ok' q) :
    tableLast ok' lines :=
  fun before q rest e => ⟨imp q (h before q rest e).1, (h before q rest e).2⟩

theorem tableLast_nil (ok : Nat → Prop) : tableLast ok [] := fun before q rest e => by simp at e

theorem tableLast_append {ok : Nat → Prop} {q : Nat} {lines : List DAct} (none : ∀ o, .table o ∉ lines) (le : ok q) :
    tableLast ok (lines ++ [.table q]) := by
  intro before o rest e
  induction lines generalizing before with
  | nil =>
    rcases before with _ | ⟨x, before⟩
    · simp only [List.nil_append, List.cons.injEq, DAct.table.injEq] at e
      exact ⟨e.1 ▸ le, e.2.symm⟩
    · simp at e
  | cons l ls ih =>
    rcases before with _ | ⟨x, before⟩
    · simp only [List.nil_append, List.cons_append, List.cons.injEq] at e
      exact absurd (e.1 ▸ List.mem_cons_self) (none o)
    · simp only [List.cons_append, List.cons.injEq] at e
      exact ih (fun o ho => none o (List.mem_cons_of_mem _ ho)) before e.2

theorem not_table_mem_entryLines (cmd : Byte) (delay : Bool) (args : List Byte) (o : Nat) :
    .table o ∉ entryLines cmd delay args := by
  unfold entryLines
  split_ifs <;> simp

/-- Running lines leaves no table offset to do but theirs. -/
theorem Dsq.go_tableLast {c : Config} {ok : Nat → Prop} {lines : List DAct} (h : tableLast ok lines) (d : Dsq) :
    tableLast ok (Dsq.go c lines d).run := by
  have shift : ∀ before line line' rest, lines = before ++ line :: rest → (∀ q, line' = .table q → line = .table q) →
      tableLast ok (line' :: rest) := by
    intro before line line' rest split same b q r e
    rcases b with _ | ⟨x, b⟩
    · simp only [List.nil_append, List.cons.injEq] at e
      exact h before q r (by rw [split, same q e.1, e.2])
    · simp only [List.cons_append, List.cons.injEq] at e
      exact h (before ++ line :: b) q r (by simp [split, e.2])
  refine Dsq.go_keeps (P := fun _ => True) (Q := fun d => tableLast ok d.run) (fun d _ => tableLast_nil _) ?_ trivial
  intro before line rest d split _
  have wait : ∀ item line, tableLast ok (line :: rest) →
      Dsq.Keeps (fun _ => True) (fun d => tableLast ok d.run) rest (d.transactLine item line) := by
    intro item line hl
    unfold Dsq.transactLine
    split <;> simp only [Dsq.Keeps] <;> first | exact hl | exact tableLast_nil _
  have loop : ∀ v n (d : Dsq), Dsq.Keeps (fun _ => True) (fun d => tableLast ok d.run) rest
      (Dsq.sendPixels c.fillFraming v d.answers n d) := by
    intro v n d
    obtain ⟨items, as, draws, sent, -, -, result⟩ := Dsq.sendPixels_cases c.fillFraming v d.answers n d
    rcases result with ⟨e, -⟩ | ⟨e, -⟩ | ⟨e, -⟩ <;> rw [e] <;> simp only [Dsq.Keeps]
    · exact tableLast_nil _
    · exact shift before line _ rest split (by simp)
  have same := shift before line line rest split fun _ e => e
  cases line <;> simp only [Dsq.act]
  case reject => exact tableLast_nil _
  case needWindow => split <;> [trivial; exact tableLast_nil _]
  case cmd => exact wait _ _ same
  case data => exact wait _ _ same
  case fill => exact loop _ _ _
  case pixels => exact loop _ _ _
  case table => exact same
  all_goals trivial

/-- An entry that ends leads to the next entry's offset; one that waits has only that offset left (R72). -/
theorem Dsq.tableEntry_tableLast (c : Config) (p : Nat) (cmd : Byte) (delay : Bool) (args : List Byte) (d : Dsq) :
    tableLast (· = p + 2 + args.length) (d.tableEntry c p [] cmd delay args).run :=
  go_tableLast (tableLast_append (ok := (· = _)) (not_table_mem_entryLines cmd delay args) rfl) d

/-- Away from a table offset DINIT's loop does nothing. -/
theorem Dsq.replay_of_not_atTable {d : Dsq} (h : d.atTable = false) (c : Config) (fuel : Nat) :
    Dsq.replay c fuel d = d := by
  cases fuel with
  | zero => rfl
  | succ fuel =>
    unfold Dsq.atTable at h
    split at h
    · cases h
    · rename_i away
      unfold Dsq.replay
      split
      · rename_i p rest at_p
        exact absurd at_p (away p rest)
      · rfl

theorem Dsq.exists_of_atTable {d : Dsq} (h : d.atTable = true) : ∃ p rest, d.run = .table p :: rest := by
  unfold Dsq.atTable at h
  split at h <;> [exact ⟨_, _, by assumption⟩; cases h]

/-- One entry of DINIT's loop. -/
theorem Dsq.replay_entry {c : Config} {d : Dsq} {p : Nat} {rest : List DAct} {cmd : Byte} {delay : Bool}
    {args more : List Byte} (at_p : d.run = .table p :: rest)
    (entry : decodeEntry (c.initTable.drop p) = .ok (.initEntry cmd delay args, more)) (fuel : Nat) :
    Dsq.replay c (fuel + 1) d = Dsq.replay c fuel (d.tableEntry c p rest cmd delay args) := by
  simp only [Dsq.replay, at_p, entry]

/-- The terminator ends DINIT's loop. -/
theorem Dsq.replay_end {c : Config} {d : Dsq} {p : Nat} {rest : List DAct} {more : List Byte}
    (at_p : d.run = .table p :: rest) (stop : decodeEntry (c.initTable.drop p) = .ok (.initEnd, more)) (fuel : Nat) :
    Dsq.replay c (fuel + 1) d = d.tableEnd c rest := by
  simp only [Dsq.replay, at_p, stop]

/-- As many entries as bytes left are enough: more fuel changes nothing. -/
theorem Dsq.replay_fuel {c : Config} {d : Dsq} {p fuel : Nat} (last : tableLast (p ≤ ·) d.run)
    (enough : c.initTable.length - p ≤ fuel) : Dsq.replay c (fuel + 1) d = Dsq.replay c fuel d := by
  induction fuel generalizing p d with
  | zero =>
    cases h : d.atTable with
    | false => rw [replay_of_not_atTable h, replay_of_not_atTable h]
    | true =>
      obtain ⟨q, rest, at_q⟩ := exists_of_atTable h
      obtain ⟨le, -⟩ := last [] q rest at_q
      have : c.initTable.drop q = [] := List.drop_eq_nil_of_le (by omega)
      simp only [Dsq.replay, at_q, this, decodeEntry]
  | succ fuel ih =>
    cases h : d.atTable with
    | false => rw [replay_of_not_atTable h, replay_of_not_atTable h]
    | true =>
      obtain ⟨q, rest, at_q⟩ := exists_of_atTable h
      obtain ⟨le, rfl⟩ := last [] q rest at_q
      cases hd : decodeEntry (c.initTable.drop q) with
      | error => simp only [Dsq.replay, at_q, hd]
      | ok ir =>
        obtain ⟨i, more⟩ := ir
        rcases decodeEntry_cases hd with ⟨rfl, -⟩ | ⟨cmd, delay, args, rfl, -, -, len⟩
        · rw [replay_end at_q hd, replay_end at_q hd]
        · rw [replay_entry at_q hd, replay_entry at_q hd]
          exact ih ((tableEntry_tableLast c q cmd delay args d).mono fun _ e => Nat.le_of_eq e.symm)
            (by rw [List.length_drop] at len; omega)

theorem Dsq.resume_tableLast {ok : Nat → Prop} {d : Dsq} (h : tableLast ok d.run) (c : Config) :
    tableLast ok (d.resume c).run := by
  unfold Dsq.resume
  split
  · exact h
  · rename_i line rest run
    exact go_tableLast (run ▸ h) d

/-- DINIT's loop moves forward through the table. -/
theorem Dsq.replay_tableLast {c : Config} {p : Nat} {d : Dsq} (last : tableLast (p ≤ ·) d.run) (fuel : Nat) :
    tableLast (p ≤ ·) (Dsq.replay c fuel d).run := by
  induction fuel generalizing d with
  | zero => exact last
  | succ fuel ih =>
    cases h : d.atTable with
    | false => exact (replay_of_not_atTable h c (fuel + 1)).symm ▸ last
    | true =>
      obtain ⟨q, rest, at_q⟩ := exists_of_atTable h
      obtain ⟨le, rfl⟩ := last [] q rest at_q
      cases hd : decodeEntry (c.initTable.drop q) with
      | error =>
        have : Dsq.replay c (fuel + 1) d = d := by simp only [Dsq.replay, at_q, hd]
        exact this.symm ▸ last
      | ok ir =>
        obtain ⟨i, more⟩ := ir
        rcases decodeEntry_cases hd with ⟨rfl, -⟩ | ⟨cmd, delay, args, rfl, -⟩
        · rw [replay_end at_q hd]
          exact tableLast_nil _
        · rw [replay_entry at_q hd]
          exact ih ((tableEntry_tableLast c q cmd delay args d).mono fun _ e => by omega)

/-! ### The traffic of one entry -/

/-- What one entry's lines do with every transaction answered OK. -/
theorem Dsq.completes_entryLines {c : Config} {e : TableEntry} {d : Dsq} {as : List DispAnswer}
    (ans : d.answers = List.replicate (transactions e.items) .ok ++ as) :
    Dsq.Completes c (entryLines e.cmd e.delay e.args) d (d.traffic e.items as) := by
  obtain ⟨cmd, args, delay⟩ := e
  rcases args with _ | ⟨x, xs⟩ <;> cases delay <;>
    simp only [TableEntry.items, if_true, if_false, reduceCtorEq, Bool.false_eq_true, List.append_nil, List.nil_append,
      transactions] at ans ⊢
  · exact completes_cons (act_cmd_ok c cmd ans) (completes_nil c _)
  · refine completes_cons (act_cmd_ok c cmd ans) (completes_cons rfl ?_)
    convert completes_nil c _ using 1
    simp [Dsq.traffic, Dsq.waitMs]
  · refine completes_cons (act_cmd_ok c cmd ans) (completes_cons (act_data_ok c _ rfl) ?_)
    convert completes_nil c _ using 1
    · rfl
    · simp [Dsq.traffic]
  · refine completes_cons (act_cmd_ok c cmd ans) (completes_cons (act_data_ok c _ rfl) (completes_cons rfl ?_))
    convert completes_nil c _ using 1
    simp [Dsq.traffic, Dsq.waitMs]

/-- What one entry's lines do when the transaction after the first `k` is answered FAIL. -/
theorem Dsq.raises_entryLines {c : Config} {e : TableEntry} {k : Nat} {d : Dsq} {as : List DispAnswer}
    (hk : k < transactions e.items) (ans : d.answers = List.replicate k .ok ++ .fail :: as) :
    Dsq.Raises c (entryLines e.cmd e.delay e.args) .errDbus d (d.traffic (failAfter k e.items) as) := by
  obtain ⟨cmd, args, delay⟩ := e
  rcases k with _ | k
  · exact raises_cons (act_cmd_fail c cmd ans)
  · rcases args with _ | ⟨x, xs⟩
    · cases delay <;> simp [TableEntry.items, transactions] at hk
    · obtain rfl : k = 0 := by cases delay <;> simp [TableEntry.items, transactions] at hk <;> omega
      refine raises_cons_done (act_cmd_ok c cmd ans) (raises_cons ?_)
      rw [act_data_fail c _ rfl, traffic_traffic]
      rfl
end Sys2Proof.Machine
end

