-- ==== Sys2Proof/Tests/Slice0.lean ====
section
/-!
SUPPORT. The model's own tests, each expected value from spec/95_test_vectors.md or worked by hand from the rule its
comment names: ill-formed terms, decoding from words written out from the encodings, one step of each instruction; then,
for each statement with hypotheses, a state and operands that meet them (`test_meets_<Name>`).
-/
namespace Sys2Proof.Tests
open Sys2Proof Sys2Proof.Machine

/-! ### Helpers -/

/-- The reset state with these answers of the environment waiting. -/
def answering (as : List DispAnswer) (ws : List WriteAnswer) (rs : List ReadAnswer) : State :=
  { State.reset with
    dsq := { State.reset.dsq with answers := as }
    tpc := { State.reset.tpc with writeAnswers := ws, readAnswers := rs } }

/-- The reset state of a machine built with this INIT_ROM, with `n` OK answers waiting. -/
def withTable (table : List Byte) (as : List DispAnswer) : State :=
  { answering as [] [] with cfg := { exampleConfig with initTable := table } }

/-- What a test looks at in DSQ: the trace, the responses, STATUS, WIN_VALID, PANEL_OK. -/
def dsqShown : Host.Outcome State Fault Refusal → Option (List DispItem × List (List Byte) × Byte × Bool × Bool)
  | .next s => some (s.dsq.trace, s.dsq.responses, s.dsq.status, s.dsq.winValid, s.dsq.panelOk)
  | .fault _ => none
  | .refused _ => none

/-- What a test looks at in DSQ's window. -/
def windowShown : Host.Outcome State Fault Refusal → Option (Half × Half × Half × Half)
  | .next s => some (s.dsq.winX0, s.dsq.winY0, s.dsq.winX1, s.dsq.winY1)
  | .fault _ => none
  | .refused _ => none

/-- What a test looks at in TPC: the trace, the responses, STATUS, the stored tag. -/
def tpcShown : Host.Outcome State Fault Refusal → Option (List TagItem × List (List Byte) × Byte × List Byte)
  | .next s => some (s.tpc.trace, s.tpc.responses, s.tpc.status, s.tpc.tagString)
  | .fault _ => none
  | .refused _ => none

/-- The machine goes on. -/
def goesNext : Host.Outcome State Fault Refusal → Bool
  | .next _ => true
  | .fault _ => false
  | .refused _ => false

/-- The block of 95 L1.1, and its tag id in ASCII. -/
def blockA : List Byte := [0x3A#8, 0x00#8, 0x6C#8, 0x84#8, 0xD2#8, 0x00#8, 0x00#8, 0x00#8, 0x01#8, 0xF4#8]
def tagA : List Byte :=
  [0x33#8, 0x41#8, 0x30#8, 0x30#8, 0x36#8, 0x43#8, 0x38#8, 0x34#8, 0x44#8, 0x32#8, 0x30#8, 0x30#8]

/-! ### Ill-formed terms are refused -/

/-- R66: `n` of DDATA is a u16. -/
theorem test_ddata_too_long (s : List Byte) (h : s.length = 65536) : (Instr.ddata s).encodable = false := by
  simp [Instr.encodable, h]
/-- R68: `n > MAX_DATA_LEN`. -/
theorem test_ddata_over_limit :
    (Instr.ddata [1#8, 2#8]).wellFormed { exampleConfig with maxDataLen := 1 } = false := by decide
/-- R66: `n` of DSTR is a u8. -/
theorem test_dstr_too_long (text : List Byte) (h : text.length = 256) :
    (Instr.dstr 0#16 0#16 1#8 0#8 0#8 0#8 text).encodable = false := by
  simp [Instr.encodable, h]
/-- R68: `n > MAX_TEXT_LEN`. -/
theorem test_dstr_over_limit :
    (Instr.dstr 0#16 0#16 1#8 0#8 0#8 0#8 [0x41#8]).wellFormed { exampleConfig with maxTextLen := 0 } = false := by
  decide
/-- R71: 0x00 is never a table command. -/
theorem test_entry_command_zero : (Instr.initEntry 0x00#8 false []).encodable = false := by decide
/-- R70: at most 127 arguments. -/
theorem test_entry_too_many_args : (Instr.initEntry 0xC0#8 false (List.replicate 128 0#8)).encodable = false := by
  simp [Instr.encodable]
/-- R83, 95 L2.1: length byte missing; arguments past the end; no terminator. -/
theorem test_ill_formed_tables :
    tableWellFormed [0x11#8] = false ∧ tableWellFormed [0x11#8, 0x05#8, 0x01#8, 0x02#8] = false ∧
      tableWellFormed [0x11#8, 0x00#8] = false ∧ tableWellFormed [] = false := by decide
/-- R6, R28: the ranges of the other parameters. -/
theorem test_ill_formed_configs :
    configOk { exampleConfig with glyphRom := [(0x41#8, [0x18#8])] } = false ∧
    configOk { exampleConfig with glyphRom := [(0x80#8, List.replicate 8 0#8)] } = false ∧
    configOk { exampleConfig with glyphRom := [(0x41#8, List.replicate 8 0#8), (0x41#8, List.replicate 8 1#8)] } = false ∧
    configOk { exampleConfig with maxDataLen := 0 } = false ∧ configOk { exampleConfig with maxTextLen := 256 } = false ∧
    configOk { exampleConfig with drainLen := 0 } = false ∧ configOk { exampleConfig with drainLen := 256 } = false := by
  decide
/-- The example configuration is one the spec admits. -/
theorem test_example_config : configOk exampleConfig = true := by decide

/-! ### Decoding (R65, R66, R68–R72; requests of 95) -/

theorem test_decode_dinit : decodeRequest [0x01#8] = .ok .dinit := by rfl
theorem test_decode_dcmd : decodeRequest [0x02#8, 0x36#8] = .ok (.dcmd 0x36#8) := by rfl
theorem test_decode_ddata :
    decodeRequest [0x03#8, 0x00#8, 0x03#8, 0x01#8, 0x02#8, 0x03#8] = .ok (.ddata [0x01#8, 0x02#8, 0x03#8]) := by rfl
theorem test_decode_dwin :
    decodeRequest [0x04#8, 0x00#8, 0x64#8, 0x01#8, 0x00#8, 0x00#8, 0x01#8, 0x00#8, 0x02#8] =
      .ok (.dwin 100#16 256#16 1#16 2#16) := by rfl
theorem test_decode_dfill :
    decodeRequest [0x05#8, 0x12#8, 0x34#8, 0x56#8] = .ok (.dfill 0x12#8 0x34#8 0x56#8) := by rfl
theorem test_decode_dbgset :
    decodeRequest [0x06#8, 0x00#8, 0x00#8, 0xFF#8] = .ok (.dbgset 0x00#8 0x00#8 0xFF#8) := by rfl
theorem test_decode_dchar :
    decodeRequest [0x07#8, 0x00#8, 0xE9#8, 0x01#8, 0x02#8, 0x41#8, 0x03#8, 0x04#8, 0x05#8, 0x06#8] =
      .ok (.dchar 233#16 258#16 0x41#8 3#8 4#8 5#8 6#8) := by rfl
theorem test_decode_dstr :
    decodeRequest [0x08#8, 0x00#8, 0x01#8, 0x00#8, 0x02#8, 0x03#8, 0x04#8, 0x05#8, 0x06#8, 0x02#8, 0x41#8, 0x42#8] =
      .ok (.dstr 1#16 2#16 3#8 4#8 5#8 6#8 [0x41#8, 0x42#8]) := by rfl
theorem test_decode_tag_requests :
    decodeRequest [0x10#8] = .ok .rinit ∧ decodeRequest [0x11#8] = .ok .rpoll ∧ decodeRequest [0x12#8] = .ok .rpres ∧
      decodeRequest [0x15#8] = .ok .rscan := by decide
theorem test_decode_rread : decodeRequest [0x13#8, 0x7F#8, 0x04#8] = .ok (.rread 0x7F#7 0x04#8) := by rfl
theorem test_decode_rwrite :
    decodeRequest [0x14#8, 0x3C#8, 0x10#8, 0x55#8] = .ok (.rwrite 0x3C#7 0x10#8 0x55#8) := by rfl
/-- 95 L2.1 `B1 83 01 02 03 00` and L1.5. -/
theorem test_decode_initEntry :
    decodeEntry [0xB1#8, 0x83#8, 0x01#8, 0x02#8, 0x03#8, 0x00#8] =
        .ok (.initEntry 0xB1#8 true [0x01#8, 0x02#8, 0x03#8], [0x00#8]) ∧
      parse [0xEF#8, 0x02#8, 0x01#8, 0x02#8, 0x00#8] =
        some ([{ cmd := 0xEF#8, args := [0x01#8, 0x02#8], delay := false }], 4) := by decide
/-- R71: the terminator consumes no length byte. -/
theorem test_decode_initEnd : decodeEntry [0x00#8, 0xFF#8, 0xFF#8] = .ok (.initEnd, [0xFF#8, 0xFF#8]) := by decide
/-- 95 L2.6: the refused requests. -/
theorem test_decode_refused :
    decodeRequest [0x00#8] = .error (.badOp 0x00#8) ∧ decodeRequest [0x09#8] = .error (.badOp 0x09#8) ∧
      decodeRequest [0x20#8] = .error (.badOp 0x20#8) ∧ decodeRequest [0x02#8] = .error (.badLength 0x02#8) ∧
      decodeRequest [0x01#8, 0x00#8] = .error (.badLength 0x01#8) ∧
      decodeRequest [0x03#8, 0x00#8, 0x03#8, 0x01#8, 0x02#8] = .error (.badLength 0x03#8) ∧
      decodeRequest [0x14#8, 0x80#8, 0x01#8, 0x02#8] = .error (.badAddr 0x80#8) := by decide

/-! ### DisplayLink (95 L2.1) -/

/-- #1: the window is dropped. -/
theorem test_dcmd :
    dsqShown (exec (.dcmd 0x36#8) { answering [.ok] [] [] with
      dsq := { State.reset.dsq with answers := [.ok], winValid := true } }) =
      some ([.cmd 0x36#8 .ok], [[0x00#8]], 0x00#8, false, false) := by decide
/-- #4. -/
theorem test_dcmd_fails :
    dsqShown (exec (.dcmd 0x36#8) { State.reset with
      dsq := { State.reset.dsq with answers := [.fail], panelOk := true } }) =
      some ([.cmd 0x36#8 .fail], [[0x01#8]], 0x01#8, false, false) := by decide
/-- #2. -/
theorem test_ddata :
    dsqShown (exec (.ddata [0x01#8, 0x02#8, 0x03#8]) (answering [.ok] [] [])) =
      some ([.data [0x01#8, 0x02#8, 0x03#8] .ok], [[0x00#8]], 0x00#8, false, false) := by decide
/-- #3: no transaction for `n = 0`. -/
theorem test_ddata_empty :
    dsqShown (exec (.ddata []) State.reset) = some ([], [[0x00#8]], 0x00#8, false, false) := by decide
/-- P1 step 1. -/
theorem test_dinit :
    dsqShown (exec .dinit (answering [.ok, .ok, .ok, .ok, .ok] [] [])) =
      some ([.cmd 0x01#8 .ok, .wait 150, .cmd 0x3A#8 .ok, .data [0x66#8] .ok, .cmd 0x11#8 .ok, .wait 150,
        .cmd 0x29#8 .ok, .wait 150], [[0x00#8]], 0x00#8, false, true) := by decide
/-- #8. -/
theorem test_dinit_fails :
    dsqShown (exec .dinit (withTable [0x3A#8, 0x01#8, 0x66#8, 0x29#8, 0x00#8, 0x00#8] [.ok, .fail])) =
      some ([.cmd 0x01#8 .ok, .wait 150, .cmd 0x3A#8 .fail], [[0x01#8]], 0x01#8, false, false) := by decide
/-- R87: the entry at an offset, then the next offset. -/
theorem test_initEntry :
    exec (.initEntry 0x3A#8 true [0x66#8]) { State.reset with
        dsq := { State.reset.dsq with busy := true, run := [.table 0], answers := [.ok, .ok] } } =
      .next { State.reset with dsq := { State.reset.dsq with
        busy := true, run := [.table 3], trace := [.cmd 0x3A#8 .ok, .data [0x66#8] .ok, .wait 150] } } := by rfl
/-- R71, R87: the terminator ends DINIT with nothing further on the bus. -/
theorem test_initEnd :
    dsqShown (exec .initEnd { State.reset with dsq := { State.reset.dsq with busy := true, run := [.table 7] } }) =
      some ([], [[0x00#8]], 0x00#8, false, true) := by decide

/-! ### FrameEncoder (95 L2.2) -/

/-- #3: the last window that fits on both axes. -/
theorem test_dwin :
    dsqShown (exec (.dwin 10#16 300#16 5#16 20#16) (answering (List.replicate 5 .ok) [] [])) =
      some ([.cmd 0x2A#8 .ok, .data [0x00#8, 0x0A#8, 0x00#8, 0x0E#8] .ok, .cmd 0x2B#8 .ok,
        .data [0x01#8, 0x2C#8, 0x01#8, 0x3F#8] .ok, .cmd 0x2C#8 .ok], [[0x00#8]], 0x00#8, true, false) ∧
    windowShown (exec (.dwin 10#16 300#16 5#16 20#16) (answering (List.replicate 5 .ok) [] [])) =
      some (10#16, 300#16, 14#16, 319#16) := by decide
/-- #5–#8: out of range, without wrapping. -/
theorem test_dwin_range :
    [(0#16, 0#16, 0#16, 1#16), (239#16, 0#16, 2#16, 1#16), (0#16, 319#16, 1#16, 2#16),
      (65535#16, 0#16, 2#16, 1#16)].all (fun (x, y, w, h) =>
        dsqShown (exec (.dwin x y w h) { State.reset with dsq := { State.reset.dsq with winValid := true } }) =
          some ([], [[0x04#8]], 0x04#8, true, false)) = true := by decide
/-- P1 step 3. -/
theorem test_dfill :
    dsqShown (exec (.dfill 0xFF#8 0x00#8 0x00#8) { State.reset with dsq := { State.reset.dsq with
        winX1 := 1#16, winY1 := 1#16, winValid := true, answers := List.replicate 4 .ok } }) =
      some (List.replicate 4 (.data [0xFF#8, 0x00#8, 0x00#8] .ok), [[0x00#8]], 0x00#8, false, false) := by decide
/-- #13: the second pixel fails. -/
theorem test_dfill_fails :
    dsqShown (exec (.dfill 0xFF#8 0xFF#8 0xFF#8) { State.reset with dsq := { State.reset.dsq with
        winX1 := 2#16, winValid := true, panelOk := true, answers := [.ok, .fail] } }) =
      some ([.data [0xFF#8, 0xFF#8, 0xFF#8] .ok, .data [0xFF#8, 0xFF#8, 0xFF#8] .fail], [[0x01#8]], 0x01#8, false,
        false) := by decide

/-! ### GlyphRenderer (95 L2.3) -/

/-- The columns each stored row byte paints. -/
theorem test_paint :
    [(0x01#8, [0]), (0x80#8, [7]), (0x06#8, [1, 2]), (0xF0#8, [4, 5, 6, 7]), (0x18#8, [3, 4]), (0x0B#8, [0, 1, 3])].all
      (fun (row, cols) => (List.range 8).filter
        (paint { exampleConfig with glyphRom := [(0x41#8, row :: List.replicate 7 0#8)] } 0x41#8 0) = cols) = true := by
  decide
/-- #7: 81 transactions, the last block at column 4. -/
theorem test_dchar :
    let s : State := { answering (List.replicate 81 .ok) [] [] with
      cfg := { exampleConfig with glyphRom := [(0x41#8, 0x18#8 :: List.replicate 7 0#8)] } }
    (dsqShown (exec (.dchar 0#16 0#16 0x41#8 1#8 0#8 0#8 0#8) s)).map (fun r => (r.1.length, r.2)) =
        some (81, [[0x00#8]], 0x00#8, false, false) ∧
      windowShown (exec (.dchar 0#16 0#16 0x41#8 1#8 0#8 0#8 0#8) s) = some (4#16, 0#16, 4#16, 0#16) := by
  decide +kernel
/-- #12: slot 0 drawn, slot 1 a codepoint that draws nothing. -/
theorem test_dstr :
    (dsqShown (exec (.dstr 232#16 0#16 1#8 0#8 0#8 0#8 [0x42#8, 0x80#8]) (answering (List.replicate 69 .ok) [] []))).map
        (fun r => (r.1.length, r.2)) = some (69, [[0x00#8]], 0x00#8, false, false) ∧
      windowShown (exec (.dstr 232#16 0#16 1#8 0#8 0#8 0#8 [0x42#8, 0x80#8])
        (answering (List.replicate 69 .ok) [] [])) = some (232#16, 0#16, 239#16, 7#16) := by decide +kernel
/-- P4: REVERSED draws the last character in slot 0. -/
theorem test_string_order :
    slotChars .forward [0x41#8, 0x42#8] = [0x41#8, 0x42#8] ∧ slotChars .reversed [0x41#8, 0x42#8] = [0x42#8, 0x41#8] := by
  decide
/-- #9, first request. -/
theorem test_dbgset :
    exec (.dbgset 0x00#8 0x00#8 0xFF#8) State.reset = .next { State.reset with
      dsq := { State.reset.dsq with bgColor := 0x0000FF#24, responses := [[0x00#8]] } } := by rfl

/-! ### RfidLink (95 L2.4) -/

/-- #1 and #4. -/
theorem test_rread :
    tpcShown (exec (.rread 0x28#7 0x04#8) (answering [] [.ack] [.ok [0x5A#8]])) =
        some ([.write 0x28#7 [0x04#8] false .ack, .read 0x28#7 1 (.ok [0x5A#8])], [[0x00#8, 0x5A#8]], 0x00#8, []) ∧
      tpcShown (exec (.rread 0x28#7 0x04#8) (answering [] [.ack] [.ok []])) =
        some ([.write 0x28#7 [0x04#8] false .ack, .read 0x28#7 1 (.ok [])], [[0x02#8, 0x00#8]], 0x02#8, []) := by decide
/-- #8. -/
theorem test_rwrite :
    tpcShown (exec (.rwrite 0x28#7 0x01#8 0x0F#8) (answering [] [.nack] [])) =
      some ([.write 0x28#7 [0x01#8, 0x0F#8] true .nack], [[0x02#8]], 0x02#8, []) := by decide
/-- #10: acknowledged at 0x28 and 0x3C only. -/
theorem test_rscan :
    (tpcShown (exec .rscan (answering []
      (List.replicate 39 .nack ++ [.ack] ++ List.replicate 19 .nack ++ [.ack] ++ List.replicate 66 .nack) []))).map
        (fun r => (r.1.length, r.2)) =
      some (126, [[0x00#8, 0x00#8, 0x00#8, 0x00#8, 0x00#8, 0x00#8, 0x01#8, 0x00#8, 0x10#8, 0x00#8, 0x00#8, 0x00#8,
        0x00#8, 0x00#8, 0x00#8, 0x00#8, 0x00#8]], 0x00#8, []) := by decide +kernel
/-- #12 and #13. -/
theorem test_rpres :
    (tpcShown (exec .rpres (answering [] [.ack] [.ok [0x03#8]]))).map (fun r => r.2.1) = some [[0x00#8, 0x01#8]] ∧
      (tpcShown (exec .rpres (answering [] [.ack] [.ok [0xFE#8]]))).map (fun r => r.2.1) = some [[0x00#8, 0x00#8]] := by
  decide
/-- #16. -/
theorem test_rinit :
    tpcShown (exec .rinit { answering [] [.ack, .nack] [] with
      cfg := { exampleConfig with readerInitSeq := [(0x01#8, 0x0F#8), (0x02#8, 0x80#8)] } }) =
      some ([.write 0x28#7 [0x01#8, 0x0F#8] true .ack, .write 0x28#7 [0x02#8, 0x80#8] true .nack], [[0x02#8]], 0x02#8,
        []) := by decide

/-! ### TagPoller (95 L2.5) -/

/-- #1. -/
theorem test_rpoll :
    tpcShown (exec .rpoll (answering [] [.ack] [.ok blockA, .ok [0x00#8]])) =
      some ([.read 0x28#7 10 (.ok blockA), .write 0x28#7 [0x01#8] true .ack, .read 0x28#7 1 (.ok [0x00#8])],
        [0x00#8 :: 0x01#8 :: (tagA ++ [0x00#8, 0x00#8, 0x01#8, 0xF4#8])], 0x00#8, tagA) := by decide
/-- #3: a short block. -/
theorem test_rpoll_short :
    (tpcShown (exec .rpoll (answering [] [.ack] [.ok (blockA.take 4), .ok [0x00#8]]))).map (fun r => r.2) =
      some ([0x03#8 :: List.replicate 17 0x00#8], 0x03#8, []) := by decide

/-! ### The machine around the instructions -/

/-- R31, P1: the state port after P1's end state. -/
theorem test_port_words :
    let s : State := { State.reset with dsq := { State.reset.dsq with
      status := 0x05#8, panelOk := true, winX1 := 1#16, winY1 := 1#16 } }
    s.portWord 0x00#32 = 0x00000504#32 ∧ s.portWord 0x04#32 = 0x00010000#32 ∧ s.portWord 0x08#32 = 0x00010000#32 ∧
      s.portWord 0x0C#32 = 0x00FFFFFF#32 := by decide
/-- P3's end state. -/
theorem test_port_tag_words :
    let s : State := { State.reset with tpc := { State.reset.tpc with
      status := 0x02#8, lastLen := 12#4, lastTagId := tagA } }
    s.portWord 0x10#32 = 0x00000202#32 ∧ s.portWord 0x14#32 = 0x33413030#32 ∧ s.portWord 0x18#32 = 0x36433834#32 ∧
      s.portWord 0x1C#32 = 0x44323030#32 := by decide
/-- R41: an answer that comes while DINIT waits lets it go on; DSQ then stands at the next table offset. -/
theorem test_answer_resumes :
    step { withTable [0x3A#8, 0x00#8, 0x00#8] [] with
      dsq := { State.reset.dsq with busy := true, run := [.cmd 0x3A#8, .table 2] }, inputs := [.dispAnswer .ok] } =
    .next { withTable [0x3A#8, 0x00#8, 0x00#8] [] with
      dsq := { State.reset.dsq with busy := true, run := [.table 2], trace := [.cmd 0x3A#8 .ok] } } := by rfl
/-- R131 (c): a cell shows the pixel that was streamed into it; its neighbour stays unspecified. -/
theorem test_panel :
    let p := panelAfter exampleConfig (winItems exampleConfig 239 319 1 1 ++ fillItems 1 0x123456#24)
    p.cell 239 319 = some 0x123456#24 ∧ p.cell 238 319 = none := by decide
/-- A stream cut off inside a pixel: its cell is unspecified (notes/assumptions/14.md), one that goes on in a later
transaction is R131 (c)'s pixel. -/
theorem test_panel_partial :
    let shown := winItems exampleConfig 0 0 1 1 ++ fillItems 1 0x123456#24
    let again := shown ++ winItems exampleConfig 0 0 1 1 ++ [.data [0xAA#8] .ok]
    (panelAfter exampleConfig shown).cell 0 0 = some 0x123456#24 ∧ (panelAfter exampleConfig again).cell 0 0 = none ∧
      (panelAfter exampleConfig (again ++ [.data [0xBB#8, 0xCC#8] .ok])).cell 0 0 = some 0xAABBCC#24 := by decide
/-- R37: a placed word runs as the first instruction after reset. -/
theorem test_fetch_word :
    step (State.reset.withFetchWord 24 0x560013) =
      exec (.rread 0x00#7 0x56#8) State.reset := by rfl

/-! ### States that meet the hypotheses of the statements

One theorem per statement with hypotheses; where a statement has several clauses, a witness for each, at the ends of
their ranges. -/

theorem test_meets_EncodedRequestDecodes :
    [Instr.dstr 0xFFFF#16 0#16 0xFF#8 0#8 0#8 0#8 (List.replicate 255 0xFF#8), .ddata [], .rread 0x7F#7 0xFF#8].all
      (fun i => i.isRequest && i.encodable) = true := by decide +kernel
theorem test_meets_EncodedEntryDecodes :
    [Instr.initEntry 0xFF#8 true (List.replicate 127 0xFF#8), .initEntry 0x01#8 false [], .initEnd].all
      (fun i => !i.isRequest && i.encodable) = true := by decide +kernel
theorem test_meets_AcceptedRequestIsItsEncoding :
    decodeRequest [0x14#8, 0x7F#8, 0x00#8, 0xFF#8] = .ok (.rwrite 0x7F#7 0x00#8 0xFF#8) ∧
      decodeRequest [0x03#8, 0x00#8, 0x00#8] = .ok (.ddata []) := by decide
theorem test_meets_TableEntryLayout :
    (0xFF#8 ≠ 0x00#8 ∧ (List.replicate 127 0x00#8).length = (0xFF#8).toNat % 128) ∧
      (0x01#8 ≠ 0x00#8 ∧ ([] : List Byte).length = (0x80#8).toNat % 128) := by decide +kernel
theorem test_meets_UnassignedOpCodeRejected :
    ∀ op ∈ [0x00#8, 0x09#8, 0x0F#8, 0x16#8, 0xFF#8],
      op = 0x00#8 ∨ (0x09 ≤ op.toNat ∧ op.toNat ≤ 0x0F) ∨ 0x16 ≤ op.toNat := by decide

/-- Reset with one input waiting: the step's hypotheses but the input's own. -/
def receiving (input : Input) : State := { State.reset with inputs := [input] }

theorem test_meets_StepPerformsDecodedRequest :
    configOk (receiving (.request [0x01#8])).cfg = true ∧ (receiving (.request [0x01#8])).dsq.atTable = false ∧
      (receiving (.request [0x01#8])).eligible = [] ∧
      (receiving (.request [0x01#8])).inputs = .request [0x01#8] :: [] ∧ decodeRequest [0x01#8] = .ok .dinit := by
  decide
/-- The second clause: a text beyond MAX_TEXT_LEN = 0, the unit busy. -/
theorem test_meets_RefusedRequestChangesNothing :
    (configOk (receiving (.request [0x15#8, 0x00#8])).cfg = true ∧
      (receiving (.request [0x15#8, 0x00#8])).dsq.atTable = false ∧
      (receiving (.request [0x15#8, 0x00#8])).eligible = [] ∧
      (receiving (.request [0x15#8, 0x00#8])).inputs = .request [0x15#8, 0x00#8] :: [] ∧
      decodeRequest [0x15#8, 0x00#8] = .error (.badLength 0x15#8)) ∧
    (let s : State := { State.reset with
      cfg := { exampleConfig with maxTextLen := 0 }, dsq := { State.reset.dsq with busy := true, run := [.cmd 0x36#8] } }
    configOk s.cfg = true ∧ (Instr.dstr 0#16 0#16 1#8 0#8 0#8 0#8 [0x41#8]).isRequest = true ∧
      (Instr.dstr 0#16 0#16 1#8 0#8 0#8 0#8 [0x41#8]).wellFormed s.cfg = false) := by decide

/-- DSQ of the example machine stands at an offset of its table. -/
def standingAt (p : Nat) (as : List DispAnswer) : State :=
  { State.reset with dsq := { State.reset.dsq with busy := true, run := [.table p], answers := as } }

/-- At the first entry and at the terminator; past the end of the ROM. -/
theorem test_meets_StepPerformsTableEntry :
    (configOk (standingAt 8 []).cfg = true ∧ (standingAt 8 []).dsq.run = .table 8 :: [] ∧
      decodeEntry ((standingAt 8 []).cfg.initTable.drop 8) = .error .pastRomEnd) ∧
    (configOk (standingAt 0 []).cfg = true ∧ (standingAt 0 []).dsq.run = .table 0 :: [] ∧
      decodeEntry ((standingAt 0 []).cfg.initTable.drop 0) =
        .ok (.initEntry 0x3A#8 false [0x66#8], [0x11#8, 0x80#8, 0x29#8, 0x80#8, 0x00#8])) ∧
    (configOk (standingAt 7 []).cfg = true ∧ (standingAt 7 []).dsq.run = .table 7 :: [] ∧
      decodeEntry ((standingAt 7 []).cfg.initTable.drop 7) = .ok (.initEnd, [])) := by decide
theorem test_meets_TableEntryOutsideReplayRefused :
    State.reset.dsq.atTable = false ∧ (Instr.initEntry 0x00#8 false []).encodable = false := by decide
theorem test_meets_StepAcceptsHeldRequest :
    let s : State := { State.reset with held := [.rscan, .rpoll] }
    configOk s.cfg = true ∧ s.dsq.atTable = false ∧ s.eligible ≠ [] := by decide
/-- Idle, and waiting for an answer (R136). -/
theorem test_meets_StepWaitsWithoutInput :
    (configOk State.reset.cfg = true ∧ State.reset.dsq.atTable = false ∧ State.reset.eligible = [] ∧
      State.reset.inputs = []) ∧
    (let s : State := { State.reset with
      tpc := { State.reset.tpc with busy := true, run := [.readBlock] }, held := [.rpoll] }
    configOk s.cfg = true ∧ s.dsq.atTable = false ∧ s.eligible = [] ∧ s.inputs = []) := by decide
theorem test_meets_StepDeliversAnswers :
    ∀ input ∈ [Input.dispAnswer .fail, .tagWriteAnswer .nack, .tagReadAnswer (.ok [])],
      configOk (receiving input).cfg = true ∧ (receiving input).dsq.atTable = false ∧ (receiving input).eligible = [] ∧
        (receiving input).inputs = input :: [] := by decide
theorem test_meets_IllFormedConfigRefused : configOk (withTable [0x11#8, 0x00#8] []).cfg = false := by decide
theorem test_meets_BusyUnitHoldsRequest :
    let s : State := { State.reset with tpc := { State.reset.tpc with busy := true, run := [.readBlock] } }
    configOk s.cfg = true ∧ Instr.rpoll.isRequest = true ∧ Instr.rpoll.wellFormed s.cfg = true ∧
      s.unitBusy Instr.rpoll.unit = true := by decide
/-- At reset, and with DINIT half done, a tag stored and a poll of another tag waiting for its clear. -/
theorem test_meets_StepKeepsInvariant :
    State.reset.Inv ∧
    State.Inv { standingAt 5 [.ok] with
      held := [.dwin 0#16 0#16 240#16 320#16]
      tpc := { State.reset.tpc with
        busy := true, run := [.write 0x28#7 [0x01#8] true, .drain], lastLen := 12#4, lastTagId := tagA
        work := { TpcWork.idle with result := .poll, candidate := some ⟨tagA, 500⟩, event := some ⟨tagA, 500⟩ } } } := by
  decide
theorem test_meets_ResetMeetsInvariant : configOk exampleConfig = true := by decide
theorem test_meets_StepKeepsConfig : step State.reset = .next State.reset := by rfl
theorem test_meets_StepExtendsHistory :
    step (standingAt 7 []) = exec .initEnd (standingAt 7 []) ∧ goesNext (exec .initEnd (standingAt 7 [])) = true :=
  ⟨rfl, rfl⟩
theorem test_meets_UnitsShareNoState :
    (Instr.rpoll.unit = .tpc ∧ goesNext (exec .rpoll State.reset) = true) ∧
      (Instr.initEnd.unit = .dsq ∧ goesNext (exec .initEnd (standingAt 7 [])) = true) := by decide
/-- One instruction per clause: DCHAR leaves the background, DFILL the window and a set PANEL_OK, DBGSET a valid window,
RSCAN the stored tag; an entry of the table, and its terminator where it is all that is left. -/
theorem test_meets_RegisterWriteMatrix :
    goesNext (exec (.dchar 0#16 0#16 0x42#8 1#8 0#8 0#8 0#8) State.reset) = true ∧
    (let s : State := { State.reset with dsq := { State.reset.dsq with panelOk := true, winValid := true } }
    (Instr.dfill 0#8 0#8 0#8 ≠ .dinit ∧ Instr.dfill 0#8 0#8 0#8 ≠ .initEnd) ∧
      (dsqShown (exec (.dfill 0#8 0#8 0#8) { s with dsq := { s.dsq with winValid := false } })).map
        (fun r => r.2.2.2.2) = some true ∧
      (dsqShown (exec (.dbgset 0#8 0#8 0#8) s)).map (fun r => r.2.2.2) = some (true, true)) ∧
    (Instr.rscan ≠ .rpoll ∧ goesNext (exec .rscan State.reset) = true) ∧
    goesNext (exec (.initEntry 0x3A#8 false [0x66#8]) (standingAt 0 [.ok, .ok])) = true ∧
    ((standingAt 7 []).dsq.run = [.table 7] ∧ goesNext (exec .initEnd (standingAt 7 [])) = true) := by decide
/-- An answered and an unanswered request to each unit. -/
theorem test_meets_DisplayRequestAnsweredOnce :
    (∀ as ∈ [[DispAnswer.ok], []], (Instr.dcmd 0x36#8).isRequest = true ∧ (Instr.dcmd 0x36#8).unit = .dsq ∧
      (Instr.dcmd 0x36#8).wellFormed (answering as [] []).cfg = true ∧ (answering as [] []).dsq.busy = false ∧
      goesNext (exec (.dcmd 0x36#8) (answering as [] [])) = true) ∧
    ∀ ws ∈ [[WriteAnswer.nack], []], (Instr.rread 0x28#7 0x04#8).isRequest = true ∧
      (Instr.rread 0x28#7 0x04#8).unit = .tpc ∧ (Instr.rread 0x28#7 0x04#8).wellFormed (answering [] ws []).cfg = true ∧
      (answering [] ws []).tpc.busy = false ∧ goesNext (exec (.rread 0x28#7 0x04#8) (answering [] ws [])) = true := by
  decide

theorem test_meets_DcmdSendsOneCommand :
    ∀ a ∈ [DispAnswer.ok, .fail],
      (answering [a] [] []).dsq.busy = false ∧ (answering [a] [] []).dsq.answers = a :: [] := by decide
/-- The longest payload of a machine with MAX_DATA_LEN = 2, and the empty one. -/
theorem test_meets_DdataSendsOneTransaction :
    ∀ a ∈ [DispAnswer.ok, .fail], ∀ bytes ∈ [[], [0x01#8, 0x02#8]],
      let s : State := { answering [a] [] [] with cfg := { exampleConfig with maxDataLen := 2 } }
      s.dsq.busy = false ∧ (Instr.ddata bytes).wellFormed s.cfg = true ∧ s.dsq.answers = a :: [] := by decide
/-- DINIT's own lines before its loop, and none; the loop at the first entry of the example table and at its end. -/
theorem test_meets_DisplayAnswerMayComeLater :
    (∀ q, .table q ∉ (dinitLines exampleConfig).dropLast) ∧
    (dinitLines exampleConfig).dropLast ++ [.table 0] = dinitLines exampleConfig ∧ (∀ q, DAct.table q ∉ []) ∧
    ∀ p ∈ [0, 7], let s : State := { answering [.ok] [] [] with dsq := { State.reset.dsq with busy := true, run := [.table p] } }
      configOk s.cfg = true ∧ tableWellFormed (s.cfg.initTable.drop p) = true ∧ s.dsq.run = [.table p] := by
  refine ⟨by simp [dinitLines], rfl, by simp, by decide⟩
/-- Lines and requests with nothing answered: a window of one pixel, one pixel left; DDATA with a byte. -/
theorem test_meets_UnansweredTransactionHangs :
    (State.reset.dsq.answers = [] ∧ 0 < 1 ∧ 1 = extent State.reset.dsq.winX0 State.reset.dsq.winX1 *
      extent State.reset.dsq.winY0 State.reset.dsq.winY1) ∧
    (State.reset.tpc.writeAnswers = [] ∧ State.reset.tpc.readAnswers = []) ∧
    (State.reset.dsq.busy = false ∧ [0x01#8] ≠ [] ∧ (Instr.ddata [0x01#8]).wellFormed State.reset.cfg = true ∧
      configOk State.reset.cfg = true) ∧
    State.reset.tpc.busy = false ∧ State.reset.cfg.tagBlockReg = none := by decide

/-- The entries of the example table (95 P1). -/
def exampleEntries : List TableEntry :=
  [{ cmd := 0x3A#8, args := [0x66#8], delay := false }, { cmd := 0x11#8, args := [], delay := true },
    { cmd := 0x29#8, args := [], delay := true }]

theorem test_meets_DinitReplaysWholeTable :
    let s := answering (List.replicate 5 .ok) [] []
    configOk s.cfg = true ∧ s.dsq.busy = false ∧ parse s.cfg.initTable = some (exampleEntries, 7) ∧
      s.dsq.answers = List.replicate (transactions (dinitItems s.cfg exampleEntries)) .ok ++ [] := by decide
/-- The first and the last transaction of the table failing. -/
theorem test_meets_DinitStopsAtFirstFailure :
    ∀ k ∈ [0, 4], let s := answering (List.replicate k .ok ++ [.fail]) [] []
      configOk s.cfg = true ∧ s.dsq.busy = false ∧ parse s.cfg.initTable = some (exampleEntries, 7) ∧
        k < transactions (dinitItems s.cfg exampleEntries) ∧ s.dsq.answers = List.replicate k .ok ++ .fail :: [] := by
  decide
/-- An entry with an argument and a delay: completed; its command and its argument transaction failing. -/
theorem test_meets_InitEntryAdvancesTable :
    let e : TableEntry := { cmd := 0x3A#8, args := [0x66#8], delay := true }
    (Instr.initEntry e.cmd e.delay e.args).encodable = true ∧ (standingAt 0 [.ok, .ok]).dsq.run = .table 0 :: [] ∧
      (standingAt 0 [.ok, .ok]).dsq.answers = List.replicate (transactions e.items) .ok ++ [] ∧
      ∀ k ∈ [0, 1], let s := standingAt 0 (List.replicate k .ok ++ [.fail])
        k < transactions e.items ∧ s.dsq.run = .table 0 :: [] ∧
          s.dsq.answers = List.replicate k .ok ++ .fail :: [] := by decide
theorem test_meets_InitEndEndsReplay : (standingAt 7 []).dsq.run = [.table 7] := by decide

/-- The whole panel and its last cell, a cell inside and one outside; the fill of a window of three pixels in one
transaction, in two of unequal size, and in one for each pixel. -/
theorem test_meets_PanelShowsFilledWindow :
    [exampleConfig.cmdSwreset, exampleConfig.cmdCaset, exampleConfig.cmdPaset, exampleConfig.cmdRamwr].Nodup ∧
      windowOk 0 0 240 320 = true ∧ windowOk 239 319 1 1 = true ∧
      (239 ≤ 239 ∧ 239 < 239 + 1 ∧ 319 ≤ 319 ∧ 319 < 319 + 1) ∧ ¬ (239 ≤ 238) ∧ windowOk 0 0 1 3 = true ∧
      ∀ fg ∈ [(FillFraming.coalesced, [3]), (.coalesced, [2, 1]), (.perPixel, [1, 1, 1])],
        isFillTraffic fg.1 (1 * 3) 0#24 (fg.2.map fun g => .data (pixelRun g 0#24) .ok) :=
  ⟨by decide, by decide, by decide, by decide, by decide, by decide, by
    intro fg _
    exact ⟨fg.2, by revert fg; decide, by revert fg; decide, by revert fg; decide, rfl⟩⟩

end Sys2Proof.Tests
end

/-!
PROOFS. O20, noninterference of the two units (R2): the port decides about a request by the configuration and the busy flag
of the request's own unit, and what it then performs works on that unit alone. So putting another value into the other unit
passes through every instruction.
-/
namespace Sys2Proof.Machine

/-- The port's decision passes through a change `g` of the state that keeps the configuration and the unit's busy flag, and
that refusing, holding and performing the request pass through (R68, R123, R149). -/
theorem State.request_next_of_commutes {i : Instr} {s t : State} {perform perform' : State → State} (g : State → State)
    (keepsCfg : (g s).cfg = s.cfg) (keepsBusy : (g s).unitBusy i.unit = s.unitBusy i.unit)
    (refuse : (g s).refuse = g s.refuse) (hold : (g s).hold i = g (s.hold i))
    (performs : perform' (g s) = g (perform s)) (h : s.request i perform = .next t) :
    (g s).request i perform' = .next (g t) := by
  obtain ⟨wf, rfl⟩ | ⟨wf, busy, rfl⟩ | ⟨wf, idle, rfl⟩ := State.request_cases h
  · rw [State.request_illFormed perform' (keepsCfg ▸ wf), refuse]
  · rw [State.request_busy perform' (keepsCfg ▸ wf) (keepsBusy.trans busy), hold]
  · rw [State.request_idle perform' (keepsCfg ▸ wf) (keepsBusy.trans idle), performs]

/-- A request of TPC lines does the same whatever DSQ holds. -/
theorem State.tpcRequest_next_withDsq {i : Instr} {result : TpcResult} {lines : List TAct} {s t : State} (d : Dsq)
    (unit : i.unit = .tpc) (h : s.tpcRequest i result lines = .next t) :
    State.tpcRequest i result lines { s with dsq := d } = .next { t with dsq := d } :=
  State.request_next_of_commutes (fun v => { v with dsq := d }) rfl (by rw [unit]; rfl) rfl rfl rfl h

/-- A request of DSQ lines does the same whatever TPC holds. -/
theorem State.dsqRequest_next_withTpc {i : Instr} {lines : List DAct} {s t : State} (u : Tpc)
    (unit : i.unit = .dsq) (h : s.dsqRequest i lines = .next t) :
    State.dsqRequest i lines { s with tpc := u } = .next { t with tpc := u } :=
  State.request_next_of_commutes (fun v => { v with tpc := u }) rfl (by rw [unit]; rfl) rfl rfl rfl h

/-- DINIT, the replay of the table included, does the same whatever TPC holds. -/
theorem execDinit_next_withTpc {s t : State} (u : Tpc) (h : execDinit s = .next t) :
    execDinit { s with tpc := u } = .next { t with tpc := u } := by
  unfold execDinit at h ⊢
  split at h
  case isTrue ok =>
    rw [if_pos ok]
    exact State.request_next_of_commutes (fun v => { v with tpc := u }) rfl rfl rfl rfl rfl h
  case isFalse => cases h

/-- A table entry does the same whatever TPC holds: where it has a meaning is for DSQ's position to say (R87). -/
theorem execInitEntry_next_withTpc {cmd : Byte} {delay : Bool} {args : List Byte} {s t : State} (u : Tpc)
    (h : execInitEntry cmd delay args s = .next t) :
    execInitEntry cmd delay args { s with tpc := u } = .next { t with tpc := u } := by
  unfold execInitEntry at h ⊢
  split at h
  next p rest run =>
    split at h
    case isTrue encodable =>
      cases h
      simp only [run, encodable, if_true]
    case isFalse => cases h
  next => cases h

/-- The table's terminator does the same whatever TPC holds. -/
theorem execInitEnd_next_withTpc {s t : State} (u : Tpc) (h : execInitEnd s = .next t) :
    execInitEnd { s with tpc := u } = .next { t with tpc := u } := by
  unfold execInitEnd at h ⊢
  split at h
  next p rest run =>
    cases h
    simp only [run]
  next => cases h

/-- A TPC instruction does the same whatever DSQ holds, and leaves it as it was. -/
theorem exec_next_withDsq {i : Instr} {s t : State} (d : Dsq) (unit : i.unit = .tpc) (h : exec i s = .next t) :
    exec i { s with dsq := d } = .next { t with dsq := d } := by
  unfold exec at h ⊢
  cases i with
  | rinit | rpoll | rpres | rread | rwrite | rscan => exact State.tpcRequest_next_withDsq d rfl h
  | dinit | dcmd | ddata | dwin | dfill | dbgset | dchar | dstr | initEntry | initEnd => cases unit

/-- A DSQ instruction, table entries included, does the same whatever TPC holds, and leaves it as it was. -/
theorem exec_next_withTpc {i : Instr} {s t : State} (u : Tpc) (unit : i.unit = .dsq) (h : exec i s = .next t) :
    exec i { s with tpc := u } = .next { t with tpc := u } := by
  unfold exec at h ⊢
  cases i with
  | dcmd | ddata | dwin | dfill | dbgset | dchar | dstr => exact State.dsqRequest_next_withTpc u rfl h
  | dinit => exact execDinit_next_withTpc u h
  | initEntry => exact execInitEntry_next_withTpc u h
  | initEnd => exact execInitEnd_next_withTpc u h
  | rinit | rpoll | rpres | rread | rwrite | rscan => cases unit

/-- Settles O20: each unit's instructions pass through any change of the other unit. -/
theorem unitsShareNoState : Obligations.UnitsShareNoState :=
  ⟨fun _ _ _ d => exec_next_withDsq d, fun _ _ _ u => exec_next_withTpc u⟩

end Sys2Proof.Machine

/-!
PROOFS. What exec can do to a state, and what a step can do: one inversion each, with the lines that every request
starts. Every invariant and every frame below is read off these cases.
-/
namespace Sys2Proof.Machine

/-- The lines a request starts in DSQ while the background is `bg` (R85–R101); none for every other instruction. -/
def displayLines (c : Config) (bg : Colour) : Instr → List DAct
  | .dinit => dinitLines c
  | .dcmd b => [.clearWinValid, .cmd b]
  | .ddata bytes => ddataLines bytes
  | .dwin x y w h => doWin c x.toNat y.toNat w.toNat h.toNat
  | .dfill r g b => doFill (rgb r g b)
  | .dbgset r g b => [.setBg (rgb r g b)]
  | .dchar x y cp scale r g b => doChar c bg x.toNat y.toNat cp scale.toNat (rgb r g b)
  | .dstr x y scale r g b text => dstrLines c bg x.toNat y.toNat scale.toNat (rgb r g b) text
  | .rinit | .rpoll | .rpres | .rread .. | .rwrite .. | .rscan | .initEntry .. | .initEnd => []

/-- The lines a request starts in TPC (R103–R113); none for every other instruction. -/
def tagLines (c : Config) : Instr → List TAct
  | .rinit => c.readerInitSeq.map fun rv => .write c.rfidAddr [rv.1, rv.2] true
  | .rpoll => rpollLines c
  | .rpres => doRread c.rfidAddr c.regPresence
  | .rread addr reg => doRread addr reg
  | .rwrite addr reg val => [.write addr [reg, val] true]
  | .rscan => scanAddrs.map .probe
  | .dinit | .dcmd _ | .ddata _ | .dwin .. | .dfill .. | .dbgset .. | .dchar .. | .dstr ..
  | .initEntry .. | .initEnd => []

/-- How the response of a TPC request is laid out (R67). -/
def tagResult : Instr → TpcResult
  | .rread .. => .value
  | .rpres => .presence
  | .rscan => .scan
  | .rpoll => .poll
  | .rinit | .rwrite .. | .dinit | .dcmd _ | .ddata _ | .dwin .. | .dfill .. | .dbgset .. | .dchar .. | .dstr ..
  | .initEntry .. | .initEnd => .plain

/-- What an instruction can make of a state. -/
inductive ExecCase (i : Instr) (s : State) : State → Prop
  /-- The port refuses an ill-formed request (R68, R123). -/
  | refused (req : i.isRequest = true) (illFormed : i.wellFormed s.cfg = false) : ExecCase i s s.refuse
  /-- The port holds a well-formed request for a busy unit (R149). -/
  | held (req : i.isRequest = true) (wf : i.wellFormed s.cfg = true) (busy : s.unitBusy i.unit = true) :
    ExecCase i s (s.hold i)
  /-- An idle DSQ performs a request other than DINIT. -/
  | display (req : i.isRequest = true) (unit : i.unit = .dsq) (ne : i ≠ .dinit)
    (wf : i.wellFormed s.cfg = true) (idle : s.dsq.busy = false) :
    ExecCase i s { s with dsq := s.dsq.start s.cfg (displayLines s.cfg s.dsq.bgColor i) }
  /-- An idle DSQ performs DINIT, the replay of the table included (R87). -/
  | bringUp (eq : i = .dinit) (ok : configOk s.cfg = true) (idle : s.dsq.busy = false) :
    ExecCase i s { s with
      dsq := Dsq.replay s.cfg s.cfg.initTable.length (s.dsq.start s.cfg (dinitLines s.cfg)) }
  /-- An idle TPC performs a request. -/
  | tag (req : i.isRequest = true) (unit : i.unit = .tpc) (wf : i.wellFormed s.cfg = true)
    (idle : s.tpc.busy = false) :
    ExecCase i s { s with tpc := s.tpc.start s.cfg (tagResult i) (tagLines s.cfg i) }
  /-- DSQ performs the table entry it stands at (R69, R87). -/
  | entry {p : Nat} {rest : List DAct} {cmd : Byte} {delay : Bool} {args : List Byte}
    (eq : i = .initEntry cmd delay args) (at_p : s.dsq.run = .table p :: rest) (encodable : i.encodable = true) :
    ExecCase i s { s with dsq := s.dsq.tableEntry s.cfg p rest cmd delay args }
  /-- DSQ performs the terminator it stands at (R71, R87). -/
  | terminator {p : Nat} {rest : List DAct} (eq : i = .initEnd) (at_p : s.dsq.run = .table p :: rest) :
    ExecCase i s { s with dsq := s.dsq.tableEnd s.cfg rest }

theorem ExecCase.of_request {i : Instr} {s t : State} {perform : State → State} (req : i.isRequest = true)
    (performs : i.wellFormed s.cfg = true → s.unitBusy i.unit = false → ExecCase i s (perform s))
    (h : s.request i perform = .next t) : ExecCase i s t := by
  obtain ⟨illFormed, rfl⟩ | ⟨wf, busy, rfl⟩ | ⟨wf, idle, rfl⟩ := State.request_cases h
  · exact .refused req illFormed
  · exact .held req wf busy
  · exact performs wf idle

theorem ExecCase.of_dsqRequest {i : Instr} {s t : State} (req : i.isRequest = true) (unit : i.unit = .dsq)
    (ne : i ≠ .dinit) (h : s.dsqRequest i (displayLines s.cfg s.dsq.bgColor i) = .next t) : ExecCase i s t :=
  .of_request req (fun wf idle => .display req unit ne wf (by rwa [unit] at idle)) h

theorem ExecCase.of_tpcRequest {i : Instr} {s t : State} (req : i.isRequest = true) (unit : i.unit = .tpc)
    (h : s.tpcRequest i (tagResult i) (tagLines s.cfg i) = .next t) : ExecCase i s t :=
  .of_request req (fun wf idle => .tag req unit wf (by rwa [unit] at idle)) h

/-- What exec can do, for every instruction. -/
theorem exec_cases {i : Instr} {s t : State} (h : exec i s = .next t) : ExecCase i s t := by
  unfold exec at h
  cases i with
  | dcmd | ddata | dwin | dfill | dbgset | dchar | dstr =>
    exact .of_dsqRequest rfl rfl (by simp) h
  | rinit | rpoll | rpres | rread | rwrite | rscan => exact .of_tpcRequest rfl rfl h
  | dinit =>
    simp only [execDinit] at h
    split at h
    case isTrue ok => exact .of_request rfl (fun _ idle => .bringUp rfl ok idle) h
    case isFalse => cases h
  | initEntry cmd delay args =>
    simp only [execInitEntry] at h
    split at h
    next p rest at_p =>
      split at h
      case isTrue encodable => cases h; exact .entry rfl at_p encodable
      case isFalse => cases h
    next => cases h
  | initEnd =>
    simp only [execInitEnd] at h
    split at h
    next p rest at_p => cases h; exact .terminator rfl at_p
    next => cases h

/-- Under an admitted configuration exec answers a next state for every request. -/
theorem exec_request_goesOn {i : Instr} {s : State} (req : i.isRequest = true) (ok : configOk s.cfg = true) :
    ∃ t, exec i s = .next t := by
  obtain ⟨perform, h, -⟩ := exec_request i s req ok
  rw [h]
  unfold State.request
  split_ifs <;> exact ⟨_, rfl⟩

/-! ### What the step takes next -/

/-- At a table offset the step takes the entry there. -/
theorem State.fetch_atTable {s : State} {p : Nat} {lines : List DAct} {i : Instr} {more : List Byte}
    (ok : configOk s.cfg = true) (at_p : s.dsq.run = .table p :: lines)
    (entry : decodeEntry (s.cfg.initTable.drop p) = .ok (i, more)) : s.fetch = .run i s := by
  simp only [State.fetch, ok, if_true, at_p, entry]

theorem Dsq.atTable_of_run {d : Dsq} {p : Nat} {rest : List DAct} (at_p : d.run = .table p :: rest) :
    d.atTable = true := by
  simp only [Dsq.atTable, at_p]

/-- Away from the table the step takes a held request whose unit is idle (R125, R149). -/
theorem State.fetch_accepted {s s' : State} {i : Instr} (ok : configOk s.cfg = true) (away : s.dsq.atTable = false)
    (accepts : s.acceptHeld = some (i, s')) : s.fetch = .run i s' := by
  simp only [State.fetch, ok, if_true]
  split
  next at_p => rw [Dsq.atTable_of_run at_p] at away; cases away
  next => simp only [accepts]

/-- Away from the table, with nothing to accept, the step takes the outside world's next input (R41, R133). -/
theorem State.fetch_input {s : State} {input : Input} {rest : List Input} (ok : configOk s.cfg = true)
    (away : s.dsq.atTable = false) (none : s.acceptHeld = none) (inputs : s.inputs = input :: rest) :
    s.fetch = State.receive input { s with inputs := rest } := by
  simp only [State.fetch, ok, if_true]
  split
  next at_p => rw [Dsq.atTable_of_run at_p] at away; cases away
  next => simp only [none, inputs]

/-- With nothing left to do the step waits (R136, R138). -/
theorem State.fetch_waits {s : State} (ok : configOk s.cfg = true) (away : s.dsq.atTable = false)
    (none : s.acceptHeld = none) (inputs : s.inputs = []) : s.fetch = .moved s := by
  simp only [State.fetch, ok, if_true]
  split
  next at_p => rw [Dsq.atTable_of_run at_p] at away; cases away
  next => simp only [none, inputs]

theorem State.acceptHeld_eq_none {s : State} (nothing : s.eligible = []) : s.acceptHeld = none := by
  simp only [State.acceptHeld, nothing]

/-- An accepted request was held for an idle unit. -/
theorem State.acceptHeld_eq_some {s s' : State} {i : Instr} (h : s.acceptHeld = some (i, s')) :
    i ∈ s.held ∧ s.unitBusy i.unit = false ∧ s' = { s with held := s.held.erase i, holdDraws := s.holdDraws + 1 } := by
  unfold State.acceptHeld at h
  split at h
  · cases h
  next first others heads =>
    cases h
    have mem : (first :: others).getD (Config.heldChoice s.holdDraws % (others.length + 1)) first ∈ s.eligible := by
      have lt : Config.heldChoice s.holdDraws % (others.length + 1) < (first :: others).length :=
        Nat.mod_lt _ (Nat.succ_pos _)
      rw [heads, List.getD_eq_getElem _ _ lt]
      exact List.getElem_mem lt
    obtain ⟨mem, idle⟩ := List.mem_filter.1 mem
    exact ⟨mem, by simpa using idle, rfl⟩

/-- What a step can make of a state. -/
inductive StepCase (s : State) : State → Prop
  /-- DSQ performs the table entry it stands at. -/
  | entry {p : Nat} {lines : List DAct} {i : Instr} {more : List Byte} {t : State}
    (at_p : s.dsq.run = .table p :: lines) (entry : decodeEntry (s.cfg.initTable.drop p) = .ok (i, more))
    (h : exec i s = .next t) : StepCase s t
  /-- An idle unit accepts a held request. -/
  | accepted {i : Instr} {t : State} (mem : i ∈ s.held) (idle : s.unitBusy i.unit = false)
    (h : exec i { s with held := s.held.erase i, holdDraws := s.holdDraws + 1 } = .next t) : StepCase s t
  /-- The host presents a request. -/
  | request {bytes : List Byte} {rest : List Input} {i : Instr} {t : State} (inputs : s.inputs = .request bytes :: rest)
    (dec : decodeRequest bytes = .ok i) (h : exec i { s with inputs := rest } = .next t) : StepCase s t
  /-- The host presents bytes that are no request (R68). -/
  | rejected {bytes : List Byte} {why : Reject} (rest : List Input) (inputs : s.inputs = .request bytes :: rest)
    (dec : decodeRequest bytes = .error why) : StepCase s (State.refuse { s with inputs := rest })
  /-- The display environment answers. -/
  | dispAnswer (rest : List Input) (a : DispAnswer) (inputs : s.inputs = .dispAnswer a :: rest) :
    StepCase s { s with inputs := rest, dsq := Dsq.resume s.cfg { s.dsq with answers := s.dsq.answers ++ [a] } }
  /-- The tag environment answers a write. -/
  | writeAnswer (rest : List Input) (a : WriteAnswer) (inputs : s.inputs = .tagWriteAnswer a :: rest) :
    StepCase s { s with
      inputs := rest, tpc := Tpc.resume s.cfg { s.tpc with writeAnswers := s.tpc.writeAnswers ++ [a] } }
  /-- The tag environment answers a read. -/
  | readAnswer (rest : List Input) (a : ReadAnswer) (inputs : s.inputs = .tagReadAnswer a :: rest) :
    StepCase s { s with
      inputs := rest, tpc := Tpc.resume s.cfg { s.tpc with readAnswers := s.tpc.readAnswers ++ [a] } }
  /-- The host reads the state port. -/
  | portRead (rest : List Input) (offset : BitVec 32) (inputs : s.inputs = .portRead offset :: rest) :
    StepCase s (State.portRead offset { s with inputs := rest })
  /-- Power-on. -/
  | powerOn (rest : List Input) (inputs : s.inputs = .powerOn :: rest) :
    StepCase s (State.powerOn { s with inputs := rest })
  /-- Nothing is left to do. -/
  | waits (inputs : s.inputs = []) : StepCase s s

/-- An input of the outside world leads to the case of its kind. -/
theorem StepCase.of_receive {input : Input} {rest : List Input} {s t : State}
    (inputs : s.inputs = input :: rest) (takes : s.fetch = State.receive input { s with inputs := rest })
    (h : step s = .next t) : StepCase s t := by
  rw [step, takes] at h
  cases input with
  | request bytes =>
    cases dec : decodeRequest bytes with
    | ok i => exact .request inputs dec (by simpa only [State.receive, dec] using h)
    | error why =>
      simp only [State.receive, dec, Host.Outcome.next.injEq] at h
      exact h ▸ .rejected rest inputs dec
  | dispAnswer a => cases h; exact .dispAnswer rest a inputs
  | tagWriteAnswer a => cases h; exact .writeAnswer rest a inputs
  | tagReadAnswer a => cases h; exact .readAnswer rest a inputs
  | portRead offset => cases h; exact .portRead rest offset inputs
  | powerOn => cases h; exact .powerOn rest inputs

/-- What a step can do, in every state. -/
theorem step_cases {s t : State} (h : step s = .next t) : StepCase s t := by
  cases ok : configOk s.cfg with
  | false => simp [step, State.fetch, ok] at h
  | true =>
    cases table : s.dsq.atTable with
    | true =>
      obtain ⟨p, rest, at_p⟩ := Dsq.exists_of_atTable table
      cases entry : decodeEntry (s.cfg.initTable.drop p) with
      | error why => simp [step, State.fetch, ok, at_p, entry] at h
      | ok ir => exact .entry at_p entry (by rwa [step, State.fetch_atTable ok at_p entry] at h)
    | false =>
      cases accepts : s.acceptHeld with
      | some is =>
        obtain ⟨mem, idle, rest⟩ := State.acceptHeld_eq_some accepts
        rw [step, State.fetch_accepted ok table accepts, rest] at h
        exact .accepted mem idle h
      | none =>
        cases inputs : s.inputs with
        | nil =>
          rw [step, State.fetch_waits ok table accepts inputs] at h
          cases h
          exact .waits inputs
        | cons input rest => exact .of_receive inputs (State.fetch_input ok table accepts inputs) h

/-- No instruction changes the configuration. -/
theorem exec_cfg {i : Instr} {s t : State} (h : exec i s = .next t) : t.cfg = s.cfg := by
  cases exec_cases h <;> rfl

/-- Settles O18: each case of a step leaves the configuration as it was. -/
theorem stepKeepsConfig : Obligations.StepKeepsConfig := by
  intro s t h
  cases step_cases h with
  | entry _ _ h | accepted _ _ h | request _ _ h => exact (exec_cfg h).trans rfl
  | rejected | dispAnswer | writeAnswer | readAnswer | portRead | powerOn | waits => rfl

end Sys2Proof.Machine

/-!
PROOFS. O59, the state port (R31): a read is one input and changes only what the host has read; a word made of fields is
the sum of the fields at their places.
-/
namespace Sys2Proof.Machine

/-- A concatenation is the sum of its parts at their places. -/
theorem toNat_append_eq_add {m n : Nat} (a : BitVec m) (b : BitVec n) :
    (a ++ b).toNat = a.toNat * 2 ^ n + b.toNat := by
  rw [BitVec.toNat_append, ← Nat.shiftLeft_add_eq_or_of_lt b.isLt, Nat.shiftLeft_eq]

theorem be32_toNat (a b c d : Byte) :
    (be32 a b c d).toNat = a.toNat * 2 ^ 24 + b.toNat * 2 ^ 16 + c.toNat * 2 ^ 8 + d.toNat := by
  unfold be32
  simp only [toNat_append_eq_add]
  omega

theorem Dsq.statWord_toNat (d : Dsq) : d.statWord.toNat =
    d.status.toNat * 256 + d.panelOk.toNat * 4 + d.winValid.toNat * 2 + d.busy.toNat := by
  unfold Dsq.statWord
  simp only [toNat_append_eq_add, BitVec.toNat_ofBool, BitVec.toNat_ofNat, Nat.zero_mod]
  omega

theorem Tpc.statWord_toNat (t : Tpc) : t.statWord.toNat =
    t.status.toNat * 256 + (decide (t.lastLen = 12#4)).toNat * 2 + t.busy.toNat := by
  unfold Tpc.statWord Tpc.tagPresent
  simp only [toNat_append_eq_add, BitVec.toNat_ofBool, BitVec.toNat_ofNat, Nat.zero_mod]
  omega

/-- An offset beyond the last word, or unaligned, is none of the listed ones. -/
theorem State.portWord_unlisted {offset : BitVec 32} (h : 0x1C < offset.toNat ∨ offset.toNat % 4 ≠ 0) (s : State) :
    s.portWord offset = 0#32 := by
  have unlisted : ∀ k ≤ 7, offset ≠ BitVec.ofNat 32 (4 * k) := by
    rintro k hk rfl
    rw [BitVec.toNat_ofNat] at h
    omega
  unfold State.portWord
  rw [if_neg (unlisted 0 (by omega)), if_neg (unlisted 1 (by omega)), if_neg (unlisted 2 (by omega)),
    if_neg (unlisted 3 (by omega)), if_neg (unlisted 4 (by omega)), if_neg (unlisted 5 (by omega)),
    if_neg (unlisted 6 (by omega)), if_neg (unlisted 7 (by omega))]

/-- A read of the port is one step, which shows the host the word (R31, R137). -/
theorem step_portRead {s : State} {offset : BitVec 32} {rest : List Input} (ok : configOk s.cfg = true)
    (away : s.dsq.atTable = false) (none : s.eligible = []) (inputs : s.inputs = .portRead offset :: rest) :
    step s = .next (State.portRead offset { s with inputs := rest }) := by
  rw [step, State.fetch_input ok away (State.acceptHeld_eq_none none) inputs]
  rfl

/-- Settles O59: a read is one input that changes nothing else; each word is the sum of its fields. -/
theorem statePortReads : Obligations.StatePortReads := by
  refine ⟨fun s offset rest => step_portRead, fun s => ⟨s.dsq.statWord_toNat, ?_, ?_, ?_, s.tpc.statWord_toNat, ?_,
    fun offset h => State.portWord_unlisted h s⟩⟩
  · exact toNat_append_eq_add s.dsq.winX1 s.dsq.winX0
  · exact toNat_append_eq_add s.dsq.winY1 s.dsq.winY0
  · exact (toNat_append_eq_add 0#8 s.dsq.bgColor).trans (by simp)
  · intro k hk
    interval_cases k <;> exact be32_toNat ..

/-- Settles O57: the values of the reset table (R32). -/
theorem resetLeavesRegisterValues : Obligations.ResetLeavesRegisterValues := by
  unfold Obligations.ResetLeavesRegisterValues
  decide

end Sys2Proof.Machine

/-!
PROOFS. O16 for DSQ: what holds while an operation runs, that every line keeps it, and that the lines of every request
and of every table entry are legal.
-/
namespace Sys2Proof.Machine

/-- What holds of DSQ while an operation runs: its invariant, but for what the operation has left to do. -/
def Dsq.Running (d : Dsq) : Prop :=
  d.windowLegal ∧ d.status ∈ [0x00#8, 0x01#8, 0x04#8, 0x05#8] ∧ d.busy = true ∧ d.trace.all DispItem.legal = true

/-! ### Into a running operation and out of it -/

/-- A DSQ that accepts an operation runs it (R16). -/
theorem Dsq.Inv.running_of_accept {c : Config} {d : Dsq} (h : d.Inv c) : Dsq.Running { d with busy := true } := by
  obtain ⟨window, status, -, -, trace⟩ := h
  exact ⟨window, status, rfl, trace⟩

/-- A DSQ with something left to do runs it. -/
theorem Dsq.Inv.running_of_run {c : Config} {d : Dsq} {line : DAct} {rest : List DAct} (h : d.Inv c)
    (run : d.run = line :: rest) : d.Running := by
  obtain ⟨window, status, busy, -, trace⟩ := h
  refine ⟨window, status, ?_, trace⟩
  cases b : d.busy with
  | true => rfl
  | false => rw [busy.1 b] at run; cases run

/-- An operation that waits with legal lines left. -/
theorem Dsq.Running.waits {c : Config} {d : Dsq} {line : DAct} {rest : List DAct} (h : d.Running)
    (legal : line.legal c = true) (restLegal : rest.all (DAct.legal c) = true) :
    Dsq.Inv c { d with run := line :: rest } := by
  obtain ⟨window, status, busy, trace⟩ := h
  exact ⟨window, status, by simp [busy], by simp [legal, restLegal], trace⟩

/-- An operation that ends. -/
theorem Dsq.Running.finish {d : Dsq} (h : d.Running) (c : Config) : (d.finish .ok).Inv c := by
  obtain ⟨window, -, -, trace⟩ := h
  exact ⟨window, by simp [Status.code], by simp, rfl, trace⟩

/-- An operation that raises one of the errors of DSQ (R117, R120). -/
theorem Dsq.Running.raise {e : Status} {d : Dsq} (h : d.Running) (dsqError : e ∈ [.errDbus, .errRange, .errNoWindow])
    (c : Config) : (d.raise e).Inv c := by
  obtain ⟨window, -, -, trace⟩ := h
  have code : e.code ∈ [0x00#8, 0x01#8, 0x04#8, 0x05#8] := by
    revert e
    decide
  exact ⟨by simpa [Dsq.raise, Dsq.windowLegal] using window, by simpa [Dsq.raise] using code, by simp [Dsq.raise], rfl,
    by simpa [Dsq.raise] using trace⟩

/-- Legal traffic on the bus (R42). -/
theorem Dsq.Running.traffic {d : Dsq} {items : List DispItem} (h : d.Running)
    (legal : items.all DispItem.legal = true) (as : List DispAnswer) (draws : Nat) :
    Dsq.Running { d with trace := d.trace ++ items, answers := as, groupDraws := draws } := by
  obtain ⟨window, status, busy, trace⟩ := h
  exact ⟨window, status, busy, by simp [trace, legal]⟩

/-- A window that fits the panel is a legal one (R18, R88). -/
theorem Dsq.Running.openWindow {d : Dsq} {x y w h : Nat} (running : d.Running) (fits : windowOk x y w h = true) :
    Dsq.Running { d.setWindow x y w h with winValid := true } := by
  obtain ⟨-, status, busy, trace⟩ := running
  obtain ⟨hw, hh, hx, hy⟩ := windowOk_iff.1 fits
  refine ⟨?_, status, busy, trace⟩
  simp only [Dsq.windowLegal, Dsq.setWindow_winX0, Dsq.setWindow_winX1, Dsq.setWindow_winY0, Dsq.setWindow_winY1,
    BitVec.toNat_ofNat, panelW, panelH]
  omega

/-! ### Every line -/

/-- A transaction of a running operation. -/
theorem Dsq.Running.keeps_transactLine {c : Config} {d : Dsq} {item : DispAnswer → DispItem} {line : DAct}
    {rest : List DAct} (h : d.Running) (legal : ∀ a, (item a).legal = true) (lineLegal : line.legal c = true)
    (restLegal : rest.all (DAct.legal c) = true) :
    Dsq.Keeps Dsq.Running (Dsq.Inv c) rest (d.transactLine item line) := by
  unfold Dsq.transactLine Dsq.transact
  rcases d.answers with _ | ⟨_ | _, as⟩
  · exact h.waits lineLegal restLegal
  · exact h.traffic (by simp [legal]) as d.groupDraws
  · exact (h.traffic (by simp [legal]) as d.groupDraws).raise (by decide) c

/-- The pixel loop of a running operation, in any framing. -/
theorem Dsq.Running.keeps_sendPixels {c : Config} {d : Dsq} {rest : List DAct} (h : d.Running)
    (restLegal : rest.all (DAct.legal c) = true) (f : FillFraming) (v : Colour) (as : List DispAnswer) (left : Nat) :
    Dsq.Keeps Dsq.Running (Dsq.Inv c) rest (Dsq.sendPixels f v as left d) := by
  obtain ⟨items, as', draws, sent, legal, -, result⟩ := Dsq.sendPixels_cases f v as left d
  have sentLegal := h.traffic legal as' draws
  rcases result with ⟨e, -⟩ | ⟨e, -⟩ | ⟨e, -⟩ <;> rw [e]
  · exact sentLegal
  · exact sentLegal.raise (by decide) c
  · exact sentLegal.waits rfl restLegal

/-- Every legal line of a running operation. -/
theorem Dsq.Running.keeps_act {c : Config} {d : Dsq} {line : DAct} {rest : List DAct} (h : d.Running)
    (legal : line.legal c = true) (restLegal : rest.all (DAct.legal c) = true) :
    Dsq.Keeps Dsq.Running (Dsq.Inv c) rest (d.act c line) := by
  cases line with
  | clearWinValid | setPanelOk | setBg => exact h
  | reject e =>
    obtain rfl : e = .errRange := by simpa [DAct.legal] using legal
    exact h.raise (by decide) c
  | needWindow =>
    simp only [Dsq.act]
    split
    · exact h
    · exact h.raise (by decide) c
  | cmd b => exact h.keeps_transactLine (fun _ => rfl) legal restLegal
  | data s => exact h.keeps_transactLine (fun _ => legal) legal restLegal
  | wait ms => exact h.traffic rfl d.answers d.groupDraws
  | openWindow x y w h' => exact h.openWindow legal
  | fill v => exact h.keeps_sendPixels restLegal _ v _ _
  | pixels left v => exact h.keeps_sendPixels restLegal _ v _ _
  | table p => exact h.waits legal restLegal

/-- Running legal lines leads to a state that meets the invariant. -/
theorem Dsq.Running.go {c : Config} {lines : List DAct} {d : Dsq} (h : d.Running)
    (legal : lines.all (DAct.legal c) = true) : (Dsq.go c lines d).Inv c := by
  refine Dsq.go_keeps (P := Dsq.Running) (fun _ hd => hd.finish c) (fun before line rest d split hd => ?_) h
  subst split
  simp only [List.all_append, List.all_cons, Bool.and_eq_true] at legal
  obtain ⟨-, lineLegal, restLegal⟩ := legal
  exact hd.keeps_act lineLegal restLegal

/-! ### The operations -/

theorem Dsq.Inv.start {c : Config} {lines : List DAct} {d : Dsq} (h : d.Inv c)
    (legal : lines.all (DAct.legal c) = true) : (d.start c lines).Inv c :=
  h.running_of_accept.go legal

theorem Dsq.Inv.resume {c : Config} {d : Dsq} (h : d.Inv c) : (d.resume c).Inv c := by
  obtain ⟨-, -, -, legal, -⟩ := id h
  unfold Dsq.resume
  split
  next => exact h
  next line rest run => exact (h.running_of_run run).go (run ▸ legal)

/-- What a waiting DSQ has left is legal, an offset it stands at among it. -/
theorem Dsq.Inv.legal_atTable {c : Config} {d : Dsq} {p : Nat} {rest : List DAct} (h : d.Inv c)
    (at_p : d.run = .table p :: rest) :
    tableWellFormed (c.initTable.drop p) = true ∧ rest.all (DAct.legal c) = true := by
  obtain ⟨-, -, -, legal, -⟩ := h
  simpa [at_p, DAct.legal] using legal

/-- The table goes on well formed behind an entry (R72, R83). -/
theorem tableWellFormed_drop_entry {bs more : List Byte} {cmd : Byte} {delay : Bool} {args : List Byte}
    (wf : tableWellFormed bs = true) (entry : decodeEntry bs = .ok (.initEntry cmd delay args, more)) :
    tableWellFormed (bs.drop (2 + args.length)) = true := by
  obtain ⟨_, stop⟩ | ⟨cmd', delay', args', more', entry', wf'⟩ := tableWellFormed_cases wf
  · rw [entry] at stop
    cases stop
  · rw [entry] at entry'
    cases entry'
    obtain ⟨stop, -⟩ | ⟨_, _, _, same, -, rfl, -⟩ := decodeEntry_cases entry
    · cases stop
    · cases same
      exact wf'

theorem entryLines_legal (c : Config) (cmd : Byte) (delay : Bool) (args : List Byte) :
    (entryLines cmd delay args).all (DAct.legal c) = true := by
  unfold entryLines
  split_ifs with empty <;> simp [DAct.legal, empty]

/-- The entry that INIT_ROM holds where DSQ stands. -/
theorem Dsq.Inv.tableEntry {c : Config} {d : Dsq} {p : Nat} {rest : List DAct} {cmd : Byte} {delay : Bool}
    {args more : List Byte} (h : d.Inv c) (at_p : d.run = .table p :: rest)
    (entry : decodeEntry (c.initTable.drop p) = .ok (.initEntry cmd delay args, more)) :
    (d.tableEntry c p rest cmd delay args).Inv c := by
  obtain ⟨wf, restLegal⟩ := h.legal_atTable at_p
  have next := tableWellFormed_drop_entry wf entry
  rw [List.drop_drop, ← Nat.add_assoc] at next
  refine (h.running_of_run at_p).go ?_
  simp only [List.all_append, List.all_cons, entryLines_legal, restLegal, DAct.legal, next, Bool.and_true]

/-- The terminator where DSQ stands. -/
theorem Dsq.Inv.tableEnd {c : Config} {d : Dsq} {p : Nat} {rest : List DAct} (h : d.Inv c)
    (at_p : d.run = .table p :: rest) : (d.tableEnd c rest).Inv c := by
  obtain ⟨-, restLegal⟩ := h.legal_atTable at_p
  exact (h.running_of_run at_p).go (by simpa [DAct.legal] using restLegal)

/-- DINIT's loop keeps what its turns keep: an entry that INIT_ROM holds where DSQ stands, and the terminator. -/
theorem Dsq.replay_keeps {c : Config} {P : Dsq → Prop}
    (entry : ∀ d p rest cmd delay args more, P d → d.run = .table p :: rest →
      decodeEntry (c.initTable.drop p) = .ok (.initEntry cmd delay args, more) →
      P (d.tableEntry c p rest cmd delay args))
    (stop : ∀ d p rest, P d → d.run = .table p :: rest → P (d.tableEnd c rest)) (fuel : Nat) {d : Dsq} (h : P d) :
    P (Dsq.replay c fuel d) := by
  induction fuel generalizing d with
  | zero => exact h
  | succ fuel ih =>
    unfold Dsq.replay
    split
    next p rest at_p =>
      split
      next cmd delay args more dec => exact ih (entry d p rest cmd delay args more h at_p dec)
      next => exact stop d p rest h at_p
      next => exact h
    next => exact h

theorem Dsq.Inv.replay {c : Config} {d : Dsq} (h : d.Inv c) (fuel : Nat) : (Dsq.replay c fuel d).Inv c :=
  Dsq.replay_keeps (fun _ _ _ _ _ _ _ hd => hd.tableEntry) (fun _ _ _ hd => hd.tableEnd) fuel h

theorem Dsq.reset_inv (c : Config) : (Dsq.reset c).Inv c :=
  ⟨by simp [Dsq.windowLegal, Dsq.reset, panelW, panelH], by simp [Dsq.reset], by simp [Dsq.reset], rfl, rfl⟩

theorem Dsq.Inv.powerOn {c : Config} {d : Dsq} (h : d.Inv c) : (d.powerOn c).Inv c := by
  obtain ⟨window, status, busy, run, -⟩ := Dsq.reset_inv c
  obtain ⟨-, -, -, -, trace⟩ := h
  exact ⟨window, status, busy, run, trace⟩

/-! ### The lines of the requests -/

theorem doWin_legal (c : Config) (x y w h : Nat) : (doWin c x y w h).all (DAct.legal c) = true := by
  unfold doWin
  split_ifs with fits <;> simp [DAct.legal, casetArgs, pasetArgs, rangeArgs, u16Bytes, fits]

theorem doFill_legal (c : Config) (v : Colour) : (doFill v).all (DAct.legal c) = true := rfl

/-- What every window sequence and every fill consists of, a character consists of (R97). -/
theorem doChar_all {p : DAct → Bool} {c : Config} (win : ∀ x y w h, (doWin c x y w h).all p = true)
    (fill : ∀ v, (doFill v).all p = true) (bg : Colour) (x y : Nat) (cp : Byte) (scale : Nat) (fg : Colour) :
    (doChar c bg x y cp scale fg).all p = true := by
  simp only [doChar_eq_blocks, Block.lines, List.all_flatMap, List.all_append, win, fill]
  simp

/-- So does a text (R100). -/
theorem dstrLines_all {p : DAct → Bool} {c : Config} (win : ∀ x y w h, (doWin c x y w h).all p = true)
    (fill : ∀ v, (doFill v).all p = true) (bg : Colour) (x y scale : Nat) (fg : Colour) (text : List Byte) :
    (dstrLines c bg x y scale fg text).all p = true := by
  simp only [dstrLines, List.all_flatMap, doChar_all win fill]
  simp

/-- Every request starts legal lines, DINIT under an admitted configuration. -/
theorem displayLines_legal {c : Config} (ok : configOk c = true) (bg : Colour) (i : Instr) :
    (displayLines c bg i).all (DAct.legal c) = true := by
  have table : tableWellFormed c.initTable = true := by
    simp only [configOk, Bool.and_eq_true] at ok
    tauto
  cases i with
  | dinit => simp [displayLines, dinitLines, DAct.legal, table]
  | dwin => exact doWin_legal ..
  | dchar => exact doChar_all (doWin_legal c) (doFill_legal c) ..
  | dstr => exact dstrLines_all (doWin_legal c) (doFill_legal c) ..
  | ddata bytes => cases bytes <;> rfl
  | dcmd | dfill | dbgset | rinit | rpoll | rpres | rread | rwrite | rscan | initEntry | initEnd => rfl

end Sys2Proof.Machine

/-!
PROOFS. O16 for TPC: the tag ids of a decoded block and of the de-duplication, what holds while an operation runs, and
that every line keeps it.
-/
namespace Sys2Proof.Machine

/-! ### Tag ids -/

theorem isHexDigit_hexdigit (n : BitVec 4) : isHexDigit (hexdigit n.toNat) = true := by
  revert n
  decide

theorem hexBytes_all_isHexDigit (bs : List Byte) : (hexBytes bs).all isHexDigit = true := by
  simp [hexBytes, isHexDigit_hexdigit, -BitVec.extractLsb'_toNat]

theorem hexBytes_length (bs : List Byte) : (hexBytes bs).length = 2 * bs.length := by
  induction bs with
  | nil => rfl
  | cons b bs ih =>
    simp only [hexBytes, List.flatMap_cons, List.length_append, List.length_cons, List.length_nil] at ih ⊢
    omega

/-- A block decodes to a tag id or to the empty id (R110). -/
theorem decodeBlock_tagId (s : List Byte) : (decodeBlock s).tagId = [] ∨ isTagId (decodeBlock s).tagId := by
  unfold decodeBlock
  split
  next len => exact .inr ⟨by simp [hexBytes_length, len, tagBlockLen], hexBytes_all_isHexDigit _⟩
  next => exact .inl rfl

/-- What the de-duplication can answer (R111). -/
theorem dedup_cases (policy : EmptyReadPolicy) (last cand : List Byte) :
    (dedup policy last cand = (cand, true) ∧ cand ≠ []) ∨ dedup policy last cand = (last, false) ∨
      dedup policy last cand = ([], false) := by
  unfold dedup
  split_ifs with emits same
  · exact .inl ⟨rfl, emits.1⟩
  · exact .inr (.inl rfl)
  · cases policy
    · exact .inr (.inl rfl)
    · exact .inr (.inr rfl)

/-- The stored tag as a string is empty or a tag id (R24). -/
theorem Tpc.tagLegal.tagString {t : Tpc} (h : t.tagLegal) : t.tagString = [] ∨ isTagId t.tagString := by
  unfold Tpc.tagString
  split
  next => exact .inl rfl
  next nonempty =>
    obtain ⟨len, -⟩ | ⟨-, id⟩ := h
    · exact absurd len nonempty
    · exact .inr id

/-- A stored id in one of the two forms leaves the registers in one of the two forms (R24). -/
theorem Tpc.storeTag_tagLegal {id : List Byte} (h : id = [] ∨ isTagId id) (t : Tpc) : (t.storeTag id).tagLegal := by
  obtain rfl | ⟨len, digits⟩ := h
  · exact .inl ⟨rfl, rfl⟩
  · have : id ≠ [] := by
      rintro rfl
      cases len
    exact .inr ⟨by simp [this], by simp [this, len], by simpa [this] using digits⟩

/-- The status a poll or another operation without an error ends with (R117). -/
theorem TpcWork.status_cases (w : TpcWork) : w.status = .ok ∨ w.status = .decodeEmpty := by
  unfold TpcWork.status
  split
  · split_ifs <;> simp
  · exact .inl rfl

/-! ### Into a running operation and out of it -/

/-- What holds of TPC while an operation runs: its invariant, but for what the operation has left to do. -/
def Tpc.Running (t : Tpc) : Prop :=
  t.tagLegal ∧ t.status ∈ [0x00#8, 0x02#8, 0x03#8] ∧ t.busy = true ∧ (∀ r ∈ t.work.event, isTagId r.tagId) ∧
    t.trace.all TagItem.legal = true

/-- A TPC that accepts an operation runs it, with no event pending (R22). -/
theorem Tpc.Inv.running_of_accept {t : Tpc} (h : t.Inv) (result : TpcResult) :
    Tpc.Running { t with busy := true, work := { TpcWork.idle with result := result } } := by
  obtain ⟨tag, status, -, -, -, trace⟩ := h
  exact ⟨tag, status, rfl, by simp [TpcWork.idle], trace⟩

/-- A TPC with something left to do runs it. -/
theorem Tpc.Inv.running_of_run {t : Tpc} {line : TAct} {rest : List TAct} (h : t.Inv) (run : t.run = line :: rest) :
    t.Running := by
  obtain ⟨tag, status, busy, -, event, trace⟩ := h
  refine ⟨tag, status, ?_, event, trace⟩
  cases b : t.busy with
  | true => rfl
  | false => rw [busy.1 b] at run; cases run

theorem Tpc.Running.waits {t : Tpc} (h : t.Running) (line : TAct) (rest : List TAct) :
    Tpc.Inv { t with run := line :: rest } := by
  obtain ⟨tag, status, busy, event, trace⟩ := h
  exact ⟨tag, status, by simp [busy], by simp [busy], event, trace⟩

/-- An operation that ends, with an error or without (R117, R119). -/
theorem Tpc.Running.finish {e : Status} {t : Tpc} (h : t.Running) (tpcStatus : e ∈ [.ok, .errRbus, .decodeEmpty]) :
    (t.finish e).Inv := by
  obtain ⟨tag, -, -, -, trace⟩ := h
  have code : e.code ∈ [0x00#8, 0x02#8, 0x03#8] := by
    revert e
    decide
  exact ⟨tag, code, by simp, by simp, by simp [TpcWork.idle], trace⟩

theorem Tpc.Running.raise {t : Tpc} (h : t.Running) : (t.raise .errRbus).Inv := h.finish (by decide)

/-- Legal traffic on the bus (R45). -/
theorem Tpc.Running.traffic {t : Tpc} {items : List TagItem} (h : t.Running)
    (legal : items.all TagItem.legal = true) (ws : List WriteAnswer) (rs : List ReadAnswer) :
    (t.traffic items ws rs).Running := by
  obtain ⟨tag, status, busy, event, trace⟩ := h
  exact ⟨tag, status, busy, event, by simp [trace, legal]⟩

/-- A read answer is cut to what was asked for (R45). -/
theorem TagItem.read_cut_legal (addr : DevAddr) (n : Nat) (a : ReadAnswer) :
    (TagItem.read addr n (a.cut n)).legal = true := by
  cases a <;> simp [ReadAnswer.cut, TagItem.legal]

/-- A delivered block leaves a legal stored tag, and an event only with a tag id (R24, R78, R111). -/
theorem Tpc.Running.takeBlock {t : Tpc} (h : t.Running) (c : Config) (bytes : List Byte) :
    (t.takeBlock c bytes).Running := by
  obtain ⟨tag, status, busy, -, trace⟩ := h
  have cand := decodeBlock_tagId bytes
  rw [Tpc.takeBlock_eq]
  refine ⟨Tpc.storeTag_tagLegal ?_ t, status, busy, ?_, trace⟩
  · obtain ⟨e, -⟩ | e | e := dedup_cases c.emptyReadPolicy t.tagString (decodeBlock bytes).tagId <;> rw [e]
    · exact cand
    · exact tag.tagString
    · exact .inl rfl
  · obtain ⟨e, ne⟩ | e | e := dedup_cases c.emptyReadPolicy t.tagString (decodeBlock bytes).tagId
    · simpa [pollEvent, e] using cand.resolve_left ne
    · simp [pollEvent, e]
    · simp [pollEvent, e]

/-! ### Every line -/

/-- A write on the tag bus, by its answer. -/
theorem Tpc.twrite_cases (addr : DevAddr) (s : List Byte) (stop : Bool) (t : Tpc) :
    t.twrite addr s stop = none ∨
      ∃ a ws, t.twrite addr s stop = some (a, t.traffic [.write addr s stop a] ws t.readAnswers) := by
  unfold Tpc.twrite
  split
  · exact .inl rfl
  · exact .inr ⟨_, _, rfl⟩

/-- A read on the tag bus, by its answer. -/
theorem Tpc.tread_cases (addr : DevAddr) (n : Nat) (t : Tpc) :
    t.tread addr n = none ∨ ∃ (a : ReadAnswer) (rs : List ReadAnswer),
      t.tread addr n = some (a.cut n, t.traffic [.read addr n (a.cut n)] t.writeAnswers rs) := by
  unfold Tpc.tread
  split
  · exact .inl rfl
  · exact .inr ⟨_, _, rfl⟩

/-- If `P` does not look at what a bus transaction changes but for legal traffic, nor at the values read and probed, and
a delivered block keeps it, then every line keeps `P` and reaches `Q` where the operation fails or waits. -/
theorem Tpc.act_keeps {c : Config} {P Q : Tpc → Prop} {line : TAct} {rest : List TAct}
    (bus : ∀ t items ws rs, items.all TagItem.legal = true → P t → P (t.traffic items ws rs))
    (values : ∀ t value acks, P t → P { t with work := { t.work with value := value, acks := acks } })
    (block : line = .readBlock → ∀ t bytes, P t → P (t.takeBlock c bytes))
    (waits : ∀ t, P t → Q { t with run := line :: rest }) (fails : ∀ t, P t → Q (t.raise .errRbus)) {t : Tpc}
    (h : P t) : Tpc.Keeps P Q rest (t.act c line) := by
  have written : ∀ addr s stop a ws, P (t.traffic [.write addr s stop a] ws t.readAnswers) := fun _ _ _ _ ws =>
    bus t _ ws _ rfl h
  have readBack : ∀ addr n (a : ReadAnswer) rs, P (t.traffic [.read addr n (a.cut n)] t.writeAnswers rs) :=
    fun addr n a rs => bus t _ _ rs (by simp [TagItem.read_cut_legal]) h
  cases line with
  | write addr s stop =>
    obtain e | ⟨a, ws, e⟩ := t.twrite_cases addr s stop <;> simp only [Tpc.act, e]
    · exact waits t h
    · have := written addr s stop a ws
      cases a with
      | ack => exact this
      | nack => exact fails _ this
  | probe addr =>
    obtain e | ⟨a, ws, e⟩ := t.twrite_cases addr [] true <;> simp only [Tpc.act, e]
    · exact waits t h
    · have := written addr [] true a ws
      cases a with
      | ack => exact values _ t.work.value _ this
      | nack => exact this
  | readReg addr =>
    obtain e | ⟨a, rs, e⟩ := t.tread_cases addr 1 <;> simp only [Tpc.act, e]
    · exact waits t h
    · have := readBack addr 1 a rs
      match a.cut 1, this with
      | .ok (v :: _), this => exact values _ v t.work.acks this
      | .ok [], this => exact fails _ this
      | .fail, this => exact fails _ this
  | readBlock =>
    obtain e | ⟨a, rs, e⟩ := t.tread_cases c.rfidAddr tagBlockLen <;> simp only [Tpc.act, e]
    · exact waits t h
    · have := readBack c.rfidAddr tagBlockLen a rs
      match a.cut tagBlockLen, this with
      | .ok bytes, this => exact block rfl _ bytes this
      | .fail, this => exact fails _ this
  | drain =>
    obtain e | ⟨a, rs, e⟩ := t.tread_cases c.rfidAddr c.drainLen <;> simp only [Tpc.act, e]
    · exact waits t h
    · have := readBack c.rfidAddr c.drainLen a rs
      match a.cut c.drainLen, this with
      | .ok _, this => exact this
      | .fail, this => exact fails _ this

/-- Every line of a running operation keeps what holds while it runs. -/
theorem Tpc.Running.keeps_act {t : Tpc} (h : t.Running) (c : Config) (line : TAct) (rest : List TAct) :
    Tpc.Keeps Tpc.Running Tpc.Inv rest (t.act c line) :=
  Tpc.act_keeps (bus := fun _ _ ws rs legal ht => ht.traffic legal ws rs) (values := fun _ _ _ ht => ht)
    (block := fun _ _ bytes ht => ht.takeBlock c bytes) (waits := fun _ ht => ht.waits line rest)
    (fails := fun _ ht => ht.raise) h

/-- Running any lines leads to a state that meets the invariant. -/
theorem Tpc.Running.go {t : Tpc} (h : t.Running) (c : Config) (lines : List TAct) : (Tpc.go c lines t).Inv := by
  refine Tpc.go_keeps (P := Tpc.Running) (fun t ht => ht.finish ?_)
    (fun _ line rest _ _ ht => ht.keeps_act c line rest) h
  obtain e | e := t.work.status_cases <;> simp [e]

/-! ### The operations -/

theorem Tpc.Inv.start {t : Tpc} (h : t.Inv) (c : Config) (result : TpcResult) (lines : List TAct) :
    (t.start c result lines).Inv :=
  (h.running_of_accept result).go c lines

theorem Tpc.Inv.resume {t : Tpc} (h : t.Inv) (c : Config) : (t.resume c).Inv := by
  unfold Tpc.resume
  split
  next => exact h
  next line rest run => exact (h.running_of_run run).go c _

theorem Tpc.reset_inv : Tpc.reset.Inv := by decide

theorem Tpc.Inv.powerOn {t : Tpc} (h : t.Inv) : t.powerOn.Inv := by
  obtain ⟨tag, status, busy, work, event, -⟩ := Tpc.reset_inv
  obtain ⟨-, -, -, -, -, trace⟩ := h
  exact ⟨tag, status, busy, work, event, trace⟩

end Sys2Proof.Machine

/-!
PROOFS. O16 and O17: every instruction the step can take keeps the machine's invariant, and from a state that meets it
the step has something to take.
-/
namespace Sys2Proof.Machine

/-! ### The decoder answers requests only -/

theorem isRequest_of_decodeBare {i j : Instr} {op : Byte} {args : List Byte} (req : j.isRequest = true)
    (h : decodeBare j op args = .ok i) : i.isRequest = true := by
  cases args <;> cases h
  exact req

theorem isRequest_of_decodeArgs {o : Op} {args : List Byte} {i : Instr} (h : decodeArgs o args = .ok i) :
    i.isRequest = true := by
  cases o with
  | dinit | rinit | rpoll | rpres | rscan => exact isRequest_of_decodeBare rfl h
  | dcmd | dwin | dfill | dbgset | dchar =>
    simp only [decodeArgs] at h
    split at h <;> cases h
    rfl
  | ddata | dstr | rread | rwrite =>
    simp only [decodeArgs] at h
    split at h
    · split at h <;> cases h
      rfl
    · cases h

/-- What the port decodes is a request, never a table entry (R64–R66). -/
theorem isRequest_of_decodeRequest {bytes : List Byte} {i : Instr} (h : decodeRequest bytes = .ok i) :
    i.isRequest = true := by
  unfold decodeRequest at h
  split at h
  · cases h
  · split at h
    · exact isRequest_of_decodeArgs h
    · cases h

/-! ### Instructions keep the invariant -/

/-- A request keeps the invariant, whether it is refused, held or performed. -/
theorem State.Inv.exec_request {i : Instr} {s t : State} (inv : s.Inv) (req : i.isRequest = true)
    (h : exec i s = .next t) : t.Inv := by
  obtain ⟨ok, dsq, tpc, held⟩ := inv
  cases exec_cases h with
  | refused => exact ⟨ok, dsq, tpc, held⟩
  | held _ wf => exact ⟨ok, dsq, tpc, by
      rw [State.hold_held, State.hold_cfg, List.all_append, held, List.all_cons, req, wf]
      rfl⟩
  | display => exact ⟨ok, dsq.start (displayLines_legal ok _ i), tpc, held⟩
  | bringUp => exact ⟨ok, (dsq.start (displayLines_legal ok s.dsq.bgColor .dinit)).replay _, tpc, held⟩
  | tag => exact ⟨ok, dsq, tpc.start s.cfg _ _, held⟩
  | entry eq | terminator eq => subst eq; cases req

/-- The table entry DSQ stands at keeps the invariant. -/
theorem State.Inv.exec_entry {s t : State} {p : Nat} {lines : List DAct} {i : Instr} {more : List Byte} (inv : s.Inv)
    (at_p : s.dsq.run = .table p :: lines) (entry : decodeEntry (s.cfg.initTable.drop p) = .ok (i, more))
    (h : exec i s = .next t) : t.Inv := by
  obtain ⟨ok, dsq, tpc, held⟩ := inv
  obtain ⟨rfl, -⟩ | ⟨cmd, delay, args, rfl, -⟩ := decodeEntry_cases entry
  · cases exec_cases h with
    | terminator _ at_q => exact ⟨ok, dsq.tableEnd at_q, tpc, held⟩
    | refused req | held req | display req | tag req => cases req
    | bringUp eq | entry eq => cases eq
  · cases exec_cases h with
    | entry eq at_q =>
      cases eq
      rw [at_p] at at_q
      cases at_q
      exact ⟨ok, dsq.tableEntry at_p entry, tpc, held⟩
    | refused req | held req | display req | tag req => cases req
    | bringUp eq | terminator eq => cases eq

/-! ### The step -/

/-- A legal state stays legal when requests leave the held ones. -/
theorem State.Inv.erase_held {s : State} (inv : s.Inv) (i : Instr) (draws : Nat) :
    State.Inv { s with held := s.held.erase i, holdDraws := draws } := by
  obtain ⟨ok, dsq, tpc, held⟩ := inv
  exact ⟨ok, dsq, tpc, List.all_eq_true.2 fun j mem => List.all_eq_true.1 held j (List.mem_of_mem_erase mem)⟩

/-- A held request is a request (R149). -/
theorem State.Inv.isRequest_of_mem_held {s : State} {i : Instr} (inv : s.Inv) (mem : i ∈ s.held) :
    i.isRequest = true := by
  obtain ⟨-, -, -, held⟩ := inv
  have := List.all_eq_true.1 held i mem
  simp only [Bool.and_eq_true] at this
  exact this.1

/-- Every case of a step keeps the invariant. -/
theorem State.Inv.step {s t : State} (inv : s.Inv) (h : step s = .next t) : t.Inv := by
  obtain ⟨ok, dsq, tpc, held⟩ := id inv
  cases step_cases h with
  | entry at_p entry h => exact inv.exec_entry at_p entry h
  | accepted mem _ h => exact (inv.erase_held _ _).exec_request (inv.isRequest_of_mem_held mem) h
  | @request _ rest _ _ _ dec h =>
    exact State.Inv.exec_request (s := { s with inputs := rest }) inv (isRequest_of_decodeRequest dec) h
  | rejected | portRead | waits => exact inv
  | dispAnswer rest a =>
    exact ⟨ok, Dsq.Inv.resume (d := { s.dsq with answers := s.dsq.answers ++ [a] }) dsq, tpc, held⟩
  | writeAnswer rest a =>
    exact ⟨ok, dsq, Tpc.Inv.resume (t := { s.tpc with writeAnswers := s.tpc.writeAnswers ++ [a] }) tpc s.cfg, held⟩
  | readAnswer rest a =>
    exact ⟨ok, dsq, Tpc.Inv.resume (t := { s.tpc with readAnswers := s.tpc.readAnswers ++ [a] }) tpc s.cfg, held⟩
  | powerOn => exact ⟨ok, dsq.powerOn, tpc.powerOn, rfl⟩

/-- At an offset that the walk of R83 reaches, the table holds an entry or its end, and exec performs it. -/
theorem State.Inv.goesOn_atTable {s : State} {p : Nat} {rest : List DAct} (inv : s.Inv)
    (at_p : s.dsq.run = .table p :: rest) : s.goesOn := by
  obtain ⟨ok, dsq, -, -⟩ := inv
  obtain ⟨wf, -⟩ := dsq.legal_atTable at_p
  unfold State.goesOn Machine.step
  obtain ⟨_, stop⟩ | ⟨cmd, delay, args, _, entry, -⟩ := tableWellFormed_cases wf
  · rw [State.fetch_atTable ok at_p stop]
    exact ⟨_, by simp only [exec, execInitEnd, at_p]; rfl⟩
  · rw [State.fetch_atTable ok at_p entry]
    obtain ⟨stop, -⟩ | ⟨_, _, _, same, encodable, -⟩ := decodeEntry_cases entry
    · cases stop
    · cases same
      exact ⟨_, by simp only [exec, execInitEntry, at_p, encodable, if_true]; rfl⟩

/-- From a legal state the step goes on. -/
theorem State.Inv.goesOn {s : State} (inv : s.Inv) : s.goesOn := by
  obtain ⟨ok, -, -, -⟩ := id inv
  cases table : s.dsq.atTable with
  | true =>
    obtain ⟨p, rest, at_p⟩ := Dsq.exists_of_atTable table
    exact inv.goesOn_atTable at_p
  | false =>
    unfold State.goesOn Machine.step
    cases accepts : s.acceptHeld with
    | some accepted =>
      obtain ⟨mem, -, rest⟩ := State.acceptHeld_eq_some accepts
      rw [State.fetch_accepted ok table accepts, rest]
      exact exec_request_goesOn (inv.isRequest_of_mem_held mem) ok
    | none =>
      cases inputs : s.inputs with
      | nil => exact ⟨s, by rw [State.fetch_waits ok table accepts inputs]⟩
      | cons input rest =>
        rw [State.fetch_input ok table accepts inputs]
        cases input with
        | request bytes =>
          cases dec : decodeRequest bytes with
          | ok i =>
            simp only [State.receive, dec]
            exact exec_request_goesOn (isRequest_of_decodeRequest dec) ok
          | error why => exact ⟨_, by simp only [State.receive, dec]; rfl⟩
        | dispAnswer | tagWriteAnswer | tagReadAnswer | portRead | powerOn => exact ⟨_, rfl⟩

/-- Settles O16: a step from a legal state goes on, and each of its cases keeps the invariant. -/
theorem stepKeepsInvariant : Obligations.StepKeepsInvariant := by
  intro s inv
  obtain ⟨t, h⟩ := inv.goesOn
  exact ⟨t, h, inv.step h⟩

/-- Settles O17: both units are legal at reset, and nothing is held. -/
theorem resetMeetsInvariant : Obligations.ResetMeetsInvariant :=
  fun c ok => ⟨ok, Dsq.reset_inv c, Tpc.reset_inv, rfl⟩

end Sys2Proof.Machine

/-!
PROOFS. O21, the write matrix (R33): the lines that write a register are named, the other lines leave it alone unless
the bus fails (R120), and the requests that start such lines are read off `displayLines` and `tagLines`.
-/
namespace Sys2Proof.Machine

/-! ### What lines write -/

/-- The four window registers (R18). -/
def Dsq.window (d : Dsq) : Half × Half × Half × Half := (d.winX0, d.winY0, d.winX1, d.winY1)

/-- The window registers as they were, and WIN_VALID not set. -/
def Dsq.WindowFrame (d d' : Dsq) : Prop := d'.window = d.window ∧ (d'.winValid = true → d.winValid = true)

/-- LAST_LEN and LAST_TAG_ID (R24). -/
def Tpc.storedTag (t : Tpc) : BitVec 4 × List Byte := (t.lastLen, t.lastTagId)

/-- The line writes BG_COLOR. -/
def DAct.writesBg : DAct → Bool
  | .setBg _ => true
  | _ => false

/-- The line writes PANEL_OK where nothing fails. -/
def DAct.writesPanelOk : DAct → Bool
  | .setPanelOk _ => true
  | _ => false

/-- The line writes the window registers. -/
def DAct.writesWindow : DAct → Bool
  | .openWindow .. => true
  | _ => false

/-- The line is a transaction or a delay of a table entry, or the offset behind it. -/
def DAct.isEntryLine : DAct → Bool
  | .cmd _ | .data _ | .wait _ | .table _ => true
  | _ => false

/-- A failure on the bus clears PANEL_OK and shows in STATUS; any other error leaves it (R120). -/
theorem Dsq.raise_panelOk (e : Status) (d : Dsq) :
    (d.raise e).panelOk = d.panelOk ∨ ((d.raise e).panelOk = false ∧ (d.raise e).status = 0x01#8) := by
  cases e with
  | errDbus => exact .inr ⟨rfl, rfl⟩
  | ok | errRbus | decodeEmpty | errRange | errNoWindow | errBadop => exact .inl rfl

/-- No error sets WIN_VALID (R120). -/
theorem Dsq.winValid_of_raise {e : Status} {d : Dsq} (h : (d.raise e).winValid = true) : d.winValid = true := by
  cases e with
  | errDbus => cases h
  | ok | errRbus | decodeEmpty | errRange | errNoWindow | errBadop => exact h

theorem Dsq.raise_bgColor (e : Status) (d : Dsq) : (d.raise e).bgColor = d.bgColor := d.onError_bgColor e

theorem Dsq.raise_window (e : Status) (d : Dsq) : (d.raise e).window = d.window := by cases e <;> rfl

/-- BG_COLOR without a line that writes it. -/
theorem Dsq.go_bgColor {c : Config} {lines : List DAct} (none : lines.all (!·.writesBg) = true) (d : Dsq) :
    (Dsq.go c lines d).bgColor = d.bgColor :=
  Dsq.go_keeps_writes (!·.writesBg) (P := (·.bgColor = d.bgColor)) (Q := (·.bgColor = d.bgColor))
    (bus := fun _ _ _ _ h => h) (waits := fun _ _ h => h) (fails := fun e d' h => (d'.raise_bgColor e).trans h)
    (ends := fun _ h => h) (clear := fun _ _ h => h) (panel := fun _ _ _ h => h) (bg := fun _ writes => nomatch writes)
    (win := fun _ _ _ _ _ _ h => h) none rfl

/-- PANEL_OK without a line that writes it (R21). -/
theorem Dsq.go_panelOk {c : Config} {lines : List DAct} (none : lines.all (!·.writesPanelOk) = true) (d : Dsq) :
    (Dsq.go c lines d).panelOk = d.panelOk ∨
      ((Dsq.go c lines d).panelOk = false ∧ (Dsq.go c lines d).status = 0x01#8) :=
  Dsq.go_keeps_writes (!·.writesPanelOk) (P := (·.panelOk = d.panelOk))
    (Q := fun d' => d'.panelOk = d.panelOk ∨ (d'.panelOk = false ∧ d'.status = 0x01#8))
    (bus := fun _ _ _ _ h => h) (waits := fun _ _ h => .inl h) (fails := fun e d' h => h ▸ d'.raise_panelOk e)
    (ends := fun _ h => .inl h) (clear := fun _ _ h => h) (panel := fun _ writes => nomatch writes)
    (bg := fun _ _ _ h => h) (win := fun _ _ _ _ _ _ h => h) none rfl

/-- The window registers and WIN_VALID without a line that writes them: WIN_VALID can only be cleared (R19). -/
theorem Dsq.go_window {c : Config} {lines : List DAct} (none : lines.all (!·.writesWindow) = true) (d : Dsq) :
    d.WindowFrame (Dsq.go c lines d) :=
  Dsq.go_keeps_writes (!·.writesWindow) (P := d.WindowFrame) (Q := d.WindowFrame)
    (bus := fun _ _ _ _ h => h) (waits := fun _ _ h => h)
    (fails := fun e d' h => ⟨(d'.raise_window e).trans h.1, fun valid => h.2 (winValid_of_raise valid)⟩)
    (ends := fun _ h => h) (clear := fun _ _ h => ⟨h.1, nofun⟩) (panel := fun _ _ _ h => h) (bg := fun _ _ _ h => h)
    (win := fun _ _ _ _ writes => nomatch writes) none ⟨rfl, id⟩

/-- The registers a table entry leaves alone, with the flags only a bus failure clears (R87, R120). -/
def Dsq.EntryFrame (d d' : Dsq) : Prop :=
  d'.bgColor = d.bgColor ∧ d'.window = d.window ∧
    ((d'.winValid = d.winValid ∧ d'.panelOk = d.panelOk) ∨
      (d'.winValid = false ∧ d'.panelOk = false ∧ d'.status = 0x01#8))

/-- Nothing has failed yet. -/
theorem Dsq.EntryFrame.of_same {d d' : Dsq} (h : d'.bgColor = d.bgColor ∧ d'.window = d.window ∧
    d'.winValid = d.winValid ∧ d'.panelOk = d.panelOk) : d.EntryFrame d' :=
  h.imp_right fun h => h.imp_right .inl

theorem Dsq.go_entryFrame {c : Config} {lines : List DAct} (only : lines.all DAct.isEntryLine = true) (d : Dsq) :
    d.EntryFrame (Dsq.go c lines d) := by
  refine Dsq.go_keeps_writes DAct.isEntryLine
    (P := fun d' => d'.bgColor = d.bgColor ∧ d'.window = d.window ∧ d'.winValid = d.winValid ∧ d'.panelOk = d.panelOk)
    (bus := fun _ _ _ _ h => h) (waits := fun _ _ h => .of_same h) (fails := fun e d' h => ?_)
    (ends := fun _ h => .of_same h) (clear := nofun) (panel := nofun) (bg := nofun) (win := nofun) only
    ⟨rfl, rfl, rfl, rfl⟩
  obtain ⟨bg, window, flags⟩ := h
  refine ⟨(d'.raise_bgColor e).trans bg, (d'.raise_window e).trans window, ?_⟩
  cases e with
  | errDbus => exact .inr ⟨rfl, rfl, rfl⟩
  | ok | errRbus | decodeEmpty | errRange | errNoWindow | errBadop => exact .inl flags

/-! ### Table entries and DINIT -/

/-- What stands behind a table offset is not run: it only stays left to do. -/
theorem Dsq.go_stops_at_table (c : Config) (lines rest : List DAct) (p : Nat) (d : Dsq) :
    ∃ run, Dsq.go c (lines ++ .table p :: rest) d = { Dsq.go c (lines ++ [.table p]) d with run := run } := by
  induction lines generalizing d with
  | nil => exact ⟨_, rfl⟩
  | cons line lines ih =>
    simp only [List.cons_append]
    cases result : d.act c line with
    | done d' => rw [go_done result, go_done result]; exact ih d'
    | raise e d' => rw [go_raise result, go_raise result]; exact ⟨_, rfl⟩
    | pause d' line' => rw [go_pause result, go_pause result]; exact ⟨_, rfl⟩

theorem entryLines_isEntryLine (cmd : Byte) (delay : Bool) (args : List Byte) (p : Nat) :
    (entryLines cmd delay args ++ [DAct.table p]).all DAct.isEntryLine = true := by
  unfold entryLines
  split_ifs <;> rfl

/-- An entry, whatever stands behind its offset. -/
theorem Dsq.tableEntry_frame (c : Config) (p : Nat) (rest : List DAct) (cmd : Byte) (delay : Bool) (args : List Byte)
    (d : Dsq) : d.EntryFrame (d.tableEntry c p rest cmd delay args) := by
  obtain ⟨run, e⟩ := Dsq.go_stops_at_table c (entryLines cmd delay args) rest (p + 2 + args.length) d
  rw [Dsq.tableEntry, e]
  exact Dsq.go_entryFrame (entryLines_isEntryLine ..) d

/-- The registers DINIT leaves alone; WIN_VALID it can only clear. -/
def Dsq.BringUpFrame (d d' : Dsq) : Prop := d'.bgColor = d.bgColor ∧ d.WindowFrame d'

theorem Dsq.BringUpFrame.entry {d d' d'' : Dsq} (h : d.BringUpFrame d') (next : d'.EntryFrame d'') :
    d.BringUpFrame d'' := by
  obtain ⟨bg, window, valid⟩ := h
  obtain ⟨bg', window', flags⟩ := next
  refine ⟨bg'.trans bg, window'.trans window, fun set => valid ?_⟩
  obtain ⟨same, -⟩ | ⟨clear, -⟩ := flags
  · rwa [← same]
  · rw [clear] at set
    cases set

/-- DINIT's lines up to its loop. -/
theorem Dsq.start_dinitLines_frame (c : Config) (d : Dsq) :
    d.BringUpFrame (d.start c (dinitLines c)) ∧ tableLast (fun _ => True) (d.start c (dinitLines c)).run := by
  constructor
  · have cleared : d.BringUpFrame { d with busy := true, winValid := false, panelOk := false } := ⟨rfl, rfl, nofun⟩
    exact cleared.entry (Dsq.go_entryFrame (lines := [.cmd c.cmdSwreset, .wait tSwresetMs, .table 0]) rfl _)
  · exact Dsq.go_tableLast (tableLast_append (ok := fun _ => True)
      (lines := [.clearWinValid, .setPanelOk false, .cmd c.cmdSwreset, .wait tSwresetMs]) (by simp) trivial) _

/-- The whole of DINIT. -/
theorem Dsq.bringUp_frame (c : Config) (fuel : Nat) (d : Dsq) :
    d.BringUpFrame (Dsq.replay c fuel (d.start c (dinitLines c))) := by
  refine (Dsq.replay_keeps (P := fun d' => d.BringUpFrame d' ∧ tableLast (fun _ => True) d'.run) ?entry ?stop fuel
    (d.start_dinitLines_frame c)).1
  case entry =>
    rintro d' p rest cmd delay args - ⟨frame, last⟩ at_p -
    obtain ⟨-, rfl⟩ := last [] p rest at_p
    exact ⟨frame.entry (tableEntry_frame ..), (tableEntry_tableLast c p cmd delay args d').mono fun _ _ => trivial⟩
  case stop =>
    rintro d' p rest ⟨frame, last⟩ at_p
    obtain ⟨-, rfl⟩ := last [] p rest at_p
    exact ⟨frame, tableLast_nil _⟩

/-! ### The lines of the requests -/

theorem displayLines_writesBg {i : Instr} (ne : ∀ r g b, i ≠ .dbgset r g b) (c : Config) (bg : Colour) :
    (displayLines c bg i).all (!·.writesBg) = true := by
  have win : ∀ x y w h, (doWin c x y w h).all (!·.writesBg) = true := fun _ _ _ _ => by
    unfold doWin
    split <;> rfl
  cases i with
  | dwin => exact win ..
  | dchar => exact doChar_all win (fun _ => rfl) ..
  | dstr => exact dstrLines_all win (fun _ => rfl) ..
  | ddata bytes => cases bytes <;> rfl
  | dbgset r g b => exact absurd rfl (ne r g b)
  | dinit | dcmd | dfill | rinit | rpoll | rpres | rread | rwrite | rscan | initEntry | initEnd => rfl

theorem displayLines_writesPanelOk {i : Instr} (ne : i ≠ .dinit) (c : Config) (bg : Colour) :
    (displayLines c bg i).all (!·.writesPanelOk) = true := by
  have win : ∀ x y w h, (doWin c x y w h).all (!·.writesPanelOk) = true := fun _ _ _ _ => by
    unfold doWin
    split <;> rfl
  cases i with
  | dwin => exact win ..
  | dchar => exact doChar_all win (fun _ => rfl) ..
  | dstr => exact dstrLines_all win (fun _ => rfl) ..
  | ddata bytes => cases bytes <;> rfl
  | dinit => exact absurd rfl ne
  | dcmd | dfill | dbgset | rinit | rpoll | rpres | rread | rwrite | rscan | initEntry | initEnd => rfl

theorem displayLines_writesWindow {i : Instr} (noWin : ∀ x y w h, i ≠ .dwin x y w h)
    (noChar : ∀ x y cp sc r g b, i ≠ .dchar x y cp sc r g b) (noText : ∀ x y sc r g b text, i ≠ .dstr x y sc r g b text)
    (c : Config) (bg : Colour) : (displayLines c bg i).all (!·.writesWindow) = true := by
  cases i with
  | dwin => exact absurd rfl (noWin _ _ _ _)
  | dchar => exact absurd rfl (noChar _ _ _ _ _ _ _)
  | dstr => exact absurd rfl (noText _ _ _ _ _ _ _)
  | ddata bytes => cases bytes <;> rfl
  | dinit | dcmd | dfill | dbgset | rinit | rpoll | rpres | rread | rwrite | rscan | initEntry | initEnd => rfl

theorem readBlock_not_mem_tagLines {i : Instr} (ne : i ≠ .rpoll) (c : Config) : .readBlock ∉ tagLines c i := by
  cases i with
  | rpoll => exact absurd rfl ne
  | _ => simp [tagLines, doRread]

/-- The stored tag without a block read (R24, R33). -/
theorem Tpc.go_storedTag {c : Config} {lines : List TAct} (none : .readBlock ∉ lines) (t : Tpc) :
    (Tpc.go c lines t).storedTag = t.storedTag := by
  refine Tpc.go_keeps (P := (·.storedTag = t.storedTag)) (Q := (·.storedTag = t.storedTag)) (fun _ h => h)
    (fun before line rest t' split h => ?_) rfl
  refine Tpc.act_keeps (P := (·.storedTag = t.storedTag)) (Q := (·.storedTag = t.storedTag))
    (bus := fun _ _ _ _ _ h => h) (values := fun _ _ _ h => h) (block := fun isRead => ?_) (waits := fun _ h => h)
    (fails := fun _ h => h) h
  subst isRead
  exact absurd (split ▸ by simp) none

/-! ### The rows of R33 -/

section
variable {i : Instr} {s t : State}

/-- BG_COLOR (R20, R33). -/
theorem exec_bgColor (last : i = .initEnd → ∃ p, s.dsq.run = [.table p]) (h : exec i s = .next t)
    (ne : ∀ r g b, i ≠ .dbgset r g b) : t.dsq.bgColor = s.dsq.bgColor := by
  cases exec_cases h with
  | refused | held | tag => rfl
  | display => exact Dsq.go_bgColor (displayLines_writesBg ne ..) _
  | bringUp => exact (s.dsq.bringUp_frame s.cfg _).1
  | entry => exact (s.dsq.tableEntry_frame ..).1
  | terminator eq at_p =>
    obtain ⟨q, at_q⟩ := last eq
    cases at_p.symm.trans at_q
    rfl

/-- PANEL_OK outside DINIT and its terminator (R21, R33). -/
theorem exec_panelOk (h : exec i s = .next t) (noDinit : i ≠ .dinit) (noEnd : i ≠ .initEnd) :
    t.dsq.panelOk = s.dsq.panelOk ∨ (t.dsq.panelOk = false ∧ t.dsq.status = 0x01#8) := by
  cases exec_cases h with
  | refused | held | tag => exact .inl rfl
  | display => exact Dsq.go_panelOk (displayLines_writesPanelOk noDinit ..) _
  | bringUp eq => exact absurd eq noDinit
  | entry =>
    obtain ⟨-, -, flags⟩ := s.dsq.tableEntry_frame s.cfg ..
    exact flags.imp (·.2) (·.2)
  | terminator eq => exact absurd eq noEnd

/-- The window registers, and WIN_VALID to 1 (R19, R33). -/
theorem exec_window (last : i = .initEnd → ∃ p, s.dsq.run = [.table p]) (h : exec i s = .next t)
    (noWin : ∀ x y w h, i ≠ .dwin x y w h) (noChar : ∀ x y cp sc r g b, i ≠ .dchar x y cp sc r g b)
    (noText : ∀ x y sc r g b text, i ≠ .dstr x y sc r g b text) :
    s.dsq.WindowFrame t.dsq := by
  cases exec_cases h with
  | refused | held | tag => exact ⟨rfl, id⟩
  | display => exact Dsq.go_window (displayLines_writesWindow noWin noChar noText ..) _
  | bringUp => exact (s.dsq.bringUp_frame s.cfg _).2
  | entry =>
    have same : s.dsq.BringUpFrame s.dsq := ⟨rfl, rfl, id⟩
    exact (same.entry (s.dsq.tableEntry_frame ..)).2
  | terminator eq at_p =>
    obtain ⟨q, at_q⟩ := last eq
    cases at_p.symm.trans at_q
    exact ⟨rfl, id⟩

/-- WIN_VALID under DBGSET, INIT_END and the requests of TPC (R33). -/
theorem exec_winValid_same (last : i = .initEnd → ∃ p, s.dsq.run = [.table p]) (h : exec i s = .next t)
    (kind : (∃ r g b, i = .dbgset r g b) ∨ i = .initEnd ∨ i.unit = .tpc) : t.dsq.winValid = s.dsq.winValid := by
  cases exec_cases h with
  | refused | held | tag => rfl
  | display req unit =>
    obtain ⟨r, g, b, rfl⟩ | rfl | tpc := kind
    · rfl
    · cases req
    · rw [unit] at tpc
      cases tpc
  | bringUp eq | entry eq => subst eq; simp [Instr.unit] at kind
  | terminator eq at_p =>
    obtain ⟨q, at_q⟩ := last eq
    cases at_p.symm.trans at_q
    rfl

/-- WIN_VALID under a table entry (R33, R87). -/
theorem exec_initEntry_winValid {cmd : Byte} {delay : Bool} {args : List Byte}
    (h : exec (.initEntry cmd delay args) s = .next t) :
    t.dsq.winValid = s.dsq.winValid ∨ (t.dsq.winValid = false ∧ t.dsq.status = 0x01#8) := by
  cases exec_cases h with
  | entry =>
    obtain ⟨-, -, flags⟩ := s.dsq.tableEntry_frame s.cfg ..
    exact flags.imp (·.1) fun failed => ⟨failed.1, failed.2.2⟩
  | refused req | held req | display req | tag req => cases req
  | bringUp eq | terminator eq => cases eq

/-- LAST_LEN and LAST_TAG_ID (R24, R33). -/
theorem exec_storedTag (h : exec i s = .next t) (ne : i ≠ .rpoll) :
    t.tpc.storedTag = s.tpc.storedTag := by
  cases exec_cases h with
  | tag => exact Tpc.go_storedTag (readBlock_not_mem_tagLines ne _) _
  | refused | held | display | bringUp | entry | terminator => rfl

end

/-- Settles O21: one row of R33 after the other. -/
theorem registerWriteMatrix : Obligations.RegisterWriteMatrix := by
  intro i s t last h
  refine ⟨exec_bgColor last h, exec_panelOk h, fun noWin noChar noText => ?_, exec_winValid_same last h, ?_,
    fun ne => Prod.mk.inj (exec_storedTag h ne)⟩
  · obtain ⟨window, valid⟩ := exec_window last h noWin noChar noText
    simp only [Dsq.window, Prod.mk.injEq] at window
    obtain ⟨x0, y0, x1, y1⟩ := window
    exact ⟨x0, y0, x1, y1, valid⟩
  · rintro ⟨cmd, delay, args, rfl⟩
    exact exec_initEntry_winValid h

end Sys2Proof.Machine

/-!
PROOFS. An answer on the display bus may come later (R41, R57): giving DSQ further answers before one line or after it is
the same, so it is for a stretch of lines.
-/
namespace Sys2Proof.Machine

/-! ### Answers that come later, in DSQ -/

/-- The display environment gives DSQ further answers (R41). -/
def Dsq.give (as : List DispAnswer) (d : Dsq) : Dsq := { d with answers := d.answers ++ as }

/-- What has become of a line once further answers are there: one that waited goes on with what was left of it. -/
def Dsq.goOn (c : Config) (as : List DispAnswer) : ActResult Dsq DAct → ActResult Dsq DAct
  | .done d => .done (d.give as)
  | .raise e d => .raise e (d.give as)
  | .pause d line => (d.give as).act c line

/-- The pixel loop takes its answers from its argument alone. -/
theorem Dsq.sendPixels_withAnswers (f : FillFraming) (v : Colour) (answers as : List DispAnswer) (left : Nat) (d : Dsq) :
    Dsq.sendPixels f v answers left { d with answers := as } = Dsq.sendPixels f v answers left d := by
  rcases left with _ | left
  · simp only [Dsq.sendPixels]
  · rcases answers with _ | ⟨_ | _, rest⟩ <;> simp only [Dsq.sendPixels]

/-- A pixel loop that runs out of answers goes on where it stopped. -/
theorem Dsq.sendPixels_append (c : Config) (v : Colour) (answers as : List DispAnswer) (left : Nat) (d : Dsq) :
    Dsq.sendPixels c.fillFraming v (answers ++ as) left d =
      Dsq.goOn c as (Dsq.sendPixels c.fillFraming v answers left d) := by
  induction answers generalizing left d with
  | nil =>
    cases left with
    | zero => simp only [Dsq.sendPixels, goOn, give, List.nil_append]
    | succ left =>
      simp only [Dsq.sendPixels, goOn, act, give, List.nil_append]
      exact (sendPixels_withAnswers ..).symm
  | cons a rest ih =>
    cases left with
    | zero => simp only [Dsq.sendPixels, goOn, give]
    | succ left =>
      simp only [List.cons_append, Dsq.sendPixels]
      cases a with
      | ok =>
        rw [← ih]
        symm
        exact (sendPixels_withAnswers ..).symm
      | fail => rfl

theorem Dsq.transactLine_give {c : Config} {item : DispAnswer → DispItem} {line : DAct}
    (isTransaction : ∀ d : Dsq, d.act c line = d.transactLine item line) (as : List DispAnswer) (d : Dsq) :
    (d.give as).act c line = Dsq.goOn c as (d.act c line) := by
  cases waiting : d.answers with
  | nil =>
    have waits : d.act c line = .pause d line := by simp only [isTransaction, transactLine, transact, waiting]
    rw [waits, goOn]
  | cons a rest =>
    simp only [isTransaction, transactLine, transact, give, waiting, List.cons_append]
    cases a <;> rfl

/-- Further answers before one line are as good as further answers after it. -/
theorem Dsq.act_give (c : Config) (line : DAct) (as : List DispAnswer) (d : Dsq) :
    (d.give as).act c line = Dsq.goOn c as (d.act c line) := by
  cases line with
  | clearWinValid | setPanelOk | setBg | reject | wait | openWindow | table => rfl
  | needWindow =>
    simp only [act, show (d.give as).winValid = d.winValid from rfl]
    split <;> rfl
  | cmd b => exact transactLine_give (fun _ => rfl) as d
  | data s => exact transactLine_give (fun _ => rfl) as d
  | fill v => exact (sendPixels_withAnswers ..).trans (sendPixels_append ..)
  | pixels left v => exact (sendPixels_withAnswers ..).trans (sendPixels_append ..)

/-! ### DSQ's lines from a position -/

/-- What a line comes to, its state changed. -/
def ActResult.map {σ α : Type} (f : σ → σ) : ActResult σ α → ActResult σ α
  | .done s => .done (f s)
  | .raise e s => .raise e (f s)
  | .pause s a => .pause (f s) a

/-- DSQ with other lines as its position (R30). -/
def Dsq.withRun (run : List DAct) (d : Dsq) : Dsq := { d with run := run }

theorem Dsq.sendPixels_withRun (f : FillFraming) (v : Colour) (answers : List DispAnswer) (left : Nat) (run : List DAct)
    (d : Dsq) : Dsq.sendPixels f v answers left (d.withRun run) =
      (Dsq.sendPixels f v answers left d).map (Dsq.withRun run) := by
  induction answers generalizing left d with
  | nil => cases left <;> rfl
  | cons a rest ih =>
    cases left with
    | zero => rfl
    | succ left =>
      cases a with
      | ok =>
        exact ih (left + 1 - groupSize f d.groupDraws (left + 1)) { d with
          answers := rest
          groupDraws := nextDraw f d.groupDraws
          trace := d.trace ++ [.data (pixelRun (groupSize f d.groupDraws (left + 1)) v) .ok] }
      | fail => rfl

/-- No line looks at the unit's position, nor changes it. -/
theorem Dsq.act_withRun (c : Config) (line : DAct) (run : List DAct) (d : Dsq) :
    (d.withRun run).act c line = (d.act c line).map (Dsq.withRun run) := by
  have transaction : ∀ item, (d.withRun run).transactLine item line = (d.transactLine item line).map (withRun run) := by
    intro item
    simp only [transactLine, transact, show (d.withRun run).answers = d.answers from rfl]
    rcases d.answers with _ | ⟨_ | _, rest⟩ <;> rfl
  cases line with
  | clearWinValid | setPanelOk | setBg | reject | wait | openWindow | table => rfl
  | needWindow =>
    simp only [act, show (d.withRun run).winValid = d.winValid from rfl]
    split <;> rfl
  | cmd | data => exact transaction _
  | fill | pixels => exact sendPixels_withRun ..

theorem Dsq.raise_withRun (e : Status) (run : List DAct) (d : Dsq) : (d.withRun run).raise e = d.raise e := by
  cases e <;> rfl

theorem Dsq.go_withRun (c : Config) (lines run : List DAct) (d : Dsq) :
    Dsq.go c lines (d.withRun run) = Dsq.go c lines d := by
  induction lines generalizing d with
  | nil => rfl
  | cons line rest ih =>
    have same := d.act_withRun c line run
    cases result : d.act c line with
    | done d' => rw [result] at same; rw [go_done result, go_done same, ih]
    | raise e d' => rw [result] at same; rw [go_raise result, go_raise same, raise_withRun]
    | pause d' line' => rw [result] at same; rw [go_pause result, go_pause same]; rfl

theorem Dsq.resume_of_idle {d : Dsq} (idle : d.run = []) (c : Config) : d.resume c = d := by
  simp only [resume, idle]

theorem Dsq.resume_of_run {d : Dsq} {line : DAct} {rest : List DAct} (run : d.run = line :: rest) (c : Config) :
    d.resume c = Dsq.go c (line :: rest) d := by
  simp only [resume, run]

/-! ### DSQ's operations -/

theorem Dsq.raise_give (e : Status) (as : List DispAnswer) (d : Dsq) : (d.give as).raise e = (d.raise e).give as := by
  cases e <;> rfl

/-- Further answers before a stretch of lines are as good as further answers while the unit waits in it. -/
theorem Dsq.go_give (c : Config) (lines : List DAct) (as : List DispAnswer) (d : Dsq) :
    Dsq.go c lines (d.give as) = Dsq.resume c ((Dsq.go c lines d).give as) := by
  induction lines generalizing d with
  | nil => rfl
  | cons line rest ih =>
    have later := d.act_give c line as
    cases result : d.act c line with
    | done d' => rw [result] at later; rw [go_done result, go_done later, ih]
    | raise e d' =>
      rw [result] at later
      rw [go_raise result, go_raise later, raise_give, resume_of_idle rfl]
    | pause d' line' =>
      rw [result] at later
      calc Dsq.go c (line :: rest) (d.give as)
        _ = Dsq.go c (line' :: rest) (d'.give as) := by simp only [go, later, goOn]
        _ = Dsq.go c (line' :: rest) ((d'.give as).withRun (line' :: rest)) := (go_withRun ..).symm
        _ = Dsq.resume c ((Dsq.go c (line :: rest) d).give as) := by rw [go_pause result]; rfl

end Sys2Proof.Machine

/-!
PROOFS. O22: turns of DINIT's loop taken before an answer comes change nothing about where the loop leads with it (R87);
the steps that perform the table entries one by one are turns of that loop.
-/
namespace Sys2Proof.Machine

/-! ### DINIT's loop -/

/-- A unit that stands at a table offset does not go on by itself. -/
theorem Dsq.resume_give_atTable {d : Dsq} {p : Nat} {rest : List DAct} (at_p : d.run = .table p :: rest) (c : Config)
    (as : List DispAnswer) : (d.give as).resume c = d.give as := by
  rw [resume_of_run (d := d.give as) at_p, go_pause rfl, ← at_p]
  rfl

theorem Dsq.atTable_of_idle {d : Dsq} (idle : d.run = []) : d.atTable = false := by
  simp only [atTable, idle]

/-- An entry lies inside the table. -/
theorem lt_length_of_decodeEntry {table : List Byte} {q : Nat} {i : Instr} {more : List Byte}
    (entry : decodeEntry (table.drop q) = .ok (i, more)) : q < table.length := by
  by_contra past
  rw [List.drop_eq_nil_of_le (Nat.le_of_not_lt past)] at entry
  cases entry

/-- Turns of the loop before further answers come change nothing about where it leads with them. -/
theorem Dsq.replay_resume_give {c : Config} {p fuel : Nat} {d : Dsq} (last : tableLast (p ≤ ·) d.run)
    (enough : c.initTable.length - p ≤ fuel) (turns : Nat) (as : List DispAnswer) :
    Dsq.replay c fuel (((Dsq.replay c turns d).give as).resume c) = Dsq.replay c fuel ((d.give as).resume c) := by
  induction turns generalizing p d with
  | zero => rfl
  | succ turns ih =>
    cases table : d.atTable with
    | false => rw [replay_of_not_atTable table]
    | true =>
      obtain ⟨q, rest, at_q⟩ := exists_of_atTable table
      obtain ⟨le, rfl⟩ := last [] q rest at_q
      have at_q' : (d.give as).run = [.table q] := at_q
      rw [resume_give_atTable at_q]
      cases dec : decodeEntry (c.initTable.drop q) with
      | error =>
        have stays : Dsq.replay c (turns + 1) d = d := by simp only [Dsq.replay, at_q, dec]
        rw [stays, resume_give_atTable at_q]
      | ok entry =>
        obtain ⟨i, more⟩ := entry
        obtain ⟨fuel, rfl⟩ : ∃ n, fuel = n + 1 := ⟨fuel - 1, by have := lt_length_of_decodeEntry dec; omega⟩
        obtain ⟨rfl, -⟩ | ⟨cmd, delay, args, rfl, -⟩ := decodeEntry_cases dec
        · rw [replay_end at_q dec, replay_end at_q' dec, tableEnd, tableEnd, go_give]
          exact replay_of_not_atTable (atTable_of_idle rfl) c _
        · have later : tableLast (q + 2 + args.length ≤ ·) (d.tableEntry c q [] cmd delay args).run :=
            (tableEntry_tableLast c q cmd delay args d).mono fun _ e => Nat.le_of_eq e.symm
          have resumed := resume_tableLast (d := (d.tableEntry c q [] cmd delay args).give as) later c
          rw [replay_entry at_q dec, replay_entry at_q' dec, ih later (by omega), replay_fuel resumed (by omega),
            tableEntry, tableEntry, go_give]

/-! ### The steps that perform the entries -/

/-- The step performs the entry DSQ stands at (R69, R87). -/
theorem step_tableEntry {s : State} {p : Nat} {rest : List DAct} {cmd : Byte} {delay : Bool} {args more : List Byte}
    (ok : configOk s.cfg = true) (at_p : s.dsq.run = .table p :: rest)
    (entry : decodeEntry (s.cfg.initTable.drop p) = .ok (.initEntry cmd delay args, more)) :
    step s = .next { s with dsq := s.dsq.tableEntry s.cfg p rest cmd delay args } := by
  obtain ⟨stop, -⟩ | ⟨_, _, _, same, encodable, -⟩ := decodeEntry_cases entry
  · cases stop
  · cases same
    simp only [step, State.fetch_atTable ok at_p entry, exec, execInitEntry, at_p, encodable, if_true]

/-- The step performs the terminator DSQ stands at (R71, R87). -/
theorem step_tableEnd {s : State} {p : Nat} {rest : List DAct} {more : List Byte} (ok : configOk s.cfg = true)
    (at_p : s.dsq.run = .table p :: rest) (stop : decodeEntry (s.cfg.initTable.drop p) = .ok (.initEnd, more)) :
    step s = .next { s with dsq := s.dsq.tableEnd s.cfg rest } := by
  simp only [step, State.fetch_atTable ok at_p stop, exec, execInitEnd, at_p]

/-- At most one offset is left to do, `p` or one behind it, where the table goes on well formed (R83). -/
def Dsq.Replaying (c : Config) (p : Nat) (d : Dsq) : Prop :=
  tableLast (fun q => p ≤ q ∧ tableWellFormed (c.initTable.drop q) = true) d.run

/-- As many steps as turns of the loop, or fewer, lead where the loop leads, away from the table. -/
theorem steps_replay {s : State} {p turns : Nat} (ok : configOk s.cfg = true) (replaying : s.dsq.Replaying s.cfg p)
    (enough : s.cfg.initTable.length - p ≤ turns) :
    (Dsq.replay s.cfg turns s.dsq).atTable = false ∧
      ∃ n ≤ turns, s.steps n = .next { s with dsq := Dsq.replay s.cfg turns s.dsq } := by
  induction turns generalizing s p with
  | zero =>
    cases table : s.dsq.atTable with
    | false => exact ⟨table, 0, Nat.le_refl _, rfl⟩
    | true =>
      obtain ⟨q, rest, at_q⟩ := Dsq.exists_of_atTable table
      obtain ⟨⟨le, wf⟩, -⟩ := replaying [] q rest at_q
      rw [List.drop_eq_nil_of_le (by omega)] at wf
      cases wf
  | succ turns ih =>
    cases table : s.dsq.atTable with
    | false =>
      rw [Dsq.replay_of_not_atTable table]
      exact ⟨table, 0, Nat.zero_le _, rfl⟩
    | true =>
      obtain ⟨q, rest, at_q⟩ := Dsq.exists_of_atTable table
      obtain ⟨⟨le, wf⟩, rfl⟩ := replaying [] q rest at_q
      obtain ⟨_, stop⟩ | ⟨cmd, delay, args, _, entry, -⟩ := tableWellFormed_cases wf
      · rw [Dsq.replay_end at_q stop]
        exact ⟨rfl, 1, by omega, by simp only [State.steps, step_tableEnd ok at_q stop]⟩
      · have inside := lt_length_of_decodeEntry entry
        have next := tableWellFormed_drop_entry wf entry
        rw [List.drop_drop, ← Nat.add_assoc] at next
        have later : (s.dsq.tableEntry s.cfg q [] cmd delay args).Replaying s.cfg (q + 2 + args.length) :=
          (s.dsq.tableEntry_tableLast s.cfg q cmd delay args).mono fun _ e => ⟨Nat.le_of_eq e.symm, e ▸ next⟩
        rw [Dsq.replay_entry at_q entry]
        obtain ⟨away, n, le_n, steps⟩ :=
          ih (s := { s with dsq := s.dsq.tableEntry s.cfg q [] cmd delay args }) ok later (by simp only; omega)
        exact ⟨away, n + 1, by omega, by simp only [State.steps, step_tableEntry ok at_q entry]; exact steps⟩

/-- Settles O22: an answer commutes with a stretch of lines, then with the turns of DINIT's loop; the steps are turns. -/
theorem displayAnswerMayComeLater : Obligations.DisplayAnswerMayComeLater := by
  refine ⟨fun c lines d a => d.go_give c lines [a], fun c lines p d a noTable => ?_, fun s p ok wf at_p => ?_⟩
  · have last : tableLast (0 ≤ ·) (Dsq.go c (lines ++ [.table p]) d).run :=
      Dsq.go_tableLast (tableLast_append noTable (Nat.zero_le p)) d
    exact (congrArg _ (d.go_give c (lines ++ [.table p]) [a])).trans
      (Dsq.replay_resume_give last (Nat.sub_le _ _) c.initTable.length [a]).symm
  · refine steps_replay (p := p) ok ?_ (Nat.sub_le _ _)
    rw [Dsq.Replaying, at_p]
    exact tableLast_append (lines := []) (by simp) ⟨Nat.le_refl p, wf⟩

end Sys2Proof.Machine

/-!
PROOFS. O23, an answer on the tag bus may come later (R41, R57): giving TPC further answers before one line or after it is
the same, so it is for a stretch of lines.
-/
namespace Sys2Proof.Machine

/-- The tag environment gives TPC further answers (R41). -/
def Tpc.give (ws : List WriteAnswer) (rs : List ReadAnswer) (t : Tpc) : Tpc :=
  { t with writeAnswers := t.writeAnswers ++ ws, readAnswers := t.readAnswers ++ rs }

/-- TPC with other lines as its position (R30). -/
def Tpc.withRun (run : List TAct) (t : Tpc) : Tpc := { t with run := run }

/-- What has become of a line once further answers are there: one that waited goes on with what was left of it. -/
def Tpc.goOn (c : Config) (ws : List WriteAnswer) (rs : List ReadAnswer) : ActResult Tpc TAct → ActResult Tpc TAct
  | .done t => .done (t.give ws rs)
  | .raise e t => .raise e (t.give ws rs)
  | .pause t line => (t.give ws rs).act c line

/-! ### The bus -/

theorem Tpc.twrite_give {addr : DevAddr} {s : List Byte} {stop : Bool} {a : WriteAnswer} {t t' : Tpc}
    (h : t.twrite addr s stop = some (a, t')) (ws : List WriteAnswer) (rs : List ReadAnswer) :
    (t.give ws rs).twrite addr s stop = some (a, t'.give ws rs) := by
  unfold twrite at h
  split at h
  next => cases h
  next answers => cases h; simp only [twrite, give, answers, List.cons_append]

theorem Tpc.tread_give {addr : DevAddr} {n : Nat} {a : ReadAnswer} {t t' : Tpc}
    (h : t.tread addr n = some (a, t')) (ws : List WriteAnswer) (rs : List ReadAnswer) :
    (t.give ws rs).tread addr n = some (a, t'.give ws rs) := by
  unfold tread at h
  split at h
  next => cases h
  next answers => cases h; simp only [tread, give, answers, List.cons_append]

theorem Tpc.twrite_withRun (addr : DevAddr) (s : List Byte) (stop : Bool) (run : List TAct) (t : Tpc) :
    (t.withRun run).twrite addr s stop = (t.twrite addr s stop).map (Prod.map id (Tpc.withRun run)) := by
  simp only [twrite, show (t.withRun run).writeAnswers = t.writeAnswers from rfl]
  cases t.writeAnswers <;> rfl

theorem Tpc.tread_withRun (addr : DevAddr) (n : Nat) (run : List TAct) (t : Tpc) :
    (t.withRun run).tread addr n = (t.tread addr n).map (Prod.map id (Tpc.withRun run)) := by
  simp only [tread, show (t.withRun run).readAnswers = t.readAnswers from rfl]
  cases t.readAnswers <;> rfl

/-! ### One line -/

/-- Further answers before one line are as good as further answers after it. -/
theorem Tpc.act_give (c : Config) (line : TAct) (ws : List WriteAnswer) (rs : List ReadAnswer) (t : Tpc) :
    (t.give ws rs).act c line = Tpc.goOn c ws rs (t.act c line) := by
  cases line with
  | write addr s stop =>
    cases h : t.twrite addr s stop with
    | none => simp only [act, h, goOn]
    | some answered =>
      simp only [act, h, twrite_give h]
      rcases answered with ⟨_ | _, t'⟩ <;> rfl
  | probe addr =>
    cases h : t.twrite addr [] true with
    | none => simp only [act, h, goOn]
    | some answered =>
      simp only [act, h, twrite_give h]
      rcases answered with ⟨_ | _, t'⟩ <;> rfl
  | readReg addr =>
    cases h : t.tread addr 1 with
    | none => simp only [act, h, goOn]
    | some answered =>
      simp only [act, h, tread_give h]
      rcases answered with ⟨(_ | _) | _, t'⟩ <;> rfl
  | readBlock =>
    cases h : t.tread c.rfidAddr tagBlockLen with
    | none => simp only [act, h, goOn]
    | some answered =>
      simp only [act, h, tread_give h]
      rcases answered with ⟨_ | _, t'⟩ <;> rfl
  | drain =>
    cases h : t.tread c.rfidAddr c.drainLen with
    | none => simp only [act, h, goOn]
    | some answered =>
      simp only [act, h, tread_give h]
      rcases answered with ⟨_ | _, t'⟩ <;> rfl

/-- No line looks at the unit's position, nor changes it. -/
theorem Tpc.act_withRun (c : Config) (line : TAct) (run : List TAct) (t : Tpc) :
    (t.withRun run).act c line = (t.act c line).map (Tpc.withRun run) := by
  cases line with
  | write addr s stop =>
    simp only [act, twrite_withRun]
    rcases t.twrite addr s stop with _ | ⟨_ | _, t'⟩ <;> rfl
  | probe addr =>
    simp only [act, twrite_withRun]
    rcases t.twrite addr [] true with _ | ⟨_ | _, t'⟩ <;> rfl
  | readReg addr =>
    simp only [act, tread_withRun]
    rcases t.tread addr 1 with _ | ⟨(_ | _) | _, t'⟩ <;> rfl
  | readBlock =>
    simp only [act, tread_withRun]
    rcases t.tread c.rfidAddr tagBlockLen with _ | ⟨_ | _, t'⟩ <;> rfl
  | drain =>
    simp only [act, tread_withRun]
    rcases t.tread c.rfidAddr c.drainLen with _ | ⟨_ | _, t'⟩ <;> rfl

/-! ### A stretch of lines -/

theorem Tpc.go_withRun (c : Config) (lines run : List TAct) (t : Tpc) :
    Tpc.go c lines (t.withRun run) = Tpc.go c lines t := by
  induction lines generalizing t with
  | nil => rfl
  | cons line rest ih =>
    have same := t.act_withRun c line run
    cases result : t.act c line with
    | done t' => rw [result] at same; rw [go_done result, go_done same, ih]
    | raise e t' => rw [result] at same; rw [go_raise result, go_raise same]; rfl
    | pause t' line' => rw [result] at same; rw [go_pause result, go_pause same]; rfl

/-- Further answers before a stretch of lines are as good as further answers while the unit waits in it. -/
theorem Tpc.go_give (c : Config) (lines : List TAct) (ws : List WriteAnswer) (rs : List ReadAnswer) (t : Tpc) :
    Tpc.go c lines (t.give ws rs) = Tpc.resume c ((Tpc.go c lines t).give ws rs) := by
  induction lines generalizing t with
  | nil => rfl
  | cons line rest ih =>
    have later := t.act_give c line ws rs
    cases result : t.act c line with
    | done t' => rw [result] at later; rw [go_done result, go_done later, ih]
    | raise e t' => rw [result] at later; rw [go_raise result, go_raise later]; rfl
    | pause t' line' =>
      rw [result] at later
      calc Tpc.go c (line :: rest) (t.give ws rs)
        _ = Tpc.go c (line' :: rest) (t'.give ws rs) := by simp only [go, later, goOn]
        _ = Tpc.go c (line' :: rest) ((t'.give ws rs).withRun (line' :: rest)) := (go_withRun ..).symm
        _ = Tpc.resume c ((Tpc.go c (line :: rest) t).give ws rs) := by rw [go_pause result]; rfl

/-- Settles O23: an answer of either kind is a further answer, and those commute with a stretch of lines. -/
theorem tagAnswerMayComeLater : Obligations.TagAnswerMayComeLater :=
  fun c lines t => ⟨fun a => by simpa only [Tpc.give, List.append_nil] using t.go_give c lines [a] [],
    fun a => by simpa only [Tpc.give, List.append_nil] using t.go_give c lines [] [a]⟩

end Sys2Proof.Machine

/-!
PROOFS. O13, the step that takes an answer (R41, R57), and O33, the bytes of a window's arguments (R47).
-/
namespace Sys2Proof.Machine

/-- An input that performs no instruction is one step (R133). -/
theorem step_input {s t : State} {input : Input} {rest : List Input} (ok : configOk s.cfg = true)
    (away : s.dsq.atTable = false) (none : s.eligible = []) (inputs : s.inputs = input :: rest)
    (moves : State.receive input { s with inputs := rest } = .moved t) : step s = .next t := by
  rw [step, State.fetch_input ok away (State.acceptHeld_eq_none none) inputs, moves]

/-- Settles O13: each kind of answer moves the machine to the state in which its unit goes on. -/
theorem stepDeliversAnswers : Obligations.StepDeliversAnswers :=
  ⟨fun _ _ _ ok away none inputs => step_input ok away none inputs rfl,
    fun _ _ _ ok away none inputs => step_input ok away none inputs rfl,
    fun _ _ _ ok away none inputs => step_input ok away none inputs rfl⟩

/-- The high byte of a coordinate (R8). -/
theorem hi_ofNat (n : Nat) : hi (BitVec.ofNat 16 n) = BitVec.ofNat 8 (n / 256) := by
  apply BitVec.eq_of_toNat_eq
  simp only [hi, BitVec.extractLsb'_toNat, BitVec.toNat_ofNat, Nat.shiftRight_eq_div_pow]
  omega

/-- The low byte of a coordinate (R8). -/
theorem lo_ofNat (n : Nat) : lo (BitVec.ofNat 16 n) = BitVec.ofNat 8 (n % 256) := by
  apply BitVec.eq_of_toNat_eq
  simp only [lo, BitVec.extractLsb'_toNat, BitVec.toNat_ofNat, Nat.shiftRight_zero]
  omega

/-- Both ends of a range, high bytes first (R47, R74). -/
theorem rangeArgs_eq (first last : Nat) : rangeArgs first last =
    [BitVec.ofNat 8 (first / 256), BitVec.ofNat 8 (first % 256),
      BitVec.ofNat 8 (last / 256), BitVec.ofNat 8 (last % 256)] := by
  simp only [rangeArgs, u16Bytes, hi_ofNat, lo_ofNat, List.cons_append, List.nil_append]

/-- The extent of an ordered range (R18). -/
theorem extent_of_le {first last : Half} (le : first.toNat ≤ last.toNat) :
    extent first last = last.toNat - first.toNat + 1 :=
  Nat.sub_add_comm le

/-- Settles O33: the window check is its four bounds, an argument range its two ends high bytes first, and an ordered
range has its extent. -/
theorem windowArgumentsBigEndian : Obligations.WindowArgumentsBigEndian :=
  ⟨fun _ _ _ _ => windowOk_iff, fun x w _ _ => ⟨rangeArgs_eq x (x + w - 1), rfl⟩, fun _ _ => extent_of_le⟩

end Sys2Proof.Machine

/-!
PROOFS. The encodings, requests first (R64–R68), then table entries (R69–R72): the decoder against the encoder, in both
directions. O1 to O6.
-/
namespace Sys2Proof

/-! ### Host requests -/

/-- Settles O2: the first byte names the operation, whose layout then gives each operand back. -/
theorem encodedRequestDecodes : Obligations.EncodedRequestDecodes := by
  intro i req fits
  cases i with
  | dinit | dcmd | dfill | dbgset | rinit | rpoll | rpres | rscan => rfl
  | ddata s =>
    have count : s.length = (be16 (hi (BitVec.ofNat 16 s.length)) (lo (BitVec.ofNat 16 s.length))).toNat := by
      rw [be16_hi_lo, BitVec.toNat_ofNat, Nat.mod_eq_of_lt (of_decide_eq_true fits)]
    exact ((decodeRequest_code .ddata _).trans (decodeArgs_ddata _ _ s)).trans (if_pos count)
  | dwin x y w h => exact (decodeRequest_code .dwin _).trans (decodeArgs_dwin x y w h)
  | dchar x y cp scale r g b => exact (decodeRequest_code .dchar _).trans (decodeArgs_dchar x y cp scale r g b)
  | dstr x y scale r g b text =>
    have count : text.length = (BitVec.ofNat 8 text.length).toNat := by
      rw [BitVec.toNat_ofNat, Nat.mod_eq_of_lt (of_decide_eq_true fits)]
    exact ((decodeRequest_code .dstr _).trans (decodeArgs_dstr x y scale r g b _ text)).trans (if_pos count)
  | rread addr reg => exact (decodeRequest_code .rread _).trans (decodeArgs_rread addr reg)
  | rwrite addr reg val => exact (decodeRequest_code .rwrite _).trans (decodeArgs_rwrite addr reg val)
  | initEntry | initEnd => cases req

/-- The two bytes of a u16 field (R64). -/
@[simp] theorem u16Bytes_be16 (a b : Byte) : u16Bytes (be16 a b) = [a, b] := by
  rw [u16Bytes, hi_be16, lo_be16]

/-- An operation without arguments takes no argument byte (R68). -/
theorem decodeBare_ok {i j : Instr} {op : Byte} {args : List Byte} (h : decodeBare j op args = .ok i) :
    i = j ∧ args = [] := by
  cases args <;> cases h
  exact ⟨rfl, rfl⟩

/-- The arguments an operation accepts are those of the encoding of what they decode to, and the counted ones fit. -/
theorem encode_of_decodeArgs {o : Op} {args : List Byte} {i : Instr} (h : decodeArgs o args = .ok i) :
    encode i = o.code :: args ∧ i.encodable = true := by
  cases o with
  | dinit | rinit | rpoll | rpres | rscan =>
    obtain ⟨rfl, rfl⟩ := decodeBare_ok h
    exact ⟨rfl, rfl⟩
  | dcmd | dfill | dbgset =>
    simp only [decodeArgs] at h
    split at h <;> cases h
    exact ⟨rfl, rfl⟩
  | dwin | dchar =>
    simp only [decodeArgs] at h
    split at h <;> cases h
    exact ⟨by simp only [encode, u16Bytes_be16]; rfl, rfl⟩
  | ddata =>
    simp only [decodeArgs] at h
    split at h
    next n1 n0 s =>
      split at h <;> cases h
      next count =>
        refine ⟨?_, decide_eq_true (count ▸ BitVec.isLt _)⟩
        rw [encode, count, BitVec.ofNat_toNat, BitVec.setWidth_eq, u16Bytes_be16]
        rfl
    next => cases h
  | dstr =>
    simp only [decodeArgs] at h
    split at h
    next x1 x0 y1 y0 scale r g b n text =>
      split at h <;> cases h
      next count =>
        refine ⟨?_, decide_eq_true (count ▸ BitVec.isLt _)⟩
        rw [encode, count, BitVec.ofNat_toNat, BitVec.setWidth_eq, u16Bytes_be16, u16Bytes_be16]
        rfl
    next => cases h
  | rread | rwrite =>
    simp only [decodeArgs] at h
    split at h
    · split at h <;> cases h
      next valid => exact ⟨by rw [encode, setWidth_of_devAddr valid]; rfl, rfl⟩
    · cases h

/-- Settles O4: an accepted request begins with the code of the operation that accepts its arguments. -/
theorem acceptedRequestIsItsEncoding : Obligations.AcceptedRequestIsItsEncoding := by
  intro bytes i h
  have req := Machine.isRequest_of_decodeRequest h
  unfold decodeRequest at h
  split at h
  next => cases h
  next op args =>
    split at h
    next o named =>
      obtain ⟨same, fits⟩ := encode_of_decodeArgs h
      exact ⟨same.trans (by rw [Op.code_of_ofByte named]), req, fits⟩
    next => cases h

/-- The assigned operation codes (R66). -/
theorem Op.code_assigned (o : Op) :
    (0x01 ≤ o.code.toNat ∧ o.code.toNat ≤ 0x08) ∨ (0x10 ≤ o.code.toNat ∧ o.code.toNat ≤ 0x15) := by
  cases o <;> decide

/-- Settles O6: a byte that named an operation would be its code, and every code is assigned. -/
theorem unassignedOpCodeRejected : Obligations.UnassignedOpCodeRejected := by
  intro op args unassigned
  cases named : Op.ofByte op with
  | none => simp only [decodeRequest, named]
  | some o =>
    have assigned := o.code_assigned
    rw [Op.code_of_ofByte named] at assigned
    obtain rfl | between | above := unassigned
    · exact absurd assigned (by decide)
    · omega
    · omega

/-! ### Table entries -/

/-- An entry in the ROM, with as many arguments as its length byte says (R69, R70, R72). -/
theorem decodeEntry_entry {cmd lb : Byte} {args : List Byte} (command : cmd ≠ 0x00#8)
    (count : args.length = argCount lb) (rest : List Byte) :
    decodeEntry (cmd :: lb :: (args ++ rest)) = .ok (.initEntry cmd (delayFlag lb) args, rest) := by
  have whole : ¬ (args ++ rest).length < argCount lb := by rw [List.length_append]; omega
  simp only [decodeEntry, command, if_false, whole, List.take_left' count, List.drop_left' count]

/-- The terminator takes one byte (R71). -/
theorem decodeEntry_end (rest : List Byte) : decodeEntry (0x00#8 :: rest) = .ok (.initEnd, rest) := rfl

/-- The argument count is `len_byte` without its bit 7 (R70). -/
theorem argCount_eq_mod (lb : Byte) : argCount lb = lb.toNat % 128 := by
  rw [argCount, BitVec.extractLsb'_toNat, Nat.shiftRight_zero]

/-- Settles O3: the length byte of the encoding holds the entry's own count and delay flag. -/
theorem encodedEntryDecodes : Obligations.EncodedEntryDecodes := by
  intro i rest entry fits
  cases i with
  | initEntry cmd delay args =>
    simp only [Instr.encodable, Bool.and_eq_true, decide_eq_true_eq] at fits
    obtain ⟨command, short⟩ := fits
    obtain ⟨count, flag⟩ := lenByte_fields delay short
    exact (decodeEntry_entry command count.symm rest).trans (by rw [flag])
  | initEnd => exact decodeEntry_end rest
  | dinit | dcmd | ddata | dwin | dfill | dbgset | dchar | dstr | rinit | rpoll | rpres | rread | rwrite | rscan =>
    cases entry

/-- Settles O5: an entry with the arguments its length byte counts, and the terminator. -/
theorem tableEntryLayout : Obligations.TableEntryLayout :=
  ⟨fun _ lb _ rest command count => decodeEntry_entry command (count.trans (argCount_eq_mod lb).symm) rest,
    decodeEntry_end⟩

/-- Settles O1: each word is run through the decoder. -/
theorem sampleWordsDecode : Obligations.SampleWordsDecode := by
  unfold Obligations.SampleWordsDecode
  decide

end Sys2Proof

/-!
PROOFS. O10, O30 and O31, executing one table entry (R70–R72, R87): where DSQ stands at a table offset it performs the
entry's lines and stops at the next offset; elsewhere the entry is refused.
-/
namespace Sys2Proof.Machine

theorem exec_initEntry_atTable {s : State} {p : Nat} {rest : List DAct} {cmd : Byte} {delay : Bool} {args : List Byte}
    (at_p : s.dsq.run = .table p :: rest) (encodable : (Instr.initEntry cmd delay args).encodable = true) :
    exec (.initEntry cmd delay args) s = .next { s with dsq := s.dsq.tableEntry s.cfg p rest cmd delay args } := by
  simp only [exec, execInitEntry, at_p, encodable, if_true]

theorem Dsq.run_ne_table {d : Dsq} {p : Nat} {rest : List DAct} (away : d.atTable = false) :
    d.run ≠ .table p :: rest := fun at_p => by
  rw [atTable_of_run at_p] at away
  cases away

theorem exec_initEntry_away {s : State} (away : s.dsq.atTable = false) (cmd : Byte) (delay : Bool) (args : List Byte) :
    exec (.initEntry cmd delay args) s = .refused .notReplaying := by
  simp only [exec, execInitEntry]
  split
  next at_p => exact absurd at_p (Dsq.run_ne_table away)
  next => rfl

theorem exec_initEntry_notEncodable {cmd : Byte} {delay : Bool} {args : List Byte}
    (illFormed : (Instr.initEntry cmd delay args).encodable = false) (s : State) :
    exec (.initEntry cmd delay args) s = .refused .notReplaying := by
  simp only [exec, execInitEntry, illFormed, Bool.false_eq_true, if_false]
  split <;> rfl

theorem exec_initEnd_atTable {s : State} {p : Nat} {rest : List DAct} (at_p : s.dsq.run = .table p :: rest) :
    exec .initEnd s = .next { s with dsq := s.dsq.tableEnd s.cfg rest } := by
  simp only [exec, execInitEnd, at_p]

theorem exec_initEnd_away {s : State} (away : s.dsq.atTable = false) : exec .initEnd s = .refused .notReplaying := by
  simp only [exec, execInitEnd]
  split
  next at_p => exact absurd at_p (Dsq.run_ne_table away)
  next => rfl

/-- Settles O10: both forms away from a table offset, and an entry without an encoding anywhere. -/
theorem tableEntryOutsideReplayRefused : Obligations.TableEntryOutsideReplayRefused :=
  ⟨fun _ cmd delay args away => ⟨exec_initEntry_away away cmd delay args, exec_initEnd_away away⟩,
    fun s _ _ _ illFormed => exec_initEntry_notEncodable illFormed s⟩

/-- DSQ stops at a table offset: the entry there is the next instruction (R15, R87). -/
theorem Dsq.go_table (c : Config) (p : Nat) (rest : List DAct) (d : Dsq) :
    Dsq.go c (.table p :: rest) d = { d with run := .table p :: rest } := go_pause rfl

/-- Settles O30: the entry's lines complete and leave DSQ at the next offset, or raise ERR_DBUS. -/
theorem initEntryAdvancesTable : Obligations.InitEntryAdvancesTable := by
  intro s e p lines rest encodable at_p
  rw [exec_initEntry_atTable at_p encodable, Dsq.tableEntry]
  refine ⟨fun ans => ?_, fun k hk ans => ?_⟩
  · rw [Dsq.completes_entryLines ans, Dsq.go_table]
  · rw [Dsq.raises_entryLines hk ans, Dsq.raise_errDbus]

/-- Settles O31: after `PANEL_OK` no line is left, so DINIT ends OK. -/
theorem initEndEndsReplay : Obligations.InitEndEndsReplay := by
  intro s p at_p
  rw [exec_initEnd_atTable at_p, Dsq.tableEnd, Dsq.go_done rfl, Dsq.go_nil, Dsq.finish_eq_ended]

end Sys2Proof.Machine

/-!
PROOFS. O9 and O14, the step at a table offset and under a refused configuration (R72, R83, R87); O25 and O26, the two
requests that send one transaction (R85, R86).
-/
namespace Sys2Proof.Machine

/-- No whole entry stands where DSQ stands in the table (R37). -/
theorem State.fetch_overrun {s : State} {p : Nat} {lines : List DAct} {why : Reject} (ok : configOk s.cfg = true)
    (at_p : s.dsq.run = .table p :: lines) (none : decodeEntry (s.cfg.initTable.drop p) = .error why) :
    s.fetch = .stop .initRomOverrun := by
  simp only [State.fetch, ok, if_true, at_p, none]

/-- A configuration that is refused (R83). -/
theorem State.fetch_illFormed {s : State} (bad : configOk s.cfg = false) : s.fetch = .reject .illFormedConfig := by
  simp only [State.fetch, bad, Bool.false_eq_true, if_false]

/-- No DINIT runs under a configuration that is refused (R83). -/
theorem exec_dinit_illFormed {s : State} (bad : configOk s.cfg = false) :
    exec .dinit s = .refused .illFormedConfig := by
  simp only [exec, execDinit, bad, Bool.false_eq_true, if_false]

/-- Settles O9: the bytes at the offset hold an entry, which is fetched, or none, which is the fault. -/
theorem stepPerformsTableEntry : Obligations.StepPerformsTableEntry := by
  refine ⟨fun s p lines i rest ok at_p entry => ?_, fun s p lines why ok at_p none => ?_⟩
  · rw [step, State.fetch_atTable ok at_p entry]
  · rw [step, State.fetch_overrun ok at_p none]

/-- Settles O14: both the fetch and DINIT check the configuration first. -/
theorem illFormedConfigRefused : Obligations.IllFormedConfigRefused := by
  intro s bad
  exact ⟨by rw [step, State.fetch_illFormed bad], exec_dinit_illFormed bad⟩

/-- A transaction answered OK (R42). -/
theorem Dsq.transactLine_ok {d : Dsq} {as : List DispAnswer} (item : DispAnswer → DispItem) (line : DAct)
    (ans : d.answers = .ok :: as) : d.transactLine item line = .done (d.traffic [item .ok] as) := by
  simp only [transactLine, transact, ans, traffic]

/-- A transaction answered FAIL (R42, R120). -/
theorem Dsq.transactLine_fail {d : Dsq} {as : List DispAnswer} (item : DispAnswer → DispItem) (line : DAct)
    (ans : d.answers = .fail :: as) :
    d.transactLine item line = .raise .errDbus (d.traffic [item .fail] as) := by
  simp only [transactLine, transact, ans, traffic]

/-- A request that drops the window and sends one transaction: with either answer (R85, R86, R120). -/
theorem Dsq.start_transaction {c : Config} {line : DAct} {item : DispAnswer → DispItem} {d : Dsq}
    {as : List DispAnswer} (sends : ∀ d, Dsq.act c line d = d.transactLine item line) :
    (d.answers = .ok :: as → d.start c [.clearWinValid, line] =
      ({ d with winValid := false }.traffic [item .ok] as).ended .ok) ∧
    (d.answers = .fail :: as → d.start c [.clearWinValid, line] = (d.traffic [item .fail] as).endedFailed) := by
  rw [start, go_done rfl]
  refine ⟨fun ans => ?_, fun ans => ?_⟩
  · exact Eq.trans (go_done ((sends _).trans (transactLine_ok item line ans))) rfl
  · exact Eq.trans (go_raise ((sends _).trans (transactLine_fail item line ans))) rfl

/-- Settles O25: the one transaction is the command. -/
theorem dcmdSendsOneCommand : Obligations.DcmdSendsOneCommand := by
  intro s b rest idle
  obtain ⟨ok, fail⟩ := Dsq.start_transaction (c := s.cfg) (line := .cmd b) (d := s.dsq) (as := rest) fun _ => rfl
  rw [exec_dcmd_idle b idle]
  exact ⟨fun ans => by rw [ok ans], fun ans => by rw [fail ans]⟩

theorem ddataLines_of_ne_nil {bytes : List Byte} (ne : bytes ≠ []) :
    ddataLines bytes = [.clearWinValid, .data bytes] := by
  cases bytes with
  | nil => exact absurd rfl ne
  | cons => rfl

/-- Settles O26: the one transaction, if there is one, is the payload. -/
theorem ddataSendsOneTransaction : Obligations.DdataSendsOneTransaction := by
  intro s bytes rest idle wf
  obtain ⟨ok, fail⟩ := Dsq.start_transaction (c := s.cfg) (line := .data bytes) (d := s.dsq) (as := rest) fun _ => rfl
  rw [exec_ddata_idle wf idle]
  refine ⟨fun empty => ?_, fun ne ans => ?_, fun ne ans => ?_⟩
  · subst empty
    rfl
  · rw [ddataLines_of_ne_nil ne, ok ans]
  · rw [ddataLines_of_ne_nil ne, fail ans]

end Sys2Proof.Machine

/-!
PROOFS. O28 and O29, the whole of DINIT (R84, R87): the entries a parsed table holds from an offset on, and what DINIT's
loop does with them, answered OK throughout or up to a failing transaction.
-/
namespace Sys2Proof.Machine

/-! ### The entries of a parsed table -/

/-- From offset `p` on the table holds these entries, then a terminator (R72, R84). -/
inductive HoldsEntries (table : List Byte) : Nat → List TableEntry → Prop
  | stop {p : Nat} {more : List Byte} (terminator : decodeEntry (table.drop p) = .ok (.initEnd, more)) :
    HoldsEntries table p []
  | entry {p : Nat} {e : TableEntry} {more : List Byte} {later : List TableEntry}
    (first : decodeEntry (table.drop p) = .ok (.initEntry e.cmd e.delay e.args, more))
    (rest : HoldsEntries table (p + 2 + e.args.length) later) : HoldsEntries table p (e :: later)

/-- The walk from an offset collects the entries the table holds there. -/
theorem holdsEntries_of_parseFrom {table : List Byte} {fuel p stop : Nat} {entries : List TableEntry}
    (h : parseFrom fuel p (table.drop p) = some (entries, stop)) : HoldsEntries table p entries := by
  induction fuel generalizing p entries with
  | zero => cases h
  | succ fuel ih =>
    cases dec : decodeEntry (table.drop p) with
    | error why => simp [parseFrom, dec] at h
    | ok ir =>
      obtain ⟨i, more⟩ := ir
      obtain ⟨rfl, -⟩ | ⟨cmd, delay, args, rfl, -, rest, -⟩ := decodeEntry_cases dec
      · simp only [parseFrom, dec, Option.some.injEq, Prod.mk.injEq] at h
        exact h.1 ▸ .stop dec
      · rw [List.drop_drop, ← Nat.add_assoc] at rest
        simp only [parseFrom, dec, rest] at h
        split at h
        next later q walk =>
          cases h
          exact .entry dec (ih walk)
        next => cases h

theorem holdsEntries_of_parse {table : List Byte} {entries : List TableEntry} {stop : Nat}
    (h : parse table = some (entries, stop)) : HoldsEntries table 0 entries :=
  holdsEntries_of_parseFrom h

/-! ### DINIT's loop over them -/

/-- An entry whose transactions are answered OK leads to the next offset (R72, R87). -/
theorem Dsq.tableEntry_ok {c : Config} {e : TableEntry} {d : Dsq} {as : List DispAnswer} (p : Nat) (rest : List DAct)
    (ans : d.answers = List.replicate (transactions e.items) .ok ++ as) :
    d.tableEntry c p rest e.cmd e.delay e.args =
      { d.traffic e.items as with run := .table (p + 2 + e.args.length) :: rest } := by
  rw [tableEntry, completes_entryLines ans, go_table]

/-- An entry with a transaction answered FAIL ends DINIT (R87, R119). -/
theorem Dsq.tableEntry_fail {c : Config} {e : TableEntry} {k : Nat} {d : Dsq} {as : List DispAnswer} (p : Nat)
    (rest : List DAct) (hk : k < transactions e.items) (ans : d.answers = List.replicate k .ok ++ .fail :: as) :
    d.tableEntry c p rest e.cmd e.delay e.args = (d.traffic (failAfter k e.items) as).endedFailed := by
  rw [tableEntry, raises_entryLines hk ans, raise_errDbus]

/-- The loop replays all the entries, answered OK throughout, and ends DINIT (R87). -/
theorem Dsq.replay_ok {c : Config} {p fuel : Nat} {entries : List TableEntry} {d : Dsq} {as : List DispAnswer}
    (holds : HoldsEntries c.initTable p entries) (at_p : d.run = [.table p])
    (enough : c.initTable.length - p ≤ fuel)
    (ans : d.answers = List.replicate (transactions (entries.flatMap TableEntry.items)) .ok ++ as) :
    Dsq.replay c fuel d =
      ({ d with panelOk := true }.traffic (entries.flatMap TableEntry.items) as).ended .ok := by
  induction holds generalizing fuel d with
  | stop terminator =>
    obtain ⟨fuel, rfl⟩ : ∃ n, fuel = n + 1 :=
      ⟨fuel - 1, by have := lt_length_of_decodeEntry terminator; omega⟩
    obtain rfl : d.answers = as := ans
    rw [replay_end at_p terminator, tableEnd, go_done rfl, go_nil, finish_eq_ended]
    exact congrArg (Dsq.ended .ok) (traffic_nil _).symm
  | @entry p e more later first _ ih =>
    obtain ⟨fuel, rfl⟩ : ∃ n, fuel = n + 1 := ⟨fuel - 1, by have := lt_length_of_decodeEntry first; omega⟩
    rw [List.flatMap_cons, transactions_append, List.replicate_add, List.append_assoc] at ans
    rw [replay_entry at_p first, tableEntry_ok p [] ans, ih rfl (by omega) rfl, List.flatMap_cons,
      ← traffic_traffic (a := d.answers) (d := { d with panelOk := true })]
    rfl

/-- The loop stops at the transaction answered FAIL (R87, R119, R126). -/
theorem Dsq.replay_fail {c : Config} {p fuel k : Nat} {entries : List TableEntry} {d : Dsq} {as : List DispAnswer}
    (holds : HoldsEntries c.initTable p entries) (at_p : d.run = [.table p])
    (enough : c.initTable.length - p ≤ fuel) (hk : k < transactions (entries.flatMap TableEntry.items))
    (ans : d.answers = List.replicate k .ok ++ .fail :: as) :
    Dsq.replay c fuel d = (d.traffic (failAfter k (entries.flatMap TableEntry.items)) as).endedFailed := by
  induction holds generalizing fuel d k with
  | stop => simp [transactions] at hk
  | @entry p e more later first _ ih =>
    obtain ⟨fuel, rfl⟩ : ∃ n, fuel = n + 1 := ⟨fuel - 1, by have := lt_length_of_decodeEntry first; omega⟩
    rw [List.flatMap_cons, transactions_append] at hk
    rw [replay_entry at_p first, List.flatMap_cons]
    obtain here | ⟨m, rfl⟩ : k < transactions e.items ∨ ∃ m, k = transactions e.items + m :=
      (Nat.lt_or_ge k _).imp_right Nat.exists_eq_add_of_le
    · rw [tableEntry_fail p [] here ans, failAfter_append_left here]
      exact replay_of_not_atTable rfl c fuel
    · rw [List.replicate_add, List.append_assoc] at ans
      rw [tableEntry_ok p [] ans, ih rfl (by omega) (by omega) rfl, failAfter_append_right,
        ← traffic_traffic (a := d.answers)]
      rfl

/-! ### The software reset before the loop -/

/-- DINIT clears both flags before its first transaction (R87). -/
theorem Dsq.start_dinitLines (c : Config) (d : Dsq) :
    d.start c (dinitLines c) = Dsq.go c [.cmd c.cmdSwreset, .wait tSwresetMs, .table 0]
      { d with busy := true, winValid := false, panelOk := false } := rfl

/-- DINIT reaches its loop when the software reset is answered OK (R87). -/
theorem Dsq.start_dinitLines_ok {c : Config} {d : Dsq} {as : List DispAnswer} (ans : d.answers = .ok :: as) :
    d.start c (dinitLines c) =
      { d.traffic [.cmd c.cmdSwreset .ok, .wait tSwresetMs] as with
        busy := true, winValid := false, panelOk := false, run := [.table 0] } := by
  rw [start_dinitLines]
  refine Eq.trans (go_done (act_cmd_ok c _ ans)) ?_
  rw [go_done rfl, go_table]
  simp [traffic, waitMs]

/-- DINIT ends at once when the software reset is answered FAIL (R87, R119). -/
theorem Dsq.start_dinitLines_fail {c : Config} {d : Dsq} {as : List DispAnswer} (ans : d.answers = .fail :: as) :
    d.start c (dinitLines c) = (d.traffic [.cmd c.cmdSwreset .fail] as).endedFailed := by
  rw [start_dinitLines]
  exact Eq.trans (go_raise (act_cmd_fail c _ ans)) rfl

theorem transactions_dinitItems (c : Config) (entries : List TableEntry) :
    transactions (dinitItems c entries) = transactions (entries.flatMap TableEntry.items) + 1 := rfl

/-- Settles O28: the software reset leads to the loop, and the loop replays the parsed entries. -/
theorem dinitReplaysWholeTable : Obligations.DinitReplaysWholeTable := by
  intro s entries stop rest ok idle parsed ans
  rw [transactions_dinitItems, List.replicate_succ, List.cons_append] at ans
  rw [exec_dinit_idle ok idle, Dsq.start_dinitLines_ok ans,
    Dsq.replay_ok (holdsEntries_of_parse parsed) rfl (Nat.sub_le _ _) rfl, dinitItems,
    ← Dsq.traffic_traffic (a := rest) (d := { s.dsq with winValid := false, panelOk := true })]
  rfl

/-- Settles O29: the failing transaction is the software reset, or one of the loop's. -/
theorem dinitStopsAtFirstFailure : Obligations.DinitStopsAtFirstFailure := by
  intro s entries stop k rest ok idle parsed hk ans
  rw [exec_dinit_idle ok idle]
  cases k with
  | zero =>
    rw [Dsq.start_dinitLines_fail ans, Dsq.replay_of_not_atTable rfl]
    rfl
  | succ k =>
    rw [transactions_dinitItems] at hk
    rw [List.replicate_succ, List.cons_append] at ans
    rw [Dsq.start_dinitLines_ok ans,
      Dsq.replay_fail (holdsEntries_of_parse parsed) rfl (Nat.sub_le _ _) (Nat.lt_of_succ_lt_succ hk) rfl]
    have items : failAfter (k + 1) (dinitItems s.cfg entries) =
        [.cmd s.cfg.cmdSwreset .ok, .wait tSwresetMs] ++ failAfter k (entries.flatMap TableEntry.items) := by
      simp [dinitItems, failAfter]
    rw [items, ← Dsq.traffic_traffic (a := rest) (d := s.dsq)]
    rfl

end Sys2Proof.Machine

/-!
PROOFS. O32, O34 and O35, DWIN and DFILL on an idle DSQ (R89–R93): each request's lines complete or raise, and the traffic
of a fill is whole pixels of its colour whatever the framing (R63).
-/
namespace Sys2Proof.Machine

/-- Settles O32: the window sequence completes, is rejected, or fails at its transaction `k + 1`. -/
theorem dwinOpensWindow : Obligations.DwinOpensWindow := by
  intro s x y w h rest idle
  rw [exec_dwin_idle x y w h idle]
  refine ⟨fun fits ans => ?_, fun misfit => ?_, fun k hk fits ans => ?_⟩
  · rw [Dsq.start_of_completes (Dsq.completes_doWin fits ans)]
    rfl
  · rw [Dsq.start_of_raises (Dsq.raises_doWin_range misfit _)]
    rfl
  · rw [Dsq.start_of_raises (Dsq.raises_doWin fits hk ans)]
    rfl

/-! ### A fill as a whole operation, in any framing -/

/-- A fill's traffic is fixed before the first answer (R63): with an OK answer for each of its transactions the operation
ends OK, and it ends with ERR_DBUS at the first that fails (R91, R120). -/
theorem Dsq.start_doFill (c : Config) (v : Colour) {n : Nat} {d : Dsq} (valid : d.winValid = true)
    (hn : n = extent d.winX0 d.winX1 * extent d.winY0 d.winY1) :
    ∃ (items : List DispItem) (draws : Nat), isFillTraffic c.fillFraming n v items ∧
      (∀ as, d.answers = List.replicate items.length .ok ++ as → d.start c (doFill v) =
        ({ d with winValid := false, groupDraws := draws }.traffic items as).ended .ok) ∧
      ∀ k < items.length, ∀ as, d.answers = List.replicate k .ok ++ .fail :: as → ∃ draws, d.start c (doFill v) =
        ({ d with groupDraws := draws }.traffic (failAfter k items) as).endedFailed := by
  obtain ⟨items, draws, isFill, run⟩ := Dsq.doFill_runs c v n d.groupDraws
  obtain ⟨completes, fails⟩ := run { d with busy := true } rfl valid hn.symm
  refine ⟨items, draws, isFill, fun as ans => ?_, fun k hk as ans => ?_⟩
  · rw [start_of_completes (completes as ans)]
    rfl
  · obtain ⟨draws, raises⟩ := fails k hk as ans
    refine ⟨draws, ?_⟩
    rw [start_of_raises raises]
    rfl

/-- Settles O34: the fill completes, is refused, or fails, under PER_PIXEL; and in every framing `k` OK answers reach the
end of its traffic or do not. -/
theorem dfillSendsEveryPixel : Obligations.DfillSendsEveryPixel := by
  intro s r g b n rest idle hn
  rw [exec_dfill_idle r g b idle]
  refine ⟨fun fr valid ans => ?_, fun unprimed => ?_, fun k hk fr valid ans => ?_, fun k valid ans => ?_⟩
  · rw [Dsq.start_of_completes (Dsq.completes_doFill fr valid hn.symm ans)]
    rfl
  · rw [Dsq.start_of_raises (Dsq.raises_doFill_window unprimed)]
    rfl
  · rw [Dsq.start_of_raises (Dsq.raises_doFill fr valid hn.symm hk ans), pixelBytes_rgb]
    rfl
  · obtain ⟨items, draws, isFill, completes, fails⟩ := Dsq.start_doFill s.cfg (rgb r g b) valid hn
    obtain short | enough := Nat.lt_or_ge k items.length
    · obtain ⟨draws, failed⟩ := fails k short rest ans
      exact ⟨items, draws, isFill, .inr ⟨short, by rw [failed]⟩⟩
    · rw [← Nat.add_sub_of_le enough, List.replicate_add, List.append_assoc] at ans
      exact ⟨items, draws, isFill, .inl ⟨enough, by rw [completes _ ans]⟩⟩

/-! ### The bytes of a fill (R92, R93) -/

theorem isOkData_of_isFillTraffic {f : FillFraming} {n : Nat} {v : Colour} {items : List DispItem}
    (h : isFillTraffic f n v items) : items.all DispItem.isOkData = true := by
  obtain ⟨groups, -, -, -, rfl⟩ := h
  simp [DispItem.isOkData]

theorem pixelRun_add (m n : Nat) (v : Colour) : pixelRun (m + n) v = pixelRun m v ++ pixelRun n v := by
  rw [pixelRun, List.replicate_add, List.flatten_append]
  rfl

theorem length_pixelRun (n : Nat) (v : Colour) : (pixelRun n v).length = 3 * n := by
  simp [pixelRun, pixelBytes, Nat.mul_comm]

/-- However a fill's pixels are grouped, its bytes are those of its pixels in order (R63). -/
theorem dataBytes_of_isFillTraffic {f : FillFraming} {n : Nat} {v : Colour} {items : List DispItem}
    (h : isFillTraffic f n v items) : dataBytes items = pixelRun n v := by
  obtain ⟨groups, rfl, -, -, rfl⟩ := h
  induction groups with
  | nil => rfl
  | cons m groups ih => rw [List.map_cons, dataBytes, ih, List.sum_cons, pixelRun_add]

/-- Settles O35: there is an answer for each transaction, as there are no more of them than pixels; a legal window has
its two extents. -/
theorem fillByteCountInEveryFraming : Obligations.FillByteCountInEveryFraming := by
  intro s r g b n m idle valid hm enough ans
  obtain ⟨items, draws, isFill, completes, -⟩ := Dsq.start_doFill s.cfg (rgb r g b) valid hm
  have fewer : items.length ≤ n := (length_of_isFillTraffic isFill).trans enough
  rw [← Nat.add_sub_of_le fewer, List.replicate_add] at ans
  refine ⟨items, draws, ?_, isFill, isOkData_of_isFillTraffic isFill, ?_, fun legal => ?_⟩
  · rw [exec_dfill_idle r g b idle, completes _ ans]
  · rw [dataBytes_of_isFillTraffic isFill, pixelRun, pixelBytes_rgb]
  · obtain ⟨hx, -, hy, -⟩ := legal
    rw [dataBytes_of_isFillTraffic isFill, length_pixelRun, hm, extent_of_le hx, extent_of_le hy, Nat.mul_assoc]

end Sys2Proof.Machine

/-!
PROOFS. O36, O37 and O40, glyphs and slots (R94–R97, R99): which bit a cell tests, in which order the set cells stand, where
their blocks lie, and which character a slot shows.
-/
namespace Sys2Proof.Machine

/-! ### Bit order and glyph lookup (R94–R96) -/

theorem rev8_rev8 (b : Byte) : rev8 (rev8 b) = b := BitVec.reverse_reverse_eq

/-- The definition of R94, bit by bit. -/
theorem getLsbD_rev8 (b : Byte) {i : Nat} (hi : i ≤ 7) : (rev8 b).getLsbD i = b.getLsbD (7 - i) := by
  rw [rev8, BitVec.getLsbD_reverse, BitVec.getMsbD, decide_eq_true (Nat.lt_succ_of_le hi), Bool.true_and]

/-- The pixel test without the reversal (R96). -/
theorem paint_eq_getLsbD (c : Config) (cp : Byte) (row : Nat) {col : Nat} (hcol : col ≤ 7) :
    paint c cp row col = (glyph c cp row).getLsbD col := by
  rw [paint, getLsbD_rev8 _ (Nat.sub_le 7 col), Nat.sub_sub_self hcol]

theorem glyphRomWellFormed_iff {rom : List (Byte × List Byte)} :
    glyphRomWellFormed rom = true ↔
      (∀ e ∈ rom, e.1.toNat < 128 ∧ e.2.length = 8) ∧ (rom.map Prod.fst).Nodup := by
  simp [glyphRomWellFormed]

/-- In a well-formed ROM the entry of a codepoint is the one the lookup finds (R28, R95). -/
theorem find?_of_mem_glyphRom {rom : List (Byte × List Byte)} {cp : Byte} {rows : List Byte}
    (nodup : (rom.map Prod.fst).Nodup) (mem : (cp, rows) ∈ rom) :
    rom.find? (fun e => e.1 == cp) = some (cp, rows) := by
  cases found : rom.find? (fun e => e.1 == cp) with
  | none => exact absurd (beq_self_eq_true cp) (List.find?_eq_none.1 found _ mem)
  | some e =>
    have same : e.1 = cp := by simpa using List.find?_some found
    rw [List.inj_on_of_nodup_map nodup (List.mem_of_find?_eq_some found) mem same]

theorem getElem?_eq_glyph {c : Config} {cp : Byte} {rows : List Byte} {r : Nat}
    (wf : glyphRomWellFormed c.glyphRom = true) (mem : (cp, rows) ∈ c.glyphRom) (hr : r ≤ 7) :
    rows[r]? = some (glyph c cp r) := by
  obtain ⟨shape, nodup⟩ := glyphRomWellFormed_iff.1 wf
  have len : rows.length = 8 := (shape _ mem).2
  have inside : r < rows.length := by omega
  simp only [glyph, find?_of_mem_glyphRom nodup mem]
  rw [List.getD_eq_getElem _ _ inside, List.getElem?_eq_getElem inside]

theorem glyph_of_no_entry {c : Config} {cp : Byte} (absent : ∀ e ∈ c.glyphRom, e.1 ≠ cp) (r : Nat) :
    glyph c cp r = 0x00#8 := by
  have none : c.glyphRom.find? (fun e => e.1 == cp) = none := List.find?_eq_none.2 (by simpa using absent)
  simp only [glyph, none]

/-! ### The painted cells (R97) -/

theorem mem_paintedCells_iff {c : Config} {cp : Byte} {row col : Nat} :
    (row, col) ∈ paintedCells c cp ↔ row ≤ 7 ∧ col ≤ 7 ∧ (glyph c cp row).getLsbD col = true := by
  have cells : (row, col) ∈ paintedCells c cp ↔ row ≤ 7 ∧ col ≤ 7 ∧ paint c cp row col = true := by
    simp [paintedCells, Nat.lt_succ_iff, and_assoc]
  rw [cells]
  refine and_congr_right fun _ => and_congr_right fun hcol => ?_
  rw [paint_eq_getLsbD c cp row hcol]

/-- Rows top to bottom, columns left to right within a row. -/
theorem paintedCells_rowMajor (c : Config) (cp : Byte) :
    (paintedCells c cp).Pairwise fun p q => p.1 < q.1 ∨ (p.1 = q.1 ∧ p.2 < q.2) := by
  refine List.Pairwise.filter _ (List.pairwise_flatMap.2 ⟨fun row _ => ?_, ?_⟩)
  · exact List.pairwise_map.2 (List.pairwise_lt_range.imp fun lt => .inr ⟨rfl, lt⟩)
  · refine List.pairwise_lt_range.imp fun {upper lower} lt p hp q hq => .inl ?_
    obtain ⟨_, -, rfl⟩ := List.mem_map.1 hp
    obtain ⟨_, -, rfl⟩ := List.mem_map.1 hq
    exact lt

theorem paintedCells_of_blank {c : Config} {cp : Byte} (blank : ∀ row ≤ 7, glyph c cp row = 0x00#8) :
    paintedCells c cp = [] := by
  refine List.eq_nil_iff_forall_not_mem.2 fun ⟨row, col⟩ mem => ?_
  obtain ⟨hrow, -, set⟩ := mem_paintedCells_iff.1 mem
  simp [blank row hrow] at set

/-- Settles O36: `rev8` undoes the reversal of the column, and the painted cells are the set bits of the 8 × 8 grid. -/
theorem paintTestsStoredBit : Obligations.PaintTestsStoredBit :=
  ⟨rev8_rev8, fun b _ hi => getLsbD_rev8 b hi, fun _ _ _ _ wf mem hr => getElem?_eq_glyph wf mem hr,
    fun _ _ r absent => glyph_of_no_entry absent r, fun c cp row _ hcol => paint_eq_getLsbD c cp row hcol,
    fun c cp => ⟨fun _ _ => mem_paintedCells_iff, paintedCells_rowMajor c cp, paintedCells_of_blank⟩⟩

/-! ### Blocks and slots -/

/-- Settles O37: the box is a block that fits, and every other block is that of a cell of its grid. -/
theorem blocksFitWhenBoxFits : Obligations.BlocksFitWhenBoxFits := by
  intro c bg fg x y scale cp box
  unfold charBlocks
  split
  · rw [List.all_cons, List.all_map, Bool.and_eq_true]
    refine ⟨box, List.all_eq_true.2 fun rc mem => ?_⟩
    obtain ⟨hrow, hcol⟩ := paintedCells_bounds mem
    exact windowOk_cell box hrow hcol
  · rfl

/-- Settles O40: FORWARD is the text itself, REVERSED its reverse. -/
theorem slotShowsItsCharacter : Obligations.SlotShowsItsCharacter :=
  fun _ => ⟨rfl, List.length_reverse, fun _ hi => ⟨rfl, List.getElem?_reverse hi⟩⟩

end Sys2Proof.Machine

/-!
PROOFS. O38, O39 and O41–O44, DCHAR, DSTR and DBGSET on an idle DSQ (R97–R101). A drawing operation is the lines of some
blocks that fit, then lines that issue nothing and end the operation: none (OK), or the window of a cell that does not fit
(ERR_RANGE). What such an operation does is proved once, for any blocks and any end.
-/
namespace Sys2Proof.Machine

/-! ### Lines that issue nothing and end the operation -/

/-- From any state the lines end the operation with `e` and change nothing else. -/
def Dsq.EndsWith (c : Config) (lines : List DAct) (e : Status) : Prop := ∀ d, Dsq.go c lines d = d.ended e

theorem Dsq.endsWith_nil (c : Config) : Dsq.EndsWith c [] .ok := fun _ => rfl

/-- A character whose box does not fit ends the operation before any transaction (R88, R97). -/
theorem Dsq.endsWith_doChar_misfit (c : Config) (bg : Colour) {x y : Nat} {cp : Byte} {scale : Nat} (fg : Colour)
    (rest : List DAct) (drawn : cp.toNat ≤ 127) (misfit : windowOk x y (8 * scale) (8 * scale) = false) :
    Dsq.EndsWith c (doChar c bg x y cp scale fg ++ rest) .errRange := fun d => by
  simp only [doChar, drawn, if_true, List.append_assoc]
  exact raises_doWin_range misfit d _

/-! ### Accepting an operation leaves no mark on its end -/

theorem Dsq.ended_afterBlocks_busy (e : Status) (bs : List Block) (d : Dsq) :
    ({ d with busy := true }.afterBlocks bs).ended e = (d.afterBlocks bs).ended e := by
  unfold Dsq.afterBlocks
  cases bs.getLast? <;> rfl

theorem Dsq.drewUntilFailure_busy (c : Config) (drawn : List (Block × List DispItem)) (k draws : Nat)
    (as : List DispAnswer) (d : Dsq) :
    { d with busy := true }.drewUntilFailure c drawn k draws as = d.drewUntilFailure c drawn k draws as := by
  unfold Dsq.drewUntilFailure Dsq.afterBlocks
  cases (windowsOpened k drawn).getLast? <;> rfl

theorem Dsq.drewUntilFailure_groupDraws (c : Config) (drawn : List (Block × List DispItem)) (k draws : Nat)
    (as : List DispAnswer) (d : Dsq) : (d.drewUntilFailure c drawn k draws as).groupDraws = draws := by
  unfold Dsq.drewUntilFailure Dsq.afterBlocks
  cases (windowsOpened k drawn).getLast? <;> rfl

/-! ### A drawing as a whole operation -/

section
variable {c : Config} {blocks : List Block} {tail : List DAct} {e : Status} {d : Dsq}
variable (fits : blocks.all Block.fits = true)
include fits

/-- Under PER_PIXEL, every transaction answered OK. -/
theorem Dsq.start_blocks_perPixel {as : List DispAnswer} (last : Dsq.EndsWith c tail e)
    (fr : c.fillFraming = .perPixel)
    (ans : d.answers = List.replicate (transactions (blocksItems c blocks)) .ok ++ as) :
    d.start c (blocks.flatMap (Block.lines c) ++ tail) =
      ((d.traffic (blocksItems c blocks) as).afterBlocks blocks).ended e := by
  rw [start, completes_blocks (d := { d with busy := true }) fr fits ans, last]
  exact ended_afterBlocks_busy e blocks (d.traffic _ as)

/-- In any framing the traffic is fixed before the first answer (R63): with an OK answer for each of its transactions the
blocks are drawn and the operation ends as its last lines say; it ends with ERR_DBUS at the first that fails. -/
theorem Dsq.start_blocks (last : Dsq.EndsWith c tail e) :
    ∃ (drawn : List (Block × List DispItem)) (draws : Nat), isDrawing c blocks drawn ∧
      (∀ as, d.answers = List.replicate (transactions (drawnItems c drawn)) .ok ++ as →
        d.start c (blocks.flatMap (Block.lines c) ++ tail) = (d.drew c drawn draws as).ended e) ∧
      ∀ k < transactions (drawnItems c drawn), ∀ as, d.answers = List.replicate k .ok ++ .fail :: as → ∃ draws,
        d.start c (blocks.flatMap (Block.lines c) ++ tail) = d.drewUntilFailure c drawn k draws as := by
  obtain ⟨drawn, draws, drawing, run⟩ := blocks_run (c := c) fits d.groupDraws
  obtain ⟨completes, fails⟩ := run { d with busy := true } rfl
  refine ⟨drawn, draws, drawing, fun as ans => ?_, fun k hk as ans => ?_⟩
  · rw [start, completes as ans, last]
    exact ended_afterBlocks_busy e _ ({ d with groupDraws := draws }.traffic _ as)
  · obtain ⟨draws, d', raises, failed⟩ := fails k hk as ans
    exact ⟨draws, by rw [start, raises, raise_errDbus, failed, drewUntilFailure_busy]⟩

/-- With an OK answer for each pixel and each window transaction there are answers enough in any framing. -/
theorem Dsq.start_blocks_ok {n : Nat} (last : Dsq.EndsWith c tail e)
    (enough : transactions (blocksItems c blocks) ≤ n) (ans : d.answers = List.replicate n .ok) :
    ∃ (drawn : List (Block × List DispItem)) (draws : Nat), isDrawing c blocks drawn ∧
      d.start c (blocks.flatMap (Block.lines c) ++ tail) =
        (d.drew c drawn draws (List.replicate (n - transactions (drawnItems c drawn)) .ok)).ended e := by
  obtain ⟨drawn, draws, drawing, completes, -⟩ := start_blocks (d := d) fits last
  have fewer := (transactions_of_isDrawing drawing).trans enough
  rw [← Nat.add_sub_of_le fewer, List.replicate_add] at ans
  exact ⟨drawn, draws, drawing, completes _ ans⟩

/-- With `k` OK answers and then FAIL, the drawing is done with them or stops at its transaction `k + 1`. -/
theorem Dsq.start_blocks_fail {k : Nat} {rest : List DispAnswer} (last : Dsq.EndsWith c tail e)
    (ans : d.answers = List.replicate k .ok ++ .fail :: rest) :
    ∃ (drawn : List (Block × List DispItem)) (draws : Nat), isDrawing c blocks drawn ∧
      ((transactions (drawnItems c drawn) ≤ k ∧ d.start c (blocks.flatMap (Block.lines c) ++ tail) =
        (d.drew c drawn draws (List.replicate (k - transactions (drawnItems c drawn)) DispAnswer.ok ++
          DispAnswer.fail :: rest)).ended e) ∨
       (k < transactions (drawnItems c drawn) ∧ d.start c (blocks.flatMap (Block.lines c) ++ tail) =
        d.drewUntilFailure c drawn k draws rest)) := by
  obtain ⟨drawn, draws, drawing, completes, fails⟩ := start_blocks (d := d) fits last
  obtain short | enough := Nat.lt_or_ge k (transactions (drawnItems c drawn))
  · obtain ⟨draws, failed⟩ := fails k short rest ans
    exact ⟨drawn, draws, drawing, .inr ⟨short, failed⟩⟩
  · rw [← Nat.add_sub_of_le enough, List.replicate_add, List.append_assoc] at ans
    exact ⟨drawn, draws, drawing, .inl ⟨enough, completes _ ans⟩⟩

/-- Under PER_PIXEL, failing at transaction `k + 1`. The drawing is the one of `start_blocks`; no group size is drawn. -/
theorem Dsq.start_blocks_perPixel_fail {k : Nat} {as : List DispAnswer} (last : Dsq.EndsWith c tail e)
    (fr : c.fillFraming = .perPixel) (hk : k < transactions (blocksItems c blocks))
    (ans : d.answers = List.replicate k .ok ++ .fail :: as) :
    d.start c (blocks.flatMap (Block.lines c) ++ tail) =
      ((d.traffic (failAfter k (blocksItems c blocks)) as).afterBlocks (windowsOpened k
        (blocks.map fun b => (b, fillItems (b.side * b.side) b.colour)))).endedFailed := by
  obtain ⟨drawn, -, drawing, -, fails⟩ := start_blocks (d := d) fits last
  obtain rfl := isDrawing_perPixel fr drawing
  rw [drawnItems_perPixel] at fails
  obtain ⟨draws, failed⟩ := fails k hk as ans
  obtain ⟨d', raises, -, -, -, -, kept⟩ := raises_blocks (d := { d with busy := true }) fr fits hk ans
  have same : draws = d.groupDraws := by
    rw [← drewUntilFailure_groupDraws c _ k draws as d, ← failed, start, raises, raise_errDbus]
    exact kept
  rw [failed, same, drewUntilFailure, drawnItems_perPixel]

end

/-- What a request of DSQ leaves behind is what it leaves of DSQ. -/
theorem State.next_withDsq_inj {s : State} {d d' : Dsq} :
    (.next { s with dsq := d } : Host.Outcome State Fault Refusal) = .next { s with dsq := d' } ↔ d = d' :=
  ⟨fun h => congrArg State.dsq (Host.Outcome.next.inj h), fun h => by rw [h]⟩

/-! ### DCHAR (R97, R98) -/

/-- DCHAR of a character whose box fits: its blocks, then no line. -/
theorem exec_dchar_blocks {s : State} {x y : Half} {cp scale r g b : Byte} {blocks : List Block}
    (idle : s.dsq.busy = false)
    (hb : blocks = charBlocks s.cfg s.dsq.bgColor x.toNat y.toNat cp scale.toNat (rgb r g b)) :
    exec (.dchar x y cp scale r g b) s =
      .next { s with dsq := s.dsq.start s.cfg (blocks.flatMap (Block.lines s.cfg) ++ []) } := by
  rw [exec_dchar_idle x y cp scale r g b idle, doChar_eq_blocks, hb, List.append_nil]

/-- Settles O39: no line for a codepoint above 127, a rejected window for a box that does not fit. -/
theorem dcharIssuesNothing : Obligations.DcharIssuesNothing := by
  intro s x y cp scale r g b idle
  rw [exec_dchar_idle x y cp scale r g b idle]
  refine ⟨fun above => ?_, fun drawn misfit => ?_⟩
  · rw [doChar, if_neg (Nat.not_le.2 above)]
    rfl
  · have last := Dsq.endsWith_doChar_misfit s.cfg s.dsq.bgColor (rgb r g b) [] drawn misfit
    rw [List.append_nil] at last
    rw [Dsq.start, last]
    rfl

/-- Settles O38: all the blocks of a box that fits are drawn, and no line is left. -/
theorem dcharDrawsBoxThenBlocks : Obligations.DcharDrawsBoxThenBlocks := by
  intro s x y cp scale r g b blocks idle box hb
  have fits : blocks.all Block.fits = true := hb ▸ blocksFitWhenBoxFits _ _ _ _ _ _ cp box
  have last := Dsq.endsWith_nil s.cfg
  simp only [exec_dchar_blocks idle hb, State.next_withDsq_inj]
  exact ⟨fun _ fr ans => Dsq.start_blocks_perPixel fits last fr ans,
    fun _ enough ans => Dsq.start_blocks_ok fits last enough ans⟩

/-! ### DSTR (R99, R100) -/

/-- The blocks of these characters in the slots from slot 0 upward (R99). -/
def slotBlocks (c : Config) (bg : Colour) (x y scale : Nat) (fg : Colour) (chars : List Byte) : List Block :=
  chars.zipIdx.flatMap fun ki => charBlocks c bg (x + ki.2 * 8 * scale) y ki.1 scale fg

theorem stringBlocks_eq_slotBlocks (c : Config) (bg : Colour) (x y scale : Nat) (fg : Colour) (text : List Byte) :
    stringBlocks c bg x y scale fg text = slotBlocks c bg x y scale fg (slotChars c.stringOrder text) := rfl

/-- The lines of these characters in the slots from slot `n` upward (R100). -/
def slotLines (c : Config) (bg : Colour) (x y scale : Nat) (fg : Colour) (n : Nat) (chars : List Byte) : List DAct :=
  (chars.zipIdx n).flatMap fun ki => doChar c bg (x + ki.2 * 8 * scale) y ki.1 scale fg

/-- DSTR cut between two slots: the blocks of the slots before, then the lines of the slots after. -/
theorem dstrLines_of_append (c : Config) (bg : Colour) (x y scale : Nat) (fg : Colour) {text before after : List Byte}
    (cut : slotChars c.stringOrder text = before ++ after) :
    dstrLines c bg x y scale fg text =
      (slotBlocks c bg x y scale fg before).flatMap (Block.lines c) ++
        slotLines c bg x y scale fg before.length after := by
  simp only [dstrLines, slotBlocks, slotLines, cut, List.zipIdx_append, Nat.zero_add, List.flatMap_append,
    List.flatMap_assoc, doChar_eq_blocks]

/-- The slots from `n` upward end DSTR at once: there is none (OK), or the first shows a character up to 127 in a cell that
does not fit (ERR_RANGE). -/
abbrev SlotsEnd (x y scale n : Nat) (chars : List Byte) (e : Status) : Prop :=
  (chars = [] ∧ e = .ok) ∨ ((∃ cp later, chars = cp :: later ∧ cp.toNat ≤ 127) ∧ e = .errRange ∧
    windowOk (x + n * 8 * scale) y (8 * scale) (8 * scale) = false)

theorem Dsq.endsWith_slotLines (c : Config) (bg : Colour) {x y scale n : Nat} (fg : Colour) {chars : List Byte}
    {e : Status} (stop : SlotsEnd x y scale n chars e) :
    Dsq.EndsWith c (slotLines c bg x y scale fg n chars) e := by
  obtain ⟨rfl, rfl⟩ | ⟨⟨cp, later, rfl, drawn⟩, rfl, misfit⟩ := stop
  · exact endsWith_nil c
  · exact endsWith_doChar_misfit c bg fg _ drawn misfit

/-- DSTR cut where its slots end: the blocks of the slots before, then lines that end it. -/
theorem exec_dstr_blocks {s : State} {x y : Half} {scale r g b : Byte} {text before after : List Byte}
    {blocks : List Block} {e : Status} (idle : s.dsq.busy = false)
    (wf : (Instr.dstr x y scale r g b text).wellFormed s.cfg = true)
    (cut : slotChars s.cfg.stringOrder text = before ++ after)
    (hb : blocks = slotBlocks s.cfg s.dsq.bgColor x.toNat y.toNat scale.toNat (rgb r g b) before)
    (stop : SlotsEnd x.toNat y.toNat scale.toNat before.length after e) :
    ∃ tail, Dsq.EndsWith s.cfg tail e ∧ exec (.dstr x y scale r g b text) s =
      .next { s with dsq := s.dsq.start s.cfg (blocks.flatMap (Block.lines s.cfg) ++ tail) } :=
  ⟨_, Dsq.endsWith_slotLines s.cfg s.dsq.bgColor (rgb r g b) stop,
    by rw [exec_dstr_idle wf idle, dstrLines_of_append _ _ _ _ _ _ cut, hb]⟩

/-- What O41 and O42 have in common: DSTR with answers enough draws the slots before its end, and ends as it says. -/
theorem exec_dstr_draws {s : State} {x y : Half} {scale r g b : Byte} {text before after : List Byte}
    {blocks : List Block} {e : Status} (idle : s.dsq.busy = false)
    (wf : (Instr.dstr x y scale r g b text).wellFormed s.cfg = true)
    (cut : slotChars s.cfg.stringOrder text = before ++ after)
    (hb : blocks = slotBlocks s.cfg s.dsq.bgColor x.toNat y.toNat scale.toNat (rgb r g b) before)
    (fits : blocks.all Block.fits = true) (stop : SlotsEnd x.toNat y.toNat scale.toNat before.length after e) :
    (∀ rest : List DispAnswer, s.cfg.fillFraming = .perPixel →
      s.dsq.answers = List.replicate (transactions (blocksItems s.cfg blocks)) .ok ++ rest →
      exec (.dstr x y scale r g b text) s = .next { s with
        dsq := ((s.dsq.traffic (blocksItems s.cfg blocks) rest).afterBlocks blocks).ended e }) ∧
    ∀ n : Nat, transactions (blocksItems s.cfg blocks) ≤ n → s.dsq.answers = List.replicate n .ok →
      ∃ (drawn : List (Block × List DispItem)) (draws : Nat), isDrawing s.cfg blocks drawn ∧
        exec (.dstr x y scale r g b text) s = .next { s with
          dsq := (s.dsq.drew s.cfg drawn draws
            (List.replicate (n - transactions (drawnItems s.cfg drawn)) .ok)).ended e } := by
  obtain ⟨tail, last, lines⟩ := exec_dstr_blocks idle wf cut hb stop
  simp only [lines, State.next_withDsq_inj]
  exact ⟨fun _ fr ans => Dsq.start_blocks_perPixel fits last fr ans,
    fun _ enough ans => Dsq.start_blocks_ok fits last enough ans⟩

/-- Settles O41: no slot is left after the slots of the whole text. -/
theorem dstrDrawsEverySlot : Obligations.DstrDrawsEverySlot := by
  intro s x y scale r g b text blocks idle wf hb fits
  rw [stringBlocks_eq_slotBlocks] at hb
  exact exec_dstr_draws idle wf (List.append_nil _).symm hb fits (.inl ⟨rfl, rfl⟩)

/-- Settles O42: the slots end at the first that does not fit. -/
theorem dstrStopsAtFirstSlotOutOfRange : Obligations.DstrStopsAtFirstSlotOutOfRange := by
  intro s x y scale r g b text before after cp blocks idle wf cut hb fits drawn misfit
  exact exec_dstr_draws idle wf cut hb fits (.inr ⟨⟨cp, after, rfl, drawn⟩, rfl, misfit⟩)

/-! ### Failures, and DBGSET -/

/-- Settles O43: the failing transaction is one of the blocks', or the drawing is done before it. -/
theorem dcharStopsAtFirstFailure : Obligations.DcharStopsAtFirstFailure := by
  refine ⟨fun s x y cp scale r g b blocks k rest idle box hb ans => ?_,
    fun s x y scale r g b text before after blocks e k rest idle wf cut hb fits stop ans => ?_⟩
  · have fits : blocks.all Block.fits = true := hb ▸ blocksFitWhenBoxFits _ _ _ _ _ _ cp box
    have last := Dsq.endsWith_nil s.cfg
    simp only [exec_dchar_blocks idle hb, State.next_withDsq_inj]
    exact ⟨fun fr hk => Dsq.start_blocks_perPixel_fail fits last fr hk ans, Dsq.start_blocks_fail fits last ans⟩
  · obtain ⟨tail, last, lines⟩ := exec_dstr_blocks idle wf cut hb stop
    simp only [lines, State.next_withDsq_inj]
    exact Dsq.start_blocks_fail fits last ans

/-- Settles O44: its one line writes BG_COLOR. -/
theorem dbgsetWritesBackground : Obligations.DbgsetWritesBackground := by
  intro s r g b idle
  rw [exec_dbgset_idle r g b idle, Dsq.start, Dsq.go_done rfl, Dsq.go_nil, Dsq.finish_eq_ended]
  rfl

end Sys2Proof.Machine

/-!
PROOFS. O45–O49, the RfidLink operations on an idle TPC (R102–R107). Accepting an operation and ending it are described
once; the two-phase read serves RREAD and RPRES, acknowledged writes are any pairs, probes any addresses and answers.
-/
namespace Sys2Proof.Machine

/-! ### Accepting an operation, and its end -/

/-- What a request of TPC leaves behind is what it leaves of TPC. -/
theorem State.next_withTpc_inj {s : State} {t t' : Tpc} :
    (.next { s with tpc := t } : Host.Outcome State Fault Refusal) = .next { s with tpc := t' } ↔ t = t' :=
  ⟨fun h => congrArg State.tpc (Host.Outcome.next.inj h), fun h => by rw [h]⟩

/-- The values of an operation whose response is laid out like this and whose register value is `value`. -/
def TpcWork.holding (result : TpcResult) (value : Byte) : TpcWork :=
  { TpcWork.idle with result := result, value := value }

/-- TPC right after accepting an operation (R22). -/
def Tpc.accept (result : TpcResult) (t : Tpc) : Tpc := { t with busy := true, work := TpcWork.holding result 0x00#8 }

theorem Tpc.start_eq_go_accept (c : Config) (result : TpcResult) (lines : List TAct) (t : Tpc) :
    t.start c result lines = Tpc.go c lines (t.accept result) := rfl

/-- An accepted operation with its traffic ends as the rules say: only the values it holds enter its end. -/
theorem Tpc.finish_accept_traffic {e : Status} {result : TpcResult} {v : Byte} {res : List Byte}
    (shown : (TpcWork.holding result v).response e = e.code :: res) (items : List TagItem) (ws : List WriteAnswer)
    (rs : List ReadAnswer) (t : Tpc) :
    { (t.accept result).traffic items ws rs with work := TpcWork.holding result v }.finish e =
      (t.traffic items ws rs).ended e res := by
  rw [finish, shown]
  rfl

section
variable {c : Config} {result : TpcResult} {a : DevAddr} {reg : Byte} {bytes res : List Byte} {stop : Bool} {t : Tpc}
variable {ws : List WriteAnswer} {rs : List ReadAnswer} {rest : List TAct}

/-- An operation whose first write is acknowledged goes on. -/
theorem Tpc.start_write_ack (hw : t.writeAnswers = .ack :: ws) :
    t.start c result (.write a bytes stop :: rest) =
      Tpc.go c rest ((t.accept result).traffic [.write a bytes stop .ack] ws t.readAnswers) :=
  go_done (act_write_ack (t := t.accept result) c a bytes stop hw)

/-- An operation whose first write is not acknowledged ends there. -/
theorem Tpc.start_write_nack (hw : t.writeAnswers = .nack :: ws)
    (shown : (TpcWork.holding result 0x00#8).response .errRbus = Status.errRbus.code :: res) :
    t.start c result (.write a bytes stop :: rest) =
      (t.traffic [.write a bytes stop .nack] ws t.readAnswers).ended .errRbus res :=
  (go_raise (act_write_nack (t := t.accept result) c a bytes stop hw)).trans (finish_accept_traffic shown ..)

/-! ### The two-phase register read (R102) -/

/-- Both phases answered: the operation ends OK with the byte read as its value. -/
theorem Tpc.start_doRread_ok {v : Byte} (hw : t.writeAnswers = .ack :: ws) (hr : t.readAnswers = .ok [v] :: rs)
    (shown : (TpcWork.holding result v).response .ok = Status.ok.code :: res) :
    t.start c result (doRread a reg) =
      (t.traffic [.write a [reg] false .ack, .read a 1 (.ok [v])] ws rs).ended .ok res := by
  have read := act_readReg_ok (t := (t.accept result).traffic [.write a [reg] false .ack] ws t.readAnswers) c a hr
  rw [doRread, start_write_ack hw, go_done read, traffic_traffic]
  exact finish_accept_traffic shown ..

/-- A read that fails and a read of no byte raise the same error. -/
theorem Tpc.act_readReg_noByte {answer : ReadAnswer} (noByte : answer ∈ [ReadAnswer.fail, ReadAnswer.ok []])
    (hr : t.readAnswers = answer :: rs) :
    t.act c (.readReg a) = .raise .errRbus (t.traffic [.read a 1 answer] t.writeAnswers rs) := by
  obtain rfl | rfl : answer = .fail ∨ answer = .ok [] := by simpa using noByte
  · exact act_readReg_fail c a hr
  · exact act_readReg_empty c a hr

/-- Acknowledged, but no byte read: both transactions, and ERR_RBUS. -/
theorem Tpc.start_doRread_noByte {answer : ReadAnswer} (noByte : answer ∈ [ReadAnswer.fail, ReadAnswer.ok []])
    (hw : t.writeAnswers = .ack :: ws) (hr : t.readAnswers = answer :: rs)
    (shown : (TpcWork.holding result 0x00#8).response .errRbus = Status.errRbus.code :: res) :
    t.start c result (doRread a reg) =
      (t.traffic [.write a [reg] false .ack, .read a 1 answer] ws rs).ended .errRbus res := by
  have read := act_readReg_noByte (c := c) (a := a)
    (t := (t.accept result).traffic [.write a [reg] false .ack] ws t.readAnswers) noByte hr
  rw [doRread, start_write_ack hw, go_raise read, traffic_traffic]
  exact finish_accept_traffic shown ..

end

/-! ### RREAD, RWRITE and RPRES (R103, R104, R106) -/

/-- Settles O45: the response shows the value read, or 0x00 after an error. -/
theorem rreadReturnsRegister : Obligations.RreadReturnsRegister := by
  intro s a reg ws rs idle
  simp only [exec_rread_idle a reg idle, State.next_withTpc_inj]
  exact ⟨fun _ hw hr => Tpc.start_doRread_ok hw hr rfl, fun hw => Tpc.start_write_nack hw rfl,
    fun hw hr => Tpc.start_doRread_noByte (by decide) hw hr rfl,
    fun hw hr => Tpc.start_doRread_noByte (by decide) hw hr rfl⟩

/-- Settles O46: its one line is done on ACK and raises ERR_RBUS on NACK. -/
theorem rwriteSendsOneTransaction : Obligations.RwriteSendsOneTransaction := by
  intro s a reg val ws idle
  simp only [exec_rwrite_idle a reg val idle, State.next_withTpc_inj]
  exact ⟨fun hw => (Tpc.start_write_ack hw).trans (Tpc.finish_accept_traffic rfl ..),
    fun hw => Tpc.start_write_nack hw rfl⟩

theorem and_one_eq_ite_getLsbD (v : Byte) : v &&& 0x01#8 = if v.getLsbD 0 then 0x01#8 else 0x00#8 := by
  rw [BitVec.and_one_eq_setWidth_ofBool_getLsbD]
  cases v.getLsbD 0 <;> rfl

/-- Settles O48: RPRES is RREAD's transactions with another response layout. -/
theorem rpresReturnsPresenceBit : Obligations.RpresReturnsPresenceBit := by
  intro s ws rs idle
  simp only [exec_rpres_idle idle, State.next_withTpc_inj, ← and_one_eq_ite_getLsbD]
  exact ⟨fun _ hw hr => Tpc.start_doRread_ok hw hr rfl, fun hw => Tpc.start_write_nack hw rfl,
    fun _ noByte hw hr => Tpc.start_doRread_noByte noByte hw hr rfl⟩

/-! ### RINIT (R107) -/

/-- Acknowledged writes of register and value, whatever lines come after them. -/
theorem Tpc.go_writes_ack (c : Config) (a : DevAddr) (rest : List TAct) {pairs : List (Byte × Byte)}
    {ws : List WriteAnswer} {t : Tpc} (ans : t.writeAnswers = List.replicate pairs.length .ack ++ ws) :
    Tpc.go c (pairs.map (fun rv => .write a [rv.1, rv.2] true) ++ rest) t =
      Tpc.go c rest (t.traffic (pairs.map fun rv => .write a [rv.1, rv.2] true .ack) ws t.readAnswers) := by
  induction pairs generalizing t with
  | nil =>
    obtain rfl : t.writeAnswers = ws := ans
    simp [traffic]
  | cons rv pairs ih =>
    rw [List.map_cons, List.cons_append, go_done (act_write_ack c a _ _ ans), ih rfl, traffic_traffic]
    rfl

/-- Settles O49: the acknowledged writes are done, then no line is left or the next write raises ERR_RBUS. -/
theorem rinitWritesSequence : Obligations.RinitWritesSequence := by
  intro s ws idle
  simp only [exec_rinit_idle idle, State.next_withTpc_inj, Tpc.start_eq_go_accept]
  refine ⟨fun ans => ?_, fun done later rv split ans => ?_⟩
  · have run := Tpc.go_writes_ack s.cfg s.cfg.rfidAddr [] (t := s.tpc.accept .plain) ans
    rw [List.append_nil] at run
    exact run.trans (Tpc.finish_accept_traffic rfl ..)
  · rw [split, List.map_append, Tpc.go_writes_ack s.cfg _ _ (t := s.tpc.accept .plain) ans, List.map_cons,
      Tpc.go_raise (Tpc.act_write_nack _ _ _ _ rfl), Tpc.traffic_traffic]
    exact Tpc.finish_accept_traffic rfl ..

/-! ### RSCAN (R105) -/

/-- The scan vector after a probe of this address with this answer. -/
def markAck (v : BitVec 128) (probe : DevAddr × WriteAnswer) : BitVec 128 :=
  match probe.2 with
  | .ack => setAck v probe.1
  | .nack => v

/-- TPC after these probes with their answers. -/
def Tpc.probed (probes : List (DevAddr × WriteAnswer)) (ws : List WriteAnswer) (t : Tpc) : Tpc :=
  { t.traffic (probes.map fun p => .write p.1 [] true p.2) ws t.readAnswers with
    work := { t.work with acks := probes.foldl markAck t.work.acks } }

theorem Tpc.act_probe {t : Tpc} {answer : WriteAnswer} {ws : List WriteAnswer} (c : Config) (a : DevAddr)
    (h : t.writeAnswers = answer :: ws) : t.act c (.probe a) = .done (t.probed [(a, answer)] ws) := by
  cases answer <;> simp [act, twrite, h, probed, markAck, traffic]

/-- A scan goes on whatever the answers. -/
theorem Tpc.go_probes (c : Config) {probes : List (DevAddr × WriteAnswer)} {ws : List WriteAnswer} {t : Tpc}
    (ans : t.writeAnswers = probes.map Prod.snd ++ ws) :
    Tpc.go c ((probes.map Prod.fst).map .probe) t = Tpc.go c [] (t.probed probes ws) := by
  induction probes generalizing t with
  | nil =>
    obtain rfl : t.writeAnswers = ws := ans
    simp [probed, traffic]
  | cons p probes ih =>
    rw [List.map_cons, List.map_cons, go_done (act_probe c p.1 ans), ih rfl]
    simp [probed, traffic]

theorem getLsbD_setAck (v : BitVec 128) (a : DevAddr) (i : Nat) :
    (setAck v a).getLsbD i = (v.getLsbD i || decide (a.toNat = i)) := by
  have bit : (1#128 <<< a.toNat).getLsbD i = decide (a.toNat = i) := by
    rw [← BitVec.twoPow_eq, BitVec.getLsbD_twoPow, decide_eq_true a.isLt, Bool.true_and]
  rw [setAck, BitVec.getLsbD_or, bit]

/-- The vector's bits are those set before and those of the addresses that acknowledged. -/
theorem getLsbD_foldl_markAck (probes : List (DevAddr × WriteAnswer)) (v : BitVec 128) (i : Nat) :
    (probes.foldl markAck v).getLsbD i = true ↔
      v.getLsbD i = true ∨ ∃ a : DevAddr, (a, .ack) ∈ probes ∧ a.toNat = i := by
  induction probes generalizing v with
  | nil => simp
  | cons p probes ih =>
    obtain ⟨a, answer⟩ := p
    rw [List.foldl_cons, ih]
    cases answer with
    | ack => simp [markAck, getLsbD_setAck, or_and_right, exists_or, or_assoc]
    | nack => simp [markAck]

/-- Bit `a mod 8` of byte `a div 8` is the address's bit (R67). -/
theorem getLsbD_scanBytes (v : BitVec 128) {a : Nat} (ha : a < 128) :
    ((scanBytes v).getD (a / 8) 0#8).getLsbD (a % 8) = v.getLsbD a := by
  have inside : a / 8 < 16 := by omega
  have low : a % 8 < 8 := Nat.mod_lt a (by decide)
  simp [scanBytes, inside, low, Nat.div_add_mod]

/-- The probes of a scan with these answers: the `k`-th is of address `k + 1` (R105). -/
def scanProbes (answers : List WriteAnswer) : List (DevAddr × WriteAnswer) :=
  answers.zipIdx.map fun ak => (BitVec.ofNat 7 (ak.2 + 1), ak.1)

theorem map_fst_scanProbes {answers : List WriteAnswer} (len : answers.length = 126) :
    (scanProbes answers).map Prod.fst = scanAddrs := by
  have indices : answers.zipIdx.map Prod.snd = List.range 126 := by
    rw [List.zipIdx_map_snd, len, List.range_eq_range']
  calc (scanProbes answers).map Prod.fst
    _ = (answers.zipIdx.map Prod.snd).map fun k => BitVec.ofNat 7 (k + 1) := by
      rw [scanProbes, List.map_map, List.map_map]
      rfl
    _ = scanAddrs := by simp only [indices, scanAddrs, scanFirst, scanLast, Nat.add_comm]

theorem map_snd_scanProbes (answers : List WriteAnswer) : (scanProbes answers).map Prod.snd = answers := by
  simp only [scanProbes, List.map_map]
  exact List.zipIdx_map_fst 0 answers

/-- The address `i` acknowledges where the answer to its probe is ACK; 0 and 127 have no probe. -/
theorem ack_mem_scanProbes_iff {answers : List WriteAnswer} (len : answers.length = 126) (i : Nat) :
    (∃ a : DevAddr, (a, .ack) ∈ scanProbes answers ∧ a.toNat = i) ↔ 1 ≤ i ∧ answers[i - 1]? = some .ack := by
  have addr {k : Nat} (hk : answers[k]? = some .ack) : (BitVec.ofNat 7 (k + 1)).toNat = k + 1 := by
    obtain ⟨inside, -⟩ := List.getElem?_eq_some_iff.1 hk
    exact Nat.mod_eq_of_lt (by omega)
  constructor
  · rintro ⟨a, mem, rfl⟩
    obtain ⟨⟨answer, k⟩, hk, same⟩ := List.mem_map.1 mem
    obtain ⟨rfl, rfl⟩ := Prod.mk.inj same
    have hk : answers[k]? = some .ack := List.mem_zipIdx_iff_getElem?.1 hk
    rw [addr hk]
    exact ⟨Nat.le_add_left 1 k, hk⟩
  · rintro ⟨one, hk⟩
    refine ⟨_, List.mem_map.2 ⟨(.ack, i - 1), List.mem_zipIdx_iff_getElem?.2 hk, rfl⟩, ?_⟩
    rw [addr hk, Nat.sub_add_cancel one]

/-- Settles O47: every probe is done whatever its answer, and the vector holds the addresses that acknowledged. -/
theorem rscanReportsEveryAddress : Obligations.RscanReportsEveryAddress := by
  intro s answers ws idle len ans
  simp only [exec_rscan_idle idle, State.next_withTpc_inj]
  refine ⟨scanBytes ((scanProbes answers).foldl markAck 0), ?_, by simp [scanBytes], fun a ha => ?_⟩
  · have given : (s.tpc.accept .scan).writeAnswers = (scanProbes answers).map Prod.snd ++ ws := by
      rw [map_snd_scanProbes]
      exact ans
    have items : (scanProbes answers).map (fun p => TagItem.write p.1 [] true p.2) =
        answers.zipIdx.map fun ak => .write (BitVec.ofNat 7 (ak.2 + 1)) [] true ak.1 := List.map_map
    rw [← map_fst_scanProbes len, Tpc.start_eq_go_accept, Tpc.go_probes s.cfg given, ← items]
    rfl
  · rw [getLsbD_scanBytes _ ha, Bool.eq_iff_iff, getLsbD_foldl_markAck, ack_mem_scanProbes_iff len, decide_eq_true_iff,
      or_iff_right (by simp)]

end Sys2Proof.Machine

/-!
PROOFS. O50–O56, TagPoller (R108–R115). The hex digits, the decoded block and the de-duplication table are said once; a
poll then stores and reports what the de-duplication answers. Its transactions are one chain of the lines for every
TAG_BLOCK_REG: the register phase, the block, the clear.
-/
namespace Sys2Proof.Machine

/-! ### Hex digits and the tag block (R108–R110) -/

theorem hexdigit_toNat_of_le_nine {v : Nat} (h : v ≤ 9) : (hexdigit v).toNat = 0x30 + v := by
  simp only [hexdigit, h, if_true, BitVec.toNat_ofNat]
  omega

theorem hexdigit_toNat_of_ten_le {v : Nat} (ten : 10 ≤ v) (h : v ≤ 15) : (hexdigit v).toNat = 0x41 + (v - 10) := by
  have letter : ¬ v ≤ 9 := by omega
  simp only [hexdigit, letter, if_false, BitVec.toNat_ofNat]
  omega

/-- The digit is `'0'` plus the value, and 7 more for a letter. -/
theorem hexdigit_toNat {v : Nat} (h : v ≤ 15) : (hexdigit v).toNat = 0x30 + v + if v ≤ 9 then 0 else 7 := by
  split
  next digit => exact hexdigit_toNat_of_le_nine digit
  next letter =>
    rw [hexdigit_toNat_of_ten_le (by omega) h]
    omega

theorem hexdigit_inj {v w : Nat} (hv : v ≤ 15) (hw : w ≤ 15) (same : hexdigit v = hexdigit w) : v = w := by
  have codes := congrArg BitVec.toNat same
  rw [hexdigit_toNat hv, hexdigit_toNat hw] at codes
  split_ifs at codes <;> omega

@[simp] theorem hexBytes_nil : hexBytes [] = [] := rfl

@[simp] theorem hexBytes_cons (b : Byte) (bs : List Byte) :
    hexBytes (b :: bs) = hexdigit (b.toNat / 16) :: hexdigit (b.toNat % 16) :: hexBytes bs := by
  have high : (b.extractLsb' 4 4).toNat = b.toNat / 16 := by
    rw [BitVec.extractLsb'_toNat, Nat.shiftRight_eq_div_pow]
    omega
  have low : (b.extractLsb' 0 4).toNat = b.toNat % 16 := BitVec.extractLsb'_toNat ..
  rw [← high, ← low]
  rfl

theorem hexBytes_eq_flatMap (bs : List Byte) :
    hexBytes bs = bs.flatMap fun b => [hexdigit (b.toNat / 16), hexdigit (b.toNat % 16)] := by
  induction bs with
  | nil => rfl
  | cons b bs ih => simp [ih]

/-- Characters `2k` and `2k + 1` are the digits of byte `k`. -/
theorem getElem?_hexBytes {bs : List Byte} {k : Nat} (inside : k < bs.length) :
    (hexBytes bs)[2 * k]? = some (hexdigit ((bs.getD k 0#8).toNat / 16)) ∧
      (hexBytes bs)[2 * k + 1]? = some (hexdigit ((bs.getD k 0#8).toNat % 16)) := by
  induction bs generalizing k with
  | nil => simp at inside
  | cons b bs ih =>
    cases k with
    | zero => simp
    | succ k => simpa [Nat.mul_succ] using ih (Nat.lt_of_succ_lt_succ inside)

theorem hexBytes_injective : Function.Injective hexBytes := by
  intro a b same
  induction a generalizing b with
  | nil => cases b <;> simp at same ⊢
  | cons x xs ih =>
    cases b with
    | nil => simp at same
    | cons y ys =>
      simp only [hexBytes_cons, List.cons.injEq] at same
      obtain ⟨high, low, rest⟩ := same
      have quotient := hexdigit_inj (by omega) (by omega) high
      have remainder := hexdigit_inj (by omega) (by omega) low
      have : x = y := by
        apply BitVec.eq_of_toNat_eq
        omega
      rw [this, ih rest]

theorem decodeBlock_full {block : List Byte} (len : block.length = 10) :
    decodeBlock block =
      { tagId := hexBytes (block.take 6)
        timestamp := be32 (block.getD 6 0#8) (block.getD 7 0#8) (block.getD 8 0#8) (block.getD 9 0#8) } :=
  if_pos len

theorem decodeBlock_short {block : List Byte} (short : block.length < 10) :
    decodeBlock block = { tagId := [], timestamp := 0 } :=
  if_neg short.ne

/-- The id of a full block is a tag id (R110). -/
theorem isTagId_decodeBlock {block : List Byte} (len : block.length = 10) : isTagId (decodeBlock block).tagId := by
  rw [decodeBlock_full len]
  exact ⟨by simp [hexBytes_length, len], hexBytes_all_isHexDigit _⟩

theorem isTagId.ne_nil {id : List Byte} (h : isTagId id) : id ≠ [] := by
  rintro rfl
  exact absurd h.1 (by decide)

/-- Settles O54: the digits of a byte determine it, and the timestamp is the big-endian word of its four bytes. -/
theorem blockDecoding : Obligations.BlockDecoding := by
  refine ⟨fun _ => hexdigit_toNat_of_le_nine, fun _ => hexdigit_toNat_of_ten_le, fun block len => ?_,
    fun _ => decodeBlock_short, fun _ _ _ _ same => hexBytes_injective same⟩
  refine ⟨isTagId_decodeBlock len, fun k hk => ?_, ?_⟩
  · have byte : (block.take 6).getD k 0#8 = block.getD k 0#8 := by simp [hk]
    rw [decodeBlock_full len, ← byte]
    exact getElem?_hexBytes (by simp [len, hk])
  · rw [decodeBlock_full len]
    exact be32_toNat ..

/-! ### The de-duplication (R111, R115) -/

theorem dedup_new {last cand : List Byte} (policy : EmptyReadPolicy) (nonempty : cand ≠ []) (new : cand ≠ last) :
    dedup policy last cand = (cand, true) :=
  if_pos ⟨nonempty, new⟩

@[simp] theorem dedup_same (policy : EmptyReadPolicy) (last : List Byte) : dedup policy last last = (last, false) := by
  simp [dedup]

@[simp] theorem dedup_hold_nil (last : List Byte) : dedup .hold last [] = (last, false) := by
  simp [dedup]

@[simp] theorem dedup_clear_nil (last : List Byte) : dedup .clear last [] = ([], false) := by
  by_cases h : [] = last
  · simp [← h]
  · simp [dedup, h]

/-- Settles O55: its four rows. -/
theorem dedupTable : Obligations.DedupTable := by
  intro policy last cand
  refine ⟨dedup_new policy, ?_, ?_, ?_⟩
  · rintro rfl
    exact dedup_same policy cand
  · rintro rfl -
    exact dedup_hold_nil last
  · rintro rfl -
    exact dedup_clear_nil last

/-- Settles O56: a candidate emits exactly where it differs from the one before it. -/
theorem repeatedTagsEmitOnChange : Obligations.RepeatedTagsEmitOnChange := by
  intro policy a b ha hb ab
  simp [pollEmits, dedup_new policy ha ha, dedup_new policy hb ab.symm, dedup_new policy ha ab]

/-! ### What a poll stores and reports (R110, R111, R113) -/

/-- Storing what is stored changes nothing. -/
theorem Tpc.storeTag_tagString {t : Tpc} (legal : t.tagLegal) : t.storeTag t.tagString = t := by
  have len : (if t.tagString = [] then 0#4 else 12#4) = t.lastLen := by
    obtain ⟨len, -⟩ | ⟨len, tag⟩ := legal
    · simp [tagString, len]
    · simp [tagString, len, tag.ne_nil]
  have bytes : (if t.tagString = [] then List.replicate 12 0x00#8 else t.tagString) = t.lastTagId := by
    obtain ⟨len, bytes⟩ | ⟨len, tag⟩ := legal
    · simp [tagString, len, bytes]
    · simp [tagString, len, tag.ne_nil]
  rw [storeTag, len, bytes]

/-- The bytes of a timestamp are the block's last four. -/
theorem timestampBytes_be32 (a b c d : Byte) :
    [(be32 a b c d).extractLsb' 24 8, (be32 a b c d).extractLsb' 16 8, (be32 a b c d).extractLsb' 8 8,
      (be32 a b c d).extractLsb' 0 8] = [a, b, c, d] := by
  simp only [List.cons.injEq, and_true, ← BitVec.toNat_inj, BitVec.extractLsb'_toNat, be32_toNat,
    Nat.shiftRight_eq_div_pow]
  omega

theorem eventBytes_decodeBlock {block : List Byte} (len : block.length = 10) :
    eventBytes (some (decodeBlock block)) = 0x01#8 :: ((decodeBlock block).tagId ++ block.drop 6) := by
  have last : block.drop 6 = [block.getD 6 0#8, block.getD 7 0#8, block.getD 8 0#8, block.getD 9 0#8] := by
    match block, len with
    | [_, _, _, _, _, _, _, _, _, _], _ => rfl
  simp only [decodeBlock_full len, eventBytes, timestampBytes_be32, last]

section
variable {c : Config} {t : Tpc} {block : List Byte}

/-- A new id is stored, and reported with the block's timestamp bytes. -/
theorem Tpc.poll_new (len : block.length = 10) (new : (decodeBlock block).tagId ≠ t.tagString) :
    t.pollStored c block = { t with lastLen := 12#4, lastTagId := (decodeBlock block).tagId } ∧
      eventBytes (pollEvent c block t) = 0x01#8 :: ((decodeBlock block).tagId ++ block.drop 6) := by
  have nonempty := (isTagId_decodeBlock len).ne_nil
  rw [pollStored, pollEvent, dedup_new c.emptyReadPolicy nonempty new]
  exact ⟨by simp only [storeTag, nonempty, if_false], eventBytes_decodeBlock len⟩

/-- The stored id again is not reported and changes nothing. -/
theorem Tpc.poll_same (same : (decodeBlock block).tagId = t.tagString) :
    eventBytes (pollEvent c block t) = List.replicate 17 0x00#8 ∧ (t.tagLegal → t.pollStored c block = t) := by
  rw [pollStored, pollEvent, same, dedup_same]
  exact ⟨rfl, storeTag_tagString⟩

/-- A block without a tag is not reported; the policy says whether the stored tag stays. -/
theorem Tpc.poll_empty (empty : (decodeBlock block).tagId = []) :
    eventBytes (pollEvent c block t) = List.replicate 17 0x00#8 ∧
      (c.emptyReadPolicy = .hold → t.tagLegal → t.pollStored c block = t) ∧
      (c.emptyReadPolicy = .clear →
        t.pollStored c block = { t with lastLen := 0#4, lastTagId := List.replicate 12 0x00#8 }) := by
  rw [pollStored, pollEvent, empty]
  cases c.emptyReadPolicy with
  | hold =>
    rw [dedup_hold_nil]
    exact ⟨rfl, fun _ => storeTag_tagString, nofun⟩
  | clear =>
    rw [dedup_clear_nil]
    exact ⟨rfl, nofun, fun _ => rfl⟩

end

/-! ### The transactions of a poll (R112, R113) -/

/-- TPC in a poll whose block read returned these bytes: the tag stored, the candidate and its event held. -/
def Tpc.polled (c : Config) (block : List Byte) (t : Tpc) : Tpc :=
  { (t.pollStored c block).accept .poll with
    work := { TpcWork.holding .poll 0x00#8 with
      candidate := some (decodeBlock block), event := pollEvent c block t } }

/-- A poll whose block was read ends with its event whatever the status (R121). -/
theorem Tpc.finish_polled_traffic (c : Config) (block : List Byte) (e : Status) (items : List TagItem)
    (ws : List WriteAnswer) (rs : List ReadAnswer) (t : Tpc) :
    ((t.polled c block).traffic items ws rs).finish e =
      ((t.pollStored c block).traffic items ws rs).ended e (eventBytes (pollEvent c block t)) := rfl

section
variable {c : Config} {reg : Byte}

theorem registerPhase_of_none (h : c.tagBlockReg = none) : registerPhase c = [] := by
  simp only [registerPhase, h]

theorem registerPhase_of_some (h : c.tagBlockReg = some reg) :
    registerPhase c = [.write c.rfidAddr [reg] false .ack] := by
  simp only [registerPhase, h]

theorem rpollLines_of_none (h : c.tagBlockReg = none) : rpollLines c = .readBlock :: doClear c := by
  simp only [rpollLines, h, List.nil_append]

theorem rpollLines_of_some (h : c.tagBlockReg = some reg) :
    rpollLines c = .write c.rfidAddr [reg] false :: .readBlock :: doClear c := by
  simp only [rpollLines, h, List.cons_append, List.nil_append]

end

section
variable {c : Config} {t : Tpc} {ws : List WriteAnswer} {rs : List ReadAnswer} {block drained : List Byte}

/-- A poll comes to its block read when its register phase, if there is one, is acknowledged. -/
theorem Tpc.start_rpoll (hw : t.writeAnswers = List.replicate (registerPhase c).length WriteAnswer.ack ++ ws)
    (hr : t.readAnswers = rs) :
    t.start c .poll (rpollLines c) =
      Tpc.go c (.readBlock :: doClear c) ((t.accept .poll).traffic (registerPhase c) ws rs) := by
  subst hr
  cases h : c.tagBlockReg with
  | none =>
    rw [registerPhase_of_none h] at hw ⊢
    obtain rfl : t.writeAnswers = ws := hw
    rw [rpollLines_of_none h, start_eq_go_accept]
    simp only [traffic, accept, List.append_nil]
  | some reg =>
    rw [registerPhase_of_some h] at hw ⊢
    rw [rpollLines_of_some h]
    exact start_write_ack hw

/-- The block read failed: the poll ends there. -/
theorem Tpc.start_rpoll_readFail (hw : t.writeAnswers = List.replicate (registerPhase c).length WriteAnswer.ack ++ ws)
    (hr : t.readAnswers = .fail :: rs) :
    t.start c .poll (rpollLines c) =
      (t.traffic (registerPhase c ++ [TagItem.read c.rfidAddr 10 .fail]) ws rs).ended .errRbus
        (List.replicate 17 0x00#8) := by
  rw [start_rpoll hw hr, go_raise (act_readBlock_fail c rfl), traffic_traffic]
  exact finish_accept_traffic rfl ..

/-- The block arrived: the clear is left. -/
theorem Tpc.start_rpoll_block (len : block.length ≤ 10)
    (hw : t.writeAnswers = List.replicate (registerPhase c).length WriteAnswer.ack ++ ws)
    (hr : t.readAnswers = .ok block :: rs) :
    t.start c .poll (rpollLines c) =
      Tpc.go c (doClear c)
        ((t.polled c block).traffic (registerPhase c ++ [TagItem.read c.rfidAddr 10 (.ok block)]) ws rs) := by
  rw [start_rpoll hw hr, go_done (act_readBlock_ok c len rfl), traffic_traffic]
  rfl

/-- The clear's write is not acknowledged: no drain, and the event stands. -/
theorem Tpc.start_rpoll_clearNack (len : block.length ≤ 10)
    (hw : t.writeAnswers = List.replicate (registerPhase c).length WriteAnswer.ack ++ .nack :: ws)
    (hr : t.readAnswers = .ok block :: rs) :
    t.start c .poll (rpollLines c) =
      ((t.pollStored c block).traffic (registerPhase c ++ [TagItem.read c.rfidAddr 10 (.ok block),
        .write c.rfidAddr [c.clearReq] true .nack]) ws rs).ended .errRbus (eventBytes (pollEvent c block t)) := by
  rw [start_rpoll_block len hw hr, doClear, go_raise (act_write_nack c _ _ _ rfl), traffic_traffic, List.append_assoc]
  exact finish_polled_traffic ..

/-- The clear's write is acknowledged: the drain is left. -/
theorem Tpc.start_rpoll_clearAck (len : block.length ≤ 10)
    (hw : t.writeAnswers = List.replicate (registerPhase c).length WriteAnswer.ack ++ .ack :: ws)
    (hr : t.readAnswers = .ok block :: rs) :
    t.start c .poll (rpollLines c) =
      Tpc.go c [.drain] ((t.polled c block).traffic (registerPhase c ++ [TagItem.read c.rfidAddr 10 (.ok block),
        .write c.rfidAddr [c.clearReq] true .ack]) ws rs) := by
  rw [start_rpoll_block len hw hr, doClear, go_done (act_write_ack c _ _ _ rfl), traffic_traffic, List.append_assoc]
  rfl

/-- The drain failed: the event stands. -/
theorem Tpc.start_rpoll_drainFail (len : block.length ≤ 10)
    (hw : t.writeAnswers = List.replicate (registerPhase c).length WriteAnswer.ack ++ .ack :: ws)
    (hr : t.readAnswers = .ok block :: .fail :: rs) :
    t.start c .poll (rpollLines c) =
      ((t.pollStored c block).traffic (registerPhase c ++ [TagItem.read c.rfidAddr 10 (.ok block),
        .write c.rfidAddr [c.clearReq] true .ack, .read c.rfidAddr c.drainLen .fail]) ws rs).ended .errRbus
        (eventBytes (pollEvent c block t)) := by
  rw [start_rpoll_clearAck len hw hr, go_raise (act_drain_fail c rfl), traffic_traffic, List.append_assoc]
  exact finish_polled_traffic ..

/-- Everything answered: the poll ends with the status of its block. -/
theorem Tpc.start_rpoll_ok (len : block.length ≤ 10) (drainLen : drained.length ≤ c.drainLen)
    (hw : t.writeAnswers = List.replicate (registerPhase c).length WriteAnswer.ack ++ .ack :: ws)
    (hr : t.readAnswers = .ok block :: .ok drained :: rs) :
    t.start c .poll (rpollLines c) =
      ((t.pollStored c block).traffic (registerPhase c ++ [TagItem.read c.rfidAddr 10 (.ok block),
        .write c.rfidAddr [c.clearReq] true .ack, .read c.rfidAddr c.drainLen (.ok drained)]) ws rs).ended
        (pollStatus block) (eventBytes (pollEvent c block t)) := by
  rw [start_rpoll_clearAck len hw hr, go_done (act_drain_ok c drainLen rfl), traffic_traffic, List.append_assoc]
  exact finish_polled_traffic ..

end

/-! ### RPOLL (R113) -/

/-- Settles O52: the failing line is the block read. -/
theorem rpollBlockReadFailureChangesNothing : Obligations.RpollBlockReadFailureChangesNothing := by
  intro s ws rs idle hw hr
  rw [exec_rpoll_idle idle, Tpc.start_rpoll_readFail hw hr]

/-- Settles O53: the failing line is one of the two of the clear, after the block's. -/
theorem rpollClearFailureKeepsEvent : Obligations.RpollClearFailureKeepsEvent := by
  intro s ws rs block idle len
  simp only [exec_rpoll_idle idle, State.next_withTpc_inj]
  exact ⟨Tpc.start_rpoll_clearNack len, Tpc.start_rpoll_drainFail len⟩

/-- Settles O51: an acknowledged register phase leads to the block; a NACK ends the poll before it. -/
theorem rpollRegisterPhase : Obligations.RpollRegisterPhase := by
  intro s reg ws rs block drained idle phase len drainLen
  have acked := registerPhase_of_some phase
  simp only [exec_rpoll_idle idle, State.next_withTpc_inj]
  constructor
  · intro hw hr
    have run := Tpc.start_rpoll_ok (c := s.cfg) (ws := ws) len drainLen (by rw [acked]; exact hw) hr
    rwa [acked] at run
  · intro hw
    rw [rpollLines_of_some phase]
    exact Tpc.start_write_nack hw rfl

/-- Settles O50: the run with no register phase; then what the de-duplication answers for the block's candidate. -/
theorem rpollReadsStoresClears : Obligations.RpollReadsStoresClears := by
  constructor
  · intro s ws rs block drained idle phase len drainLen hw hr
    have skipped := registerPhase_of_none phase
    have run := Tpc.start_rpoll_ok (c := s.cfg) (ws := ws) len drainLen (by rw [skipped]; exact hw) hr
    rw [exec_rpoll_idle idle, run, skipped, List.nil_append]
  · intro c t block id hid
    refine ⟨fun empty => if_pos empty, fun full => if_neg (by simp [full]), fun len => ?_, fun short => ?_⟩
    · obtain rfl : (decodeBlock block).tagId = id := by rw [decodeBlock_full len, hid, hexBytes_eq_flatMap]
      exact ⟨if_neg (isTagId_decodeBlock len).ne_nil, Tpc.poll_new len, Tpc.poll_same⟩
    · have empty : (decodeBlock block).tagId = [] := by rw [decodeBlock_short short]
      exact ⟨if_pos empty, Tpc.poll_empty empty⟩

end Sys2Proof.Machine

/-!
PROOFS. O19 and O24, what running lines leaves of the traffic and of the responses (R10, R119): one induction per unit,
then every instruction and every step by its cases.
-/
namespace Sys2Proof.Machine

/-! ### DSQ: while an operation runs, and where it stops -/

/-- From `d` to `d'` an operation has run without an end: traffic was added, no response. -/
def Dsq.LineFrame (d d' : Dsq) : Prop :=
  d.trace <+: d'.trace ∧ d'.responses = d.responses ∧ d'.status = d.status ∧ d'.busy = d.busy

/-- The operation has ended: one response, which is what STATUS now holds (R67, R119). -/
def Dsq.AnsweredOnce (d d' : Dsq) : Prop :=
  d'.busy = false ∧ d'.run = [] ∧ d'.responses = d.responses ++ [[d'.status]]

/-- The operation has something left to do and has answered nothing (R30, R136). -/
def Dsq.StillWaits (d d' : Dsq) : Prop :=
  d'.busy = d.busy ∧ d'.run ≠ [] ∧ d'.responses = d.responses ∧ d'.status = d.status

/-- What running lines from `d` comes to. -/
def Dsq.RunsTo (d d' : Dsq) : Prop := d.trace <+: d'.trace ∧ (d.AnsweredOnce d' ∨ d.StillWaits d')

theorem Dsq.LineFrame.traffic {d d' : Dsq} (h : d.LineFrame d') (items : List DispItem) (as : List DispAnswer)
    (draws : Nat) : d.LineFrame { d' with trace := d'.trace ++ items, answers := as, groupDraws := draws } :=
  h.imp_left fun trace => trace.trans (List.prefix_append ..)

theorem Dsq.LineFrame.finish {d d' : Dsq} (h : d.LineFrame d') (e : Status) : d.RunsTo (d'.finish e) := by
  obtain ⟨trace, responses, -, -⟩ := h
  exact ⟨trace, .inl ⟨rfl, rfl, by rw [finish_responses, responses, finish_status]⟩⟩

theorem Dsq.LineFrame.raise {d d' : Dsq} (h : d.LineFrame d') (e : Status) : d.RunsTo (d'.raise e) :=
  LineFrame.finish (by simpa [LineFrame] using h) e

theorem Dsq.LineFrame.waits {d d' : Dsq} (h : d.LineFrame d') (line : DAct) (rest : List DAct) :
    d.RunsTo { d' with run := line :: rest } := by
  obtain ⟨trace, responses, status, busy⟩ := h
  exact ⟨trace, .inr ⟨busy, List.cons_ne_nil line rest, responses, status⟩⟩

theorem Dsq.LineFrame.keeps_transactLine {d d' : Dsq} (h : d.LineFrame d') (item : DispAnswer → DispItem) (line : DAct)
    (rest : List DAct) : Dsq.Keeps d.LineFrame d.RunsTo rest (d'.transactLine item line) := by
  unfold Dsq.transactLine Dsq.transact
  rcases d'.answers with _ | ⟨_ | _, as⟩
  · exact h.waits line rest
  · exact h.traffic _ as d'.groupDraws
  · exact (h.traffic _ as d'.groupDraws).raise .errDbus

theorem Dsq.LineFrame.keeps_sendPixels {d d' : Dsq} (h : d.LineFrame d') (f : FillFraming) (v : Colour)
    (as : List DispAnswer) (left : Nat) (rest : List DAct) :
    Dsq.Keeps d.LineFrame d.RunsTo rest (Dsq.sendPixels f v as left d') := by
  obtain ⟨items, as', draws, sent, -, -, result⟩ := Dsq.sendPixels_cases f v as left d'
  have framed := h.traffic items as' draws
  rcases result with ⟨e, -⟩ | ⟨e, -⟩ | ⟨e, -⟩ <;> rw [e]
  · exact framed
  · exact framed.raise .errDbus
  · exact framed.waits _ rest

/-- Every line adds traffic only, and where the operation stops it has answered once or not at all. -/
theorem Dsq.LineFrame.keeps_act {d d' : Dsq} (h : d.LineFrame d') (c : Config) (line : DAct) (rest : List DAct) :
    Dsq.Keeps d.LineFrame d.RunsTo rest (d'.act c line) := by
  cases line with
  | clearWinValid | setPanelOk | setBg | openWindow => exact h
  | reject e => exact h.raise e
  | needWindow =>
    simp only [Dsq.act]
    split
    · exact h
    · exact h.raise .errNoWindow
  | cmd b => exact h.keeps_transactLine ..
  | data s => exact h.keeps_transactLine ..
  | wait ms => exact h.traffic _ d'.answers d'.groupDraws
  | fill v => exact h.keeps_sendPixels ..
  | pixels left v => exact h.keeps_sendPixels ..
  | table p => exact h.waits _ rest

theorem Dsq.go_runsTo (c : Config) (lines : List DAct) (d : Dsq) : d.RunsTo (Dsq.go c lines d) :=
  Dsq.go_keeps (P := d.LineFrame) (fun _ h => h.finish .ok) (fun _ line rest _ _ h => h.keeps_act c line rest)
    ⟨List.prefix_rfl, rfl, rfl, rfl⟩

/-- An operation that has something left to do has answered nothing, so it may go on. -/
theorem Dsq.RunsTo.trans {d d' d'' : Dsq} (h : d.RunsTo d') (left : d'.run ≠ []) (next : d'.RunsTo d'') :
    d.RunsTo d'' := by
  obtain ⟨trace, ⟨-, done, -⟩ | ⟨busy, -, responses, status⟩⟩ := h
  · exact absurd done left
  · obtain ⟨trace', stops⟩ := next
    refine ⟨trace.trans trace', stops.imp ?_ ?_⟩
    · exact fun ⟨idle, run, answered⟩ => ⟨idle, run, by rw [answered, responses]⟩
    · exact fun ⟨busy', run, responses', status'⟩ =>
        ⟨busy'.trans busy, run, responses'.trans responses, status'.trans status⟩

/-- DINIT's loop is one operation with the lines before it (R87). -/
theorem Dsq.RunsTo.replay {d d' : Dsq} (h : d.RunsTo d') (c : Config) (fuel : Nat) :
    d.RunsTo (Dsq.replay c fuel d') := by
  have more {e : Dsq} {p : Nat} {rest : List DAct} (h : d.RunsTo e) (at_p : e.run = .table p :: rest)
      (lines : List DAct) : d.RunsTo (Dsq.go c lines e) :=
    h.trans (at_p ▸ List.cons_ne_nil _ rest) (e.go_runsTo c lines)
  exact Dsq.replay_keeps (fun _ _ _ _ _ _ _ h at_p _ => more h at_p _) (fun _ _ _ h at_p => more h at_p _) fuel h

/-! ### TPC: while an operation runs, and where it stops -/

/-- From `t` to `t'` an operation has run without an end: traffic was added, no response. -/
def Tpc.LineFrame (t t' : Tpc) : Prop :=
  t.trace <+: t'.trace ∧ t'.responses = t.responses ∧ t'.status = t.status ∧ t'.busy = t.busy

/-- The operation has ended: one response, whose first byte is what STATUS now holds (R67, R119). -/
def Tpc.AnsweredOnce (t t' : Tpc) : Prop :=
  t'.busy = false ∧ t'.run = [] ∧ ∃ results, t'.responses = t.responses ++ [t'.status :: results]

/-- The operation has something left to do and has answered nothing (R30, R136). -/
def Tpc.StillWaits (t t' : Tpc) : Prop :=
  t'.busy = t.busy ∧ t'.run ≠ [] ∧ t'.responses = t.responses ∧ t'.status = t.status

/-- What running lines from `t` comes to. -/
def Tpc.RunsTo (t t' : Tpc) : Prop := t.trace <+: t'.trace ∧ (t.AnsweredOnce t' ∨ t.StillWaits t')

theorem Tpc.LineFrame.finish {t t' : Tpc} (h : t.LineFrame t') (e : Status) : t.RunsTo (t'.finish e) := by
  obtain ⟨trace, responses, -, -⟩ := h
  exact ⟨trace, .inl ⟨rfl, rfl, _, by rw [finish_responses, responses]; rfl⟩⟩

theorem Tpc.LineFrame.waits {t t' : Tpc} (h : t.LineFrame t') (line : TAct) (rest : List TAct) :
    t.RunsTo { t' with run := line :: rest } := by
  obtain ⟨trace, responses, status, busy⟩ := h
  exact ⟨trace, .inr ⟨busy, List.cons_ne_nil line rest, responses, status⟩⟩

theorem Tpc.go_runsTo (c : Config) (lines : List TAct) (t : Tpc) : t.RunsTo (Tpc.go c lines t) :=
  Tpc.go_keeps (P := t.LineFrame) (fun _ h => h.finish _)
    (fun _ line rest _ _ h => Tpc.act_keeps
      (bus := fun _ _ _ _ _ h => h.imp_left fun trace => trace.trans (List.prefix_append ..))
      (values := fun _ _ _ h => h) (block := fun _ _ _ h => h) (waits := fun _ h => h.waits line rest)
      (fails := fun _ h => h.finish .errRbus) h)
    ⟨List.prefix_rfl, rfl, rfl, rfl⟩

/-! ### A request to an idle unit (R116, R119) -/

/-- A request DSQ performs is one operation of its lines, DINIT's loop included. -/
theorem exec_dsq_runsTo {i : Instr} {s t : State} (req : i.isRequest = true) (unit : i.unit = .dsq)
    (wf : i.wellFormed s.cfg = true) (idle : s.dsq.busy = false) (h : exec i s = .next t) :
    Dsq.RunsTo { s.dsq with busy := true } t.dsq := by
  cases exec_cases h with
  | display => exact Dsq.go_runsTo ..
  | bringUp => exact (Dsq.go_runsTo ..).replay ..
  | refused _ illFormed => rw [wf] at illFormed; cases illFormed
  | held _ _ busy => rw [unit, State.unitBusy, idle] at busy; cases busy
  | tag _ other => rw [unit] at other; cases other
  | entry eq | terminator eq => subst eq; cases req

/-- A request TPC performs is one operation of its lines. -/
theorem exec_tpc_runsTo {i : Instr} {s t : State} (req : i.isRequest = true) (unit : i.unit = .tpc)
    (wf : i.wellFormed s.cfg = true) (idle : s.tpc.busy = false) (h : exec i s = .next t) :
    Tpc.RunsTo { s.tpc with busy := true, work := { TpcWork.idle with result := tagResult i } } t.tpc := by
  cases exec_cases h with
  | tag => exact Tpc.go_runsTo ..
  | refused _ illFormed => rw [wf] at illFormed; cases illFormed
  | held _ _ busy => rw [unit, State.unitBusy, idle] at busy; cases busy
  | display _ other => rw [unit] at other; cases other
  | bringUp eq => subst eq; cases unit
  | entry eq | terminator eq => subst eq; cases req

/-- Settles O24: what one operation of each unit comes to, begun on the busy unit. -/
theorem displayRequestAnsweredOnce : Obligations.DisplayRequestAnsweredOnce :=
  ⟨fun _ _ _ req unit wf idle h => (exec_dsq_runsTo req unit wf idle h).2,
    fun _ _ _ req unit wf idle h => (exec_tpc_runsTo req unit wf idle h).2, rfl, rfl, rfl, rfl, rfl, rfl, rfl⟩

/-! ### Histories -/

/-- What DSQ's bus and requesters have seen is not taken back. -/
def Dsq.Extends (d d' : Dsq) : Prop := d.trace <+: d'.trace ∧ d.responses <+: d'.responses

/-- What TPC's bus and requesters have seen is not taken back. -/
def Tpc.Extends (t t' : Tpc) : Prop := t.trace <+: t'.trace ∧ t.responses <+: t'.responses

theorem Dsq.Extends.refl (d : Dsq) : d.Extends d := ⟨List.prefix_rfl, List.prefix_rfl⟩

theorem Tpc.Extends.refl (t : Tpc) : t.Extends t := ⟨List.prefix_rfl, List.prefix_rfl⟩

theorem Dsq.RunsTo.to_extends {d d' : Dsq} (h : d.RunsTo d') : d.Extends d' := by
  obtain ⟨trace, ⟨-, -, answered⟩ | ⟨-, -, same, -⟩⟩ := h
  · exact ⟨trace, answered ▸ List.prefix_append ..⟩
  · exact ⟨trace, same ▸ List.prefix_rfl⟩

theorem Tpc.RunsTo.to_extends {t t' : Tpc} (h : t.RunsTo t') : t.Extends t' := by
  obtain ⟨trace, ⟨-, -, _, answered⟩ | ⟨-, -, same, -⟩⟩ := h
  · exact ⟨trace, answered ▸ List.prefix_append ..⟩
  · exact ⟨trace, same ▸ List.prefix_rfl⟩

theorem Dsq.extends_resume (c : Config) (d : Dsq) : d.Extends (d.resume c) := by
  unfold Dsq.resume
  split
  · exact .refl d
  · exact (Dsq.go_runsTo ..).to_extends

theorem Tpc.extends_resume (c : Config) (t : Tpc) : t.Extends (t.resume c) := by
  unfold Tpc.resume
  split
  · exact .refl t
  · exact (Tpc.go_runsTo ..).to_extends

/-- What the machine has issued, answered and shown at the state port is not taken back. -/
def State.Extends (s t : State) : Prop :=
  s.dsq.Extends t.dsq ∧ s.tpc.Extends t.tpc ∧ s.portResponses <+: t.portResponses ∧ s.portReads <+: t.portReads

theorem State.Extends.of_dsq {s t : State} (h : s.dsq.Extends t.dsq) (tpc : t.tpc = s.tpc)
    (port : t.portResponses = s.portResponses) (reads : t.portReads = s.portReads) : s.Extends t :=
  ⟨h, tpc ▸ .refl _, port ▸ List.prefix_rfl, reads ▸ List.prefix_rfl⟩

theorem State.Extends.of_tpc {s t : State} (h : s.tpc.Extends t.tpc) (dsq : t.dsq = s.dsq)
    (port : t.portResponses = s.portResponses) (reads : t.portReads = s.portReads) : s.Extends t :=
  ⟨dsq ▸ .refl _, h, port ▸ List.prefix_rfl, reads ▸ List.prefix_rfl⟩

/-- No instruction takes a history back. -/
theorem exec_extends {i : Instr} {s t : State} (h : exec i s = .next t) : s.Extends t := by
  cases exec_cases h with
  | refused => exact ⟨.refl _, .refl _, List.prefix_append .., List.prefix_rfl⟩
  | held => exact .of_dsq (.refl _) rfl rfl rfl
  | display => exact .of_dsq (Dsq.go_runsTo s.cfg _ { s.dsq with busy := true }).to_extends rfl rfl rfl
  | bringUp => exact .of_dsq ((Dsq.go_runsTo s.cfg _ { s.dsq with busy := true }).replay s.cfg _).to_extends rfl rfl rfl
  | tag =>
    exact .of_tpc (Tpc.go_runsTo s.cfg _
      { s.tpc with busy := true, work := { TpcWork.idle with result := tagResult i } }).to_extends rfl rfl rfl
  | entry | terminator => exact .of_dsq (Dsq.go_runsTo ..).to_extends rfl rfl rfl

/-- No step takes a history back, power-on included. -/
theorem step_extends {s t : State} (h : step s = .next t) : s.Extends t := by
  cases step_cases h with
  | entry _ _ h | accepted _ _ h | request _ _ h =>
    have kept := exec_extends h
    exact kept
  | rejected => exact ⟨.refl _, .refl _, List.prefix_append .., List.prefix_rfl⟩
  | portRead => exact ⟨.refl _, .refl _, List.prefix_rfl, List.prefix_append ..⟩
  | dispAnswer rest a =>
    exact .of_dsq (Dsq.extends_resume s.cfg { s.dsq with answers := s.dsq.answers ++ [a] }) rfl rfl rfl
  | writeAnswer rest a =>
    exact .of_tpc (Tpc.extends_resume s.cfg { s.tpc with writeAnswers := s.tpc.writeAnswers ++ [a] }) rfl rfl rfl
  | readAnswer rest a =>
    exact .of_tpc (Tpc.extends_resume s.cfg { s.tpc with readAnswers := s.tpc.readAnswers ++ [a] }) rfl rfl rfl
  | powerOn | waits => exact ⟨.refl _, .refl _, List.prefix_rfl, List.prefix_rfl⟩

/-- Settles O19: the two histories of each unit, then the port's. -/
theorem stepExtendsHistory : Obligations.StepExtendsHistory := by
  intro s t h
  obtain ⟨⟨dispTrace, dispResponses⟩, ⟨tagTrace, tagResponses⟩, port, reads⟩ := step_extends h
  exact ⟨dispTrace, tagTrace, dispResponses, tagResponses, port, reads⟩

end Sys2Proof.Machine

/-!
PROOFS. O7, O8 and O12, what the step does with a request and without one (R123, R136–R138).
-/
namespace Sys2Proof.Machine

/-- A request that decodes is performed in the step that takes it (R137). -/
theorem step_request {s : State} {bytes : List Byte} {rest : List Input} {i : Instr} (ok : configOk s.cfg = true)
    (away : s.dsq.atTable = false) (none : s.eligible = []) (inputs : s.inputs = .request bytes :: rest)
    (dec : decodeRequest bytes = .ok i) : step s = exec i { s with inputs := rest } := by
  rw [step, State.fetch_input ok away (State.acceptHeld_eq_none none) inputs]
  simp only [State.receive, dec]

/-- Settles O7: the next input is the request, and it decodes. -/
theorem stepPerformsDecodedRequest : Obligations.StepPerformsDecodedRequest :=
  fun _ _ _ _ => step_request

/-- A request beyond the limits is refused, whatever its unit does (R68, R123). -/
theorem exec_illFormed {i : Instr} {s : State} (ok : configOk s.cfg = true) (req : i.isRequest = true)
    (illFormed : i.wellFormed s.cfg = false) : exec i s = .next s.refuse := by
  obtain ⟨perform, decides, -⟩ := exec_request i s req ok
  rw [decides, State.request_illFormed perform illFormed]

/-- Settles O8: the port refuses bytes that do not decode, and a request beyond the limits. -/
theorem refusedRequestChangesNothing : Obligations.RefusedRequestChangesNothing := by
  refine ⟨fun s bytes rest why ok away none inputs dec => ?_, fun i s => exec_illFormed⟩
  exact step_input ok away none inputs (by simp only [State.receive, dec]; rfl)

/-- Settles O12: with no input the fetch waits. -/
theorem stepWaitsWithoutInput : Obligations.StepWaitsWithoutInput := by
  intro s ok away none inputs
  rw [step, State.fetch_waits ok away (State.acceptHeld_eq_none none) inputs]

end Sys2Proof.Machine

/-!
PROOFS. O27, transactions the environment does not answer (R41, R136): each line that issues one pauses as it stands, so
the operation stops where it is.
-/
namespace Sys2Proof.Machine

/-! ### Lines of DSQ -/

section
variable {c : Config} {d : Dsq} {rest : List DAct}

theorem Dsq.go_cmd_none (unanswered : d.answers = []) (b : Byte) :
    Dsq.go c (.cmd b :: rest) d = { d with run := .cmd b :: rest } :=
  go_pause (act_cmd_none c b unanswered)

theorem Dsq.go_data_none (unanswered : d.answers = []) (bytes : List Byte) :
    Dsq.go c (.data bytes :: rest) d = { d with run := .data bytes :: rest } :=
  go_pause (act_data_none c bytes unanswered)

/-- A pixel loop without an answer waits with all its pixels to send. -/
theorem Dsq.sendPixels_none (unanswered : d.answers = []) (f : FillFraming) (v : Colour) {n : Nat} (pos : 0 < n) :
    Dsq.sendPixels f v d.answers n d = .pause d (.pixels n v) := by
  obtain ⟨m, rfl⟩ := Nat.exists_eq_add_of_lt pos
  rw [unanswered, Nat.zero_add, sendPixels, ← unanswered]

/-- Under PER_PIXEL a pixel loop with answers for `k` of its pixels waits with the others to send. -/
theorem Dsq.sendPixels_short (v : Colour) {k n : Nat} (short : k < n) (d : Dsq) :
    Dsq.sendPixels .perPixel v (List.replicate k .ok) n d =
      .pause (d.traffic (fillItems k v) []) (.pixels (n - k) v) := by
  induction k generalizing n d with
  | zero =>
    obtain ⟨m, rfl⟩ := Nat.exists_eq_add_of_lt short
    rw [Nat.zero_add, List.replicate_zero, sendPixels]
    simp [traffic, fillItems]
  | succ k ih =>
    obtain ⟨m, rfl⟩ : ∃ m, n = m + 1 := ⟨n - 1, by omega⟩
    simp only [List.replicate_succ, sendPixels, groupSize, nextDraw, Nat.add_sub_cancel]
    rw [ih (by omega), fillItems_succ, Nat.add_sub_add_right]
    simp [traffic, pixelRun]

theorem Dsq.go_fill_none (unanswered : d.answers = []) (v : Colour) {n : Nat} (pos : 0 < n)
    (hn : n = extent d.winX0 d.winX1 * extent d.winY0 d.winY1) :
    Dsq.go c (.fill v :: rest) d = { d with run := .pixels n v :: rest } := by
  subst hn
  exact go_pause (sendPixels_none unanswered c.fillFraming v pos)

theorem Dsq.go_pixels_none (unanswered : d.answers = []) (v : Colour) {n : Nat} (pos : 0 < n) :
    Dsq.go c (.pixels n v :: rest) d = { d with run := .pixels n v :: rest } :=
  go_pause (sendPixels_none unanswered c.fillFraming v pos)

/-- Under PER_PIXEL a fill of a primed window with answers for `k` of its pixels waits with the others to send. -/
theorem Dsq.start_doFill_short {v : Colour} {k n : Nat} (framing : c.fillFraming = .perPixel)
    (valid : d.winValid = true) (short : k < n) (hn : n = extent d.winX0 d.winX1 * extent d.winY0 d.winY1)
    (ans : d.answers = List.replicate k .ok) :
    d.start c (doFill v) = { d.traffic (fillItems k v) [] with
      busy := true, winValid := false, run := [.pixels (n - k) v] } := by
  have primed : Dsq.act c .needWindow { d with busy := true } = .done { d with busy := true } := by
    simp only [act, valid, if_true]
  have pauses : Dsq.act c (.fill v) { d with busy := true, winValid := false } =
      .pause ({ d with busy := true, winValid := false }.traffic (fillItems k v) []) (.pixels (n - k) v) := by
    simp only [act, framing, ans, ← hn]
    exact sendPixels_short v short _
  rw [start, doFill, go_done primed, go_done rfl, go_pause pauses]
  rfl

end

/-! ### Lines of TPC -/

section
variable {c : Config} {t : Tpc} {rest : List TAct}

theorem Tpc.twrite_none (unanswered : t.writeAnswers = []) (a : DevAddr) (bytes : List Byte) (stop : Bool) :
    t.twrite a bytes stop = none := by
  simp only [twrite, unanswered]

theorem Tpc.tread_none (unanswered : t.readAnswers = []) (a : DevAddr) (n : Nat) : t.tread a n = none := by
  simp only [tread, unanswered]

theorem Tpc.go_write_none (unanswered : t.writeAnswers = []) (a : DevAddr) (bytes : List Byte) (stop : Bool) :
    Tpc.go c (.write a bytes stop :: rest) t = { t with run := .write a bytes stop :: rest } :=
  go_pause (by simp only [act, twrite_none unanswered])

theorem Tpc.go_probe_none (unanswered : t.writeAnswers = []) (a : DevAddr) :
    Tpc.go c (.probe a :: rest) t = { t with run := .probe a :: rest } :=
  go_pause (by simp only [act, twrite_none unanswered])

theorem Tpc.go_readReg_none (unanswered : t.readAnswers = []) (a : DevAddr) :
    Tpc.go c (.readReg a :: rest) t = { t with run := .readReg a :: rest } :=
  go_pause (by simp only [act, tread_none unanswered])

theorem Tpc.go_readBlock_none (unanswered : t.readAnswers = []) :
    Tpc.go c (.readBlock :: rest) t = { t with run := .readBlock :: rest } :=
  go_pause (by simp only [act, tread_none unanswered])

theorem Tpc.go_drain_none (unanswered : t.readAnswers = []) :
    Tpc.go c (.drain :: rest) t = { t with run := .drain :: rest } :=
  go_pause (by simp only [act, tread_none unanswered])

/-- A scan without an answer waits at its first probe, all 126 to do (R105). -/
theorem Tpc.go_scan_none (unanswered : t.writeAnswers = []) :
    Tpc.go c (scanAddrs.map .probe) t =
      { t with run := (List.range 126).map fun k => .probe (BitVec.ofNat 7 (k + 1)) } := by
  have probes : scanAddrs.map TAct.probe = (List.range 126).map fun k => .probe (BitVec.ofNat 7 (k + 1)) := by
    simp only [scanAddrs, scanFirst, scanLast, List.map_map, Nat.add_comm 1]
    rfl
  rw [probes, List.range_succ_eq_map, List.map_cons]
  exact go_probe_none unanswered _

end

/-- Settles O27: the lines of both units, then the requests, each of which stops at its first unanswered line. -/
theorem unansweredTransactionHangs : Obligations.UnansweredTransactionHangs := by
  refine ⟨fun c d rest unanswered => ?dsqLines, fun c t rest => ?tpcLines,
    fun s idle => ⟨fun unanswered => ⟨fun b => ?dcmd, fun bytes ne wf => ?ddata, fun ok => ?dinit⟩,
      fun r g b k n framing valid short hn ans => ?dfill⟩,
    fun s idle => ⟨fun unanswered => ⟨fun a reg => ?rread, fun a reg val => ?rwrite, ?rscan⟩,
      fun unanswered phase => ?rpoll⟩⟩
  case dsqLines =>
    exact ⟨Dsq.go_cmd_none unanswered, Dsq.go_data_none unanswered, fun v n => Dsq.go_fill_none unanswered v,
      fun v n => Dsq.go_pixels_none unanswered v⟩
  case tpcLines =>
    refine ⟨fun unanswered a => ⟨Tpc.go_write_none unanswered a, Tpc.go_probe_none unanswered a⟩, fun unanswered => ?_⟩
    exact ⟨Tpc.go_readReg_none unanswered, Tpc.go_readBlock_none unanswered, Tpc.go_drain_none unanswered⟩
  case dcmd =>
    rw [exec_dcmd_idle b idle, Dsq.start, Dsq.go_done rfl, Dsq.go_cmd_none]
    exact unanswered
  case ddata =>
    rw [exec_ddata_idle wf idle, ddataLines_of_ne_nil ne, Dsq.start, Dsq.go_done rfl, Dsq.go_data_none]
    exact unanswered
  case dinit =>
    rw [exec_dinit_idle ok idle, Dsq.start_dinitLines, Dsq.go_cmd_none, Dsq.replay_of_not_atTable rfl]
    · rfl
    · exact unanswered
  case dfill => rw [exec_dfill_idle r g b idle, Dsq.start_doFill_short framing valid short hn ans]
  case rread =>
    rw [exec_rread_idle a reg idle, Tpc.start, doRread, Tpc.go_write_none]
    exact unanswered
  case rwrite =>
    rw [exec_rwrite_idle a reg val idle, Tpc.start, Tpc.go_write_none]
    · rfl
    · exact unanswered
  case rscan =>
    rw [exec_rscan_idle idle, Tpc.start, Tpc.go_scan_none]
    exact unanswered
  case rpoll =>
    rw [exec_rpoll_idle idle, rpollLines_of_none phase, Tpc.start, Tpc.go_readBlock_none]
    · rfl
    · exact unanswered

end Sys2Proof.Machine

/-!
PROOFS. O60, the reference panel (R131 (b), (c)): a window sequence sets the two ranges and begins a stream; the pixels
of the stream are written to the window's cells, row by row; a list of writes shows in the written cells alone.
-/
namespace Sys2Proof.Machine

/-! ### The window sequence -/

/-- The range an address-set carries is the one its arguments were made of (R47, R131 (b)). -/
theorem Panel.takeData_rangeArgs_caset {first last : Nat} {p : Panel} (hf : first < 65536) (hl : last < 65536)
    (mode : p.mode = .caset) :
    p.takeData (rangeArgs first last) = { p with cols := some (first, last), mode := .idle } := by
  simp only [takeData, mode, rangeArgs, u16Bytes, List.cons_append, List.nil_append, rangeOf, be16_hi_lo,
    BitVec.toNat_ofNat, Nat.mod_eq_of_lt hf, Nat.mod_eq_of_lt hl]

theorem Panel.takeData_rangeArgs_paset {first last : Nat} {p : Panel} (hf : first < 65536) (hl : last < 65536)
    (mode : p.mode = .paset) :
    p.takeData (rangeArgs first last) = { p with pages := some (first, last), mode := .idle } := by
  simp only [takeData, mode, rangeArgs, u16Bytes, List.cons_append, List.nil_append, rangeOf, be16_hi_lo,
    BitVec.toNat_ofNat, Nat.mod_eq_of_lt hf, Nat.mod_eq_of_lt hl]

/-- The panel with its ranges on a window and a stream about to begin. -/
def Panel.opened (x y w h : Nat) (p : Panel) : Panel :=
  { p with cols := some (x, x + w - 1), pages := some (y, y + h - 1), mode := .stream 0 [] }

/-- A window sequence that fits opens its window, whatever the panel was doing. -/
theorem Panel.foldl_winItems {c : Config} {x y w h : Nat}
    (distinct : [c.cmdSwreset, c.cmdCaset, c.cmdPaset, c.cmdRamwr].Nodup) (fits : windowOk x y w h = true) (p : Panel) :
    (winItems c x y w h).foldl (Panel.item c) p = p.opened x y w h := by
  obtain ⟨hw, hh, hx, hy⟩ := windowOk_iff.1 fits
  simp only [List.nodup_cons, List.mem_cons, List.not_mem_nil, or_false, not_or] at distinct
  obtain ⟨⟨sc, sp, sr⟩, ⟨cp, cr⟩, pr, -⟩ := distinct
  have caset (p : Panel) : p.command c c.cmdCaset = { p with mode := .caset } := by
    rw [command, if_neg (Ne.symm sc), if_pos rfl]
  have paset (p : Panel) : p.command c c.cmdPaset = { p with mode := .paset } := by
    rw [command, if_neg (Ne.symm sp), if_neg (Ne.symm cp), if_pos rfl]
  have ramwr (p : Panel) : p.command c c.cmdRamwr = { p with mode := .stream 0 [] } := by
    rw [command, if_neg (Ne.symm sr), if_neg (Ne.symm cr), if_neg (Ne.symm pr), if_pos rfl]
  simp only [winItems, List.foldl_cons, List.foldl_nil, item, casetArgs, pasetArgs, caset, paset, ramwr]
  rw [takeData_rangeArgs_caset (first := x) (by omega) (by omega) rfl,
    takeData_rangeArgs_paset (first := y) (by omega) (by omega) rfl]
  rfl

/-! ### The cells of a window -/

/-- The cell of pixel `k` of a stream into a window `w` wide (R131 (c)). -/
def windowCell (x y w k : Nat) : Nat := (y + k / w) * panelW + (x + k % w)

/-- Every pixel of a window that fits has its cell. -/
theorem Panel.pixelCell_eq_windowCell {x y w h k : Nat} {p : Panel} (fits : windowOk x y w h = true)
    (cols : p.cols = some (x, x + w - 1)) (pages : p.pages = some (y, y + h - 1)) (inside : k < w * h) :
    p.pixelCell k = some (windowCell x y w k) := by
  obtain ⟨hw, hh, hx, hy⟩ := windowOk_iff.1 fits
  have width : x + w - 1 + 1 - x = w := by omega
  have height : y + h - 1 + 1 - y = h := by omega
  have col : k % w < w := Nat.mod_lt k hw
  have row : k / w < h := Nat.div_lt_of_lt_mul inside
  simp only [pixelCell, cols, pages, width, height]
  rw [if_pos ⟨inside, by rw [panelW]; omega, by rw [panelH]; omega⟩, windowCell]

/-- A number of a cell gives back its column and row. -/
theorem cell_inj {i j i' j' : Nat} (hi : i < panelW) (hi' : i' < panelW)
    (same : j * panelW + i = j' * panelW + i') : i = i' ∧ j = j' := by
  rw [panelW] at *
  omega

/-- The cells a fill of the window writes are those in the window. -/
theorem mem_windowCells_iff {x y w h i j : Nat} (fits : windowOk x y w h = true) (hi : i < panelW) :
    j * panelW + i ∈ (List.range (w * h)).map (windowCell x y w) ↔ x ≤ i ∧ i < x + w ∧ y ≤ j ∧ j < y + h := by
  obtain ⟨hw, hh, hx, hy⟩ := windowOk_iff.1 fits
  simp only [List.mem_map, List.mem_range]
  constructor
  · rintro ⟨k, inside, same⟩
    have col : k % w < w := Nat.mod_lt k hw
    have row : k / w < h := Nat.div_lt_of_lt_mul inside
    obtain ⟨rfl, rfl⟩ := cell_inj (by rw [panelW]; omega) hi same
    exact ⟨Nat.le_add_right .., Nat.add_lt_add_left col x, Nat.le_add_right .., Nat.add_lt_add_left row y⟩
  · rintro ⟨left, right, top, bottom⟩
    obtain ⟨col, rfl⟩ := Nat.exists_eq_add_of_le left
    obtain ⟨row, rfl⟩ := Nat.exists_eq_add_of_le top
    have hcol : col < w := by omega
    have hrow : row < h := by omega
    refine ⟨w * row + col, ?_, ?_⟩
    · calc w * row + col < w * (row + 1) := by rw [Nat.mul_succ]; omega
        _ ≤ w * h := Nat.mul_le_mul_left w hrow
    · rw [windowCell, Nat.mul_add_div hw, Nat.div_eq_of_lt hcol, Nat.add_zero, Nat.mul_add_mod, Nat.mod_eq_of_lt hcol]

/-! ### The fill -/

/-- One colour written to cells, one after the other. -/
def gramPaint (cells : List Nat) (v : Colour) (gram : List (Nat × Colour)) : List (Nat × Colour) :=
  cells.foldl (fun gram cell => gramWrite cell v gram) gram

/-- A read after writes of one colour: the colour in the written cells, every other cell as it was. -/
theorem gramRead_gramPaint (cells : List Nat) (k : Nat) (v : Colour) (gram : List (Nat × Colour)) :
    gramRead k (gramPaint cells v gram) = if k ∈ cells then some v else gramRead k gram := by
  induction cells generalizing gram with
  | nil => simp [gramPaint]
  | cons cell cells ih =>
    have step : gramPaint (cell :: cells) v gram = gramPaint cells v (gramWrite cell v gram) := rfl
    rw [step, ih, gramRead_gramWrite]
    by_cases here : k = cell <;> simp [here]

/-- A pixel of a stream, in a transaction of its own. -/
theorem Panel.item_pixel {c : Config} {v : Colour} {k cell : Nat} {p : Panel} (mode : p.mode = .stream k [])
    (known : p.pixelCell k = some cell) :
    p.item c (.data (pixelBytes v) .ok) = { p with gram := gramWrite cell v p.gram, mode := .stream (k + 1) [] } := by
  have one := streamBytes_pixel v [] k p
  rw [List.append_nil] at one
  simp only [item, takeData, mode, one, pixel, known, streamBytes]

/-- The first `n` pixels of a fill, one in each transaction, are written to the first `n` cells of the window. -/
theorem Panel.foldl_fillItems {c : Config} {x y w h n : Nat} (fits : windowOk x y w h = true) (v : Colour)
    (inside : n ≤ w * h) (p : Panel) :
    (fillItems n v).foldl (Panel.item c) (p.opened x y w h) =
      { p.opened x y w h with
        gram := gramPaint ((List.range n).map (windowCell x y w)) v p.gram, mode := .stream n [] } := by
  induction n with
  | zero => rfl
  | succ n ih =>
    have last : fillItems 1 v = [.data (pixelBytes v) .ok] := rfl
    rw [fillItems_add, List.foldl_append, ih (by omega), last, List.foldl_cons, List.foldl_nil,
      item_pixel (k := n) (cell := windowCell x y w n) ?mode ?known]
    case mode => rfl
    case known => exact pixelCell_eq_windowCell fits rfl rfl inside
    simp [gramPaint, List.range_succ]

/-- Settles O60: the sequence opens the window, and the fill is worth one that writes the window's cells pixel by
pixel. -/
theorem panelShowsFilledWindow : Obligations.PanelShowsFilledWindow := by
  intro c f before fill x y w h v distinct fits isFill i j
  obtain ⟨hw, hh, hx, hy⟩ := windowOk_iff.1 fits
  have shown : (panelAfter c (before ++ (winItems c x y w h ++ fill))).gram =
      gramPaint ((List.range (w * h)).map (windowCell x y w)) v (panelAfter c before).gram := by
    rw [panelAfter, List.foldl_append, List.foldl_append, Panel.foldl_winItems distinct fits,
      Panel.foldl_isFillTraffic (k := 0) c isFill rfl, Panel.foldl_fillItems fits v (Nat.le_refl _)]
    rfl
  unfold Panel.cell
  split
  next onPanel => rw [shown, gramRead_gramPaint, if_congr (mem_windowCells_iff fits onPanel.1) rfl rfl]
  next offPanel =>
    rw [if_neg]
    rw [panelW, panelH] at offPanel
    omega

end Sys2Proof.Machine

/-!
PROOFS. O11 and O15, requests held for a busy unit and accepted when it is idle (R125, R149), and O58, power-on (R32,
R138, R139).
-/
namespace Sys2Proof.Machine

/-- Where a held request has an idle unit, one of the held requests is accepted. -/
theorem State.exists_acceptHeld {s : State} (offers : s.eligible ≠ []) : ∃ i s', s.acceptHeld = some (i, s') := by
  obtain ⟨first, others, heads⟩ := List.exists_cons_of_ne_nil offers
  exact ⟨_, _, by simp only [State.acceptHeld, heads]; rfl⟩

/-- Settles O11: whichever request `acceptHeld` answers was held for an idle unit, and the step performs it. -/
theorem stepAcceptsHeldRequest : Obligations.StepAcceptsHeldRequest := by
  intro s ok away offers
  obtain ⟨i, s', accepts⟩ := State.exists_acceptHeld offers
  obtain ⟨mem, idle, rfl⟩ := State.acceptHeld_eq_some accepts
  exact ⟨i, mem, idle, by rw [step, State.fetch_accepted ok away accepts]⟩

/-- Settles O15: exec of a request is the port's decision, which holds it for a busy unit. -/
theorem busyUnitHoldsRequest : Obligations.BusyUnitHoldsRequest := by
  intro i s ok req wf busy
  obtain ⟨perform, decides, -⟩ := exec_request i s req ok
  exact decides.trans (State.request_busy perform wf busy)

/-- Power-on is one step, to the state in which both units are reset (R138). -/
theorem step_powerOn {s : State} {rest : List Input} (ok : configOk s.cfg = true) (away : s.dsq.atTable = false)
    (none : s.eligible = []) (inputs : s.inputs = .powerOn :: rest) :
    step s = .next (State.powerOn { s with inputs := rest }) :=
  step_input ok away none inputs rfl

/-- Settles O58: the registers of the state after power-on are those of reset, its histories those before. -/
theorem powerOnAbandonsOperations : Obligations.PowerOnAbandonsOperations := by
  intro s rest ok away none inputs
  refine ⟨_, step_powerOn ok away none inputs, ?_⟩
  simp [Dsq.reset, Tpc.reset, Tpc.tagString]

end Sys2Proof.Machine
